-- ==== Sys2Proof/Word.lean ====
section
/-!
DEFINITION. The bit-vector types the spec names: bytes (20_memory R38), 16-bit words (R57, 10_state R20, R22), 4-bit
fields (30_encoding R58) and 12-bit address immediates (R58). All values are unsigned (00_scope R9). A register is as
wide as a parameter says (R7), so its value is a natural number below two to that width (log 25).
-/

namespace Sys2Proof

/-- A memory byte, the immediate `kk`. -/
abbrev Byte := BitVec 8

/-- An instruction word, a stack entry, a breakpoint address the host names. -/
abbrev Word := BitVec 16

/-- A 4-bit field of an instruction word (30_encoding R58 "Nibble"). -/
abbrev Nibble := BitVec 4

/-- The number of a general register `V0`..`VF` (10_state R15): the 4-bit fields `x` and `y` (30_encoding R58). -/
abbrev Reg := BitVec 4

/-- The address immediate `nnn` (30_encoding R58). -/
abbrev Addr12 := BitVec 12

/-- Register 15, `VF` (10_state R16). -/
abbrev VF : Reg := 0xF#4

/-- Register 0, `V0`, the implicit operand of `Bnnn` (41_control_flow R88). -/
abbrev V0 : Reg := 0x0#4

end Sys2Proof
end

