-- ==== Sys2Proof/Syntax.lean ====
section
/-!
DEFINITION. The instruction set as syntax: one constructor per row of spec/opcode_table.json (30_encoding R60),
with the fields of its format (R58, R59). `8xy6` and `8xyE` keep their `y` field, which is decoded and unused (R64).
-/

namespace Sys2Proof

/-- The 34 instruction forms of 30_encoding R60, in the table's order. -/
inductive Instr where
  /-- `00E0` CLS (44_display R108). -/
  | cls
  /-- `00EE` RET (41_control_flow R81). -/
  | ret
  /-- `1nnn` JP nnn (R82). -/
  | jp (nnn : Addr12)
  /-- `2nnn` CALL nnn (R83). -/
  | call (nnn : Addr12)
  /-- `3xkk` SE Vx, kk (R84). -/
  | seByte (x : Reg) (kk : Byte)
  /-- `4xkk` SNE Vx, kk (R85). -/
  | sneByte (x : Reg) (kk : Byte)
  /-- `5xy0` SE Vx, Vy (R86). -/
  | seReg (x y : Reg)
  /-- `6xkk` LD Vx, kk (42_alu R90). -/
  | ldByte (x : Reg) (kk : Byte)
  /-- `7xkk` ADD Vx, kk (R91). -/
  | addByte (x : Reg) (kk : Byte)
  /-- `8xy0` LD Vx, Vy (R92). -/
  | ldReg (x y : Reg)
  /-- `8xy1` OR Vx, Vy (R93). -/
  | orReg (x y : Reg)
  /-- `8xy2` AND Vx, Vy (R94). -/
  | andReg (x y : Reg)
  /-- `8xy3` XOR Vx, Vy (R95). -/
  | xorReg (x y : Reg)
  /-- `8xy4` ADD Vx, Vy (R96). -/
  | addReg (x y : Reg)
  /-- `8xy5` SUB Vx, Vy (R97). -/
  | subReg (x y : Reg)
  /-- `8xy6` SHR Vx (R98). -/
  | shr (x y : Reg)
  /-- `8xy7` SUBN Vx, Vy (R99). -/
  | subnReg (x y : Reg)
  /-- `8xyE` SHL Vx (R100). -/
  | shl (x y : Reg)
  /-- `9xy0` SNE Vx, Vy (41_control_flow R87). -/
  | sneReg (x y : Reg)
  /-- `Annn` LD I, nnn (43_memory_index R102). -/
  | ldI (nnn : Addr12)
  /-- `Bnnn` JP V0, nnn (41_control_flow R88). -/
  | jpV0 (nnn : Addr12)
  /-- `Cxkk` RND Vx, kk (42_alu R101). -/
  | rnd (x : Reg) (kk : Byte)
  /-- `Dxyn` DRW Vx, Vy, n (44_display R109). -/
  | drw (x y : Reg) (n : Nibble)
  /-- `Ex9E` SKP Vx (45_keys_timers R110). -/
  | skp (x : Reg)
  /-- `ExA1` SKNP Vx (R111). -/
  | sknp (x : Reg)
  /-- `Fx07` LD Vx, DT (R112). -/
  | ldVxDt (x : Reg)
  /-- `Fx0A` LD Vx, K (R113). -/
  | ldVxK (x : Reg)
  /-- `Fx15` LD DT, Vx (R114). -/
  | ldDt (x : Reg)
  /-- `Fx18` LD ST, Vx (R115). -/
  | ldSt (x : Reg)
  /-- `Fx1E` ADD I, Vx (43_memory_index R103). -/
  | addI (x : Reg)
  /-- `Fx29` LD F, Vx (R104). -/
  | ldF (x : Reg)
  /-- `Fx33` LD B, Vx (R105). -/
  | ldB (x : Reg)
  /-- `Fx55` LD [I], Vx (R106). -/
  | storeRegs (x : Reg)
  /-- `Fx65` LD Vx, [I] (R107). -/
  | loadRegs (x : Reg)
  deriving DecidableEq, Repr

end Sys2Proof
end

