-- ==== Sys2Proof/WellFormed.lean ====
section
/-!
DEFINITION. The opcode table as data (30_encoding R59, R60), which words are supported (R62), and when operands fit
the fields of a format (R58, R63). An `Instr` carries its operands in the types of their fields, so the check on
operands has work to do only on operands that come as plain numbers; `Instr.WellFormed` is that check on an `Instr`.
-/

namespace Sys2Proof

/-- The six formats of 30_encoding R59. -/
inductive Format where
  | none
  | nnn
  | xkk
  | xy
  | xyn
  | x
  deriving DecidableEq, Repr

/-- The widths of a format's operand fields, in the order of R59's layout; the `sub` digits are fixed bits. -/
def Format.widths : Format → List Nat
  | .none => []
  | .nnn => [12]
  | .xkk => [4, 8]
  | .xy => [4, 4]
  | .xyn => [4, 4, 4]
  | .x => [4]

/-- One row of the opcode table (R60): a word `op` is the row's when `op &&& mask = bits`. -/
structure OpcodeRow where
  mnemonic : String
  bits : Word
  mask : Word
  format : Format
  deriving DecidableEq, Repr

/-- The row of the opcode table that an instruction belongs to (R60; mnemonics as spec/opcode_table.json spells
them, log 22). -/
def Instr.row : Instr → OpcodeRow
  | .cls => ⟨"CLS", 0x00E0#16, 0xFFFF#16, .none⟩
  | .ret => ⟨"RET", 0x00EE#16, 0xFFFF#16, .none⟩
  | .jp _ => ⟨"JP_nnn", 0x1000#16, 0xF000#16, .nnn⟩
  | .call _ => ⟨"CALL_nnn", 0x2000#16, 0xF000#16, .nnn⟩
  | .seByte _ _ => ⟨"SE_Vx__kk", 0x3000#16, 0xF000#16, .xkk⟩
  | .sneByte _ _ => ⟨"SNE_Vx__kk", 0x4000#16, 0xF000#16, .xkk⟩
  | .seReg _ _ => ⟨"SE_Vx__Vy", 0x5000#16, 0xF00F#16, .xy⟩
  | .ldByte _ _ => ⟨"LD_Vx__kk", 0x6000#16, 0xF000#16, .xkk⟩
  | .addByte _ _ => ⟨"ADD_Vx__kk", 0x7000#16, 0xF000#16, .xkk⟩
  | .ldReg _ _ => ⟨"LD_Vx__Vy", 0x8000#16, 0xF00F#16, .xy⟩
  | .orReg _ _ => ⟨"OR_Vx__Vy", 0x8001#16, 0xF00F#16, .xy⟩
  | .andReg _ _ => ⟨"AND_Vx__Vy", 0x8002#16, 0xF00F#16, .xy⟩
  | .xorReg _ _ => ⟨"XOR_Vx__Vy", 0x8003#16, 0xF00F#16, .xy⟩
  | .addReg _ _ => ⟨"ADD_Vx__Vy", 0x8004#16, 0xF00F#16, .xy⟩
  | .subReg _ _ => ⟨"SUB_Vx__Vy", 0x8005#16, 0xF00F#16, .xy⟩
  | .shr _ _ => ⟨"SHR_Vx", 0x8006#16, 0xF00F#16, .xy⟩
  | .subnReg _ _ => ⟨"SUBN_Vx__Vy", 0x8007#16, 0xF00F#16, .xy⟩
  | .shl _ _ => ⟨"SHL_Vx", 0x800E#16, 0xF00F#16, .xy⟩
  | .sneReg _ _ => ⟨"SNE_Vx__Vy", 0x9000#16, 0xF00F#16, .xy⟩
  | .ldI _ => ⟨"LD_I__nnn", 0xA000#16, 0xF000#16, .nnn⟩
  | .jpV0 _ => ⟨"JP_V0__nnn", 0xB000#16, 0xF000#16, .nnn⟩
  | .rnd _ _ => ⟨"RND_Vx__kk", 0xC000#16, 0xF000#16, .xkk⟩
  | .drw _ _ _ => ⟨"DRW_Vx__Vy__n", 0xD000#16, 0xF000#16, .xyn⟩
  | .skp _ => ⟨"SKP_Vx", 0xE09E#16, 0xF0FF#16, .x⟩
  | .sknp _ => ⟨"SKNP_Vx", 0xE0A1#16, 0xF0FF#16, .x⟩
  | .ldVxDt _ => ⟨"LD_Vx__DT", 0xF007#16, 0xF0FF#16, .x⟩
  | .ldVxK _ => ⟨"LD_Vx__K", 0xF00A#16, 0xF0FF#16, .x⟩
  | .ldDt _ => ⟨"LD_DT__Vx", 0xF015#16, 0xF0FF#16, .x⟩
  | .ldSt _ => ⟨"LD_ST__Vx", 0xF018#16, 0xF0FF#16, .x⟩
  | .addI _ => ⟨"ADD_I__Vx", 0xF01E#16, 0xF0FF#16, .x⟩
  | .ldF _ => ⟨"LD_F__Vx", 0xF029#16, 0xF0FF#16, .x⟩
  | .ldB _ => ⟨"LD_B__Vx", 0xF033#16, 0xF0FF#16, .x⟩
  | .storeRegs _ => ⟨"LD__I___Vx", 0xF055#16, 0xF0FF#16, .x⟩
  | .loadRegs _ => ⟨"LD_Vx___I", 0xF065#16, 0xF0FF#16, .x⟩

/-- The 34 rows of 30_encoding R60, in the table's order. -/
def opcodeTable : List OpcodeRow :=
  [Instr.cls, .ret, .jp 0, .call 0, .seByte 0 0, .sneByte 0 0, .seReg 0 0, .ldByte 0 0, .addByte 0 0].map Instr.row
  ++ [Instr.ldReg 0 0, .orReg 0 0, .andReg 0 0, .xorReg 0 0, .addReg 0 0, .subReg 0 0, .shr 0 0, .subnReg 0 0,
      .shl 0 0, .sneReg 0 0].map Instr.row
  ++ [Instr.ldI 0, .jpV0 0, .rnd 0 0, .drw 0 0 0, .skp 0, .sknp 0].map Instr.row
  ++ [Instr.ldVxDt 0, .ldVxK 0, .ldDt 0, .ldSt 0, .addI 0, .ldF 0, .ldB 0, .storeRegs 0, .loadRegs 0].map Instr.row

/-- A word belongs to a row (R60: `op & mask` equals the row's match). -/
def OpcodeRow.matchesWord (r : OpcodeRow) (op : Word) : Bool := op &&& r.mask == r.bits

/-- A word is supported when it belongs to some row; every other word is unsupported (R62). -/
def supportedWord (op : Word) : Bool := opcodeTable.any (·.matchesWord op)

/-- Operands given as plain numbers fit a format: as many as it has fields, each below two to the field's width
(R58, R63). -/
def operandsFit (f : Format) (operands : List Nat) : Bool :=
  operands.length == f.widths.length && (operands.zip f.widths).all (fun p => decide (p.1 < 2 ^ p.2))

/-- The operands of an instruction as plain numbers, in the order of R59's layout. -/
def Instr.operands : Instr → List Nat
  | .cls => []
  | .ret => []
  | .jp nnn => [nnn.toNat]
  | .call nnn => [nnn.toNat]
  | .seByte x kk => [x.toNat, kk.toNat]
  | .sneByte x kk => [x.toNat, kk.toNat]
  | .seReg x y => [x.toNat, y.toNat]
  | .ldByte x kk => [x.toNat, kk.toNat]
  | .addByte x kk => [x.toNat, kk.toNat]
  | .ldReg x y => [x.toNat, y.toNat]
  | .orReg x y => [x.toNat, y.toNat]
  | .andReg x y => [x.toNat, y.toNat]
  | .xorReg x y => [x.toNat, y.toNat]
  | .addReg x y => [x.toNat, y.toNat]
  | .subReg x y => [x.toNat, y.toNat]
  | .shr x y => [x.toNat, y.toNat]
  | .subnReg x y => [x.toNat, y.toNat]
  | .shl x y => [x.toNat, y.toNat]
  | .sneReg x y => [x.toNat, y.toNat]
  | .ldI nnn => [nnn.toNat]
  | .jpV0 nnn => [nnn.toNat]
  | .rnd x kk => [x.toNat, kk.toNat]
  | .drw x y n => [x.toNat, y.toNat, n.toNat]
  | .skp x => [x.toNat]
  | .sknp x => [x.toNat]
  | .ldVxDt x => [x.toNat]
  | .ldVxK x => [x.toNat]
  | .ldDt x => [x.toNat]
  | .ldSt x => [x.toNat]
  | .addI x => [x.toNat]
  | .ldF x => [x.toNat]
  | .ldB x => [x.toNat]
  | .storeRegs x => [x.toNat]
  | .loadRegs x => [x.toNat]

/-- The operands of an instruction fit its row's format. -/
def Instr.WellFormed (i : Instr) : Bool := operandsFit i.row.format i.operands

end Sys2Proof
end

