-- ==== Sys2Proof/Config.lean ====
section
/-!
DEFINITION. The implementation parameters of 00_scope R7 and the free values.
The parameters to which R7 gives a value are the record `Params`, which every state carries and no step changes:
whatever is said of every state is said for every value of them (log 1). Their default values, the document's, are
Machine/Params.lean. `MEM_INIT`, `RESET_MEMORY`, the random draw and what an absent register reads as have no body, so
that nothing in Lean can evaluate them and every theorem holds whatever they are (log 3, 4, 5, 27).
-/

namespace Sys2Proof.Config

/-! ### The parameters a machine is built with -/

/-- The parameters of R7 that have a default, each of which a machine may have with another value
(decision D1). -/
structure Params where
  /-- `NUM_V`: general registers. -/
  numV : Nat
  /-- `V_WIDTH`: bits of a general register. -/
  vWidth : Nat
  /-- `I_WIDTH`: bits of `I`. -/
  iWidth : Nat
  /-- `PC_WIDTH`: bits of `PC`. -/
  pcWidth : Nat
  /-- `SP_WIDTH`: bits of `SP`. -/
  spWidth : Nat
  /-- `TIMER_WIDTH`: bits of `DT` and of `ST`; its default is decision D25 (log 20). -/
  timerWidth : Nat
  /-- `STACK_DEPTH`: entries of the return stack, each 16 bits. -/
  stackDepth : Nat
  /-- `MEM_CAPACITY`: bytes of memory. -/
  memCapacity : Nat
  /-- `FONT_BASE`: the address of glyph 0. -/
  fontBase : Nat
  /-- `FONT_GLYPHS`: glyphs of the font table. -/
  fontGlyphs : Nat
  /-- `FONT_GLYPH_BYTES`: bytes of a glyph. -/
  fontGlyphBytes : Nat
  /-- `FONT`: the bytes of the font table, in address order (20_memory R41). -/
  font : List Byte
  /-- `PROGRAM_START`: the load offset and the reset `PC`. -/
  programStart : Nat
  /-- `FB_W`: columns of the grid. -/
  fbW : Nat
  /-- `FB_H`: rows of the grid. -/
  fbH : Nat
  /-- `NUM_KEYS`: keys. -/
  numKeys : Nat
  deriving DecidableEq, Repr

/-! ### Free values -/

/-- The two values of R7 `RESET_MEMORY` (70_reset_and_hazards R143). -/
inductive ResetMemory where
  /-- `reset()` leaves all memory unchanged. -/
  | keep
  /-- `reset()` sets every byte past the font to 0x00. -/
  | clear
  deriving DecidableEq, Repr, Inhabited

/-- R7 `RESET_MEMORY`, OPEN (decision D30): a free value (log 4). -/
opaque resetMemory : ResetMemory

/-- R7 `MEM_INIT`, OPEN (decision D2): the byte that address `a` holds at construction, a free value (log 3). -/
opaque memInit : Nat → Byte

/-- The draws of `Cxkk` that the host has not written into the state (42_alu R101, decision D26): any byte, under
no law, a free value (log 5). -/
opaque freeDraw : Nat → Byte

/-- What a register that a 4-bit field names and the machine does not have reads as, with `NUM_V` below 16: the spec
states no value (10_state R15 has sixteen registers), a free value (log 27). -/
opaque absentRegister : Reg → Nat

end Sys2Proof.Config
end

