-- ==== Sys2Proof/Machine/Params.lean ====
section
/-!
DEFINITION. What follows from the parameters (20_memory R40, R43), which values of them fit together, and the parameters
at the values the document gives (00_scope R7, decision D1; log 1), with FONT at the default of 20_memory R41.
PRESUMED (log 2): the document gives no font bytes; the spec takes these from general knowledge (decision D3). A claim
about glyph pixels names the font of its state as a premise.
-/

namespace Sys2Proof

/-- The first address past the font table (20_memory R43 `FONT_BASE + 80`). -/
def Config.Params.fontEnd (p : Config.Params) : Nat := p.fontBase + p.fontGlyphs * p.fontGlyphBytes

/-- An address of the font table (20_memory R40). -/
abbrev Config.Params.inFont (p : Config.Params) (a : Nat) : Prop := p.fontBase ≤ a ∧ a < p.fontEnd

/-- The registers can hold what the rules put into them: there are the sixteen that a 4-bit field names (10_state R15),
a general register holds a byte (42_alu R90), `I` and `PC` hold a 12-bit immediate (41_control_flow R82, 43_memory_index
R102), a stack entry holds `PC` (10_state R20), `SP` can count the stack's entries (R19), and `PC` can hold the load
offset (R35). -/
abbrev Config.Params.WidthsFit (p : Config.Params) : Prop :=
  16 ≤ p.numV ∧ 8 ≤ p.vWidth ∧ 12 ≤ p.iWidth ∧ 12 ≤ p.pcWidth ∧ p.pcWidth ≤ 16 ∧
  p.stackDepth < 2 ^ p.spWidth ∧ p.programStart < 2 ^ p.pcWidth

/-- The font has its bytes and lies in memory below the programs (20_memory R39 to R41, 70_reset_and_hazards R144), and
the grid has cells (10_state R24). -/
abbrev Config.Params.RegionsFit (p : Config.Params) : Prop :=
  p.font.length = p.fontGlyphs * p.fontGlyphBytes ∧ p.fontEnd ≤ p.programStart ∧
  p.programStart ≤ p.memCapacity ∧ 0 < p.fbW ∧ 0 < p.fbH

/-- Parameters that fit together, as the document's do. -/
abbrev Config.Params.Valid (p : Config.Params) : Prop := p.WidthsFit ∧ p.RegionsFit

namespace Machine

/-- The five bytes of each glyph 0x0..0xF, top row first (R41). -/
def fontGlyphs : List (List Byte) :=
  [[0xF0#8, 0x90#8, 0x90#8, 0x90#8, 0xF0#8],
   [0x20#8, 0x60#8, 0x20#8, 0x20#8, 0x70#8],
   [0xF0#8, 0x10#8, 0xF0#8, 0x80#8, 0xF0#8],
   [0xF0#8, 0x10#8, 0xF0#8, 0x10#8, 0xF0#8],
   [0x90#8, 0x90#8, 0xF0#8, 0x10#8, 0x10#8],
   [0xF0#8, 0x80#8, 0xF0#8, 0x10#8, 0xF0#8],
   [0xF0#8, 0x80#8, 0xF0#8, 0x90#8, 0xF0#8],
   [0xF0#8, 0x10#8, 0x20#8, 0x40#8, 0x40#8]] ++
  [[0xF0#8, 0x90#8, 0xF0#8, 0x90#8, 0xF0#8],
   [0xF0#8, 0x90#8, 0xF0#8, 0x10#8, 0xF0#8],
   [0xF0#8, 0x90#8, 0xF0#8, 0x90#8, 0x90#8],
   [0xE0#8, 0x90#8, 0xE0#8, 0x90#8, 0xE0#8],
   [0xF0#8, 0x80#8, 0x80#8, 0x80#8, 0xF0#8],
   [0xE0#8, 0x90#8, 0x90#8, 0x90#8, 0xE0#8],
   [0xF0#8, 0x80#8, 0xF0#8, 0x80#8, 0xF0#8],
   [0xF0#8, 0x80#8, 0xF0#8, 0x80#8, 0x80#8]]

/-- The parameters at their defaults (R7): the document's values, but for the timer width, which is decision D25
(log 20), and the font bytes, decision D3 (log 2). -/
def documentParams : Config.Params where
  numV := 16
  vWidth := 8
  iWidth := 16
  pcWidth := 16
  spWidth := 8
  timerWidth := 8
  stackDepth := 16
  memCapacity := 4095
  fontBase := 0x000
  fontGlyphs := 16
  fontGlyphBytes := 5
  font := fontGlyphs.flatten
  programStart := 0x200
  fbW := 64
  fbH := 32
  numKeys := 16

end Machine

end Sys2Proof
end

