-- ==== Sys2Proof/Machine/State.lean ====
section
/-!
DEFINITION. The state of the core (10_state, 20_memory R38) as plain data, with the parameters the machine was built
with (00_scope R7; log 1), the reasons a step can stop, and the state right after construction (10_state R35,
70_reset_and_hazards R140; log 8).
-/

namespace Sys2Proof.Machine

/-- The run state (10_state R29). -/
inductive RunState where
  /-- No cycle runs; left by `run()`. -/
  | stopped
  /-- Cycles run. -/
  | running
  /-- Hit a breakpoint or a fault. -/
  | halted
  /-- Blocked inside `Fx0A`. -/
  | awaitingKeypress
  deriving DecidableEq, Repr

/-- The fault kinds of 60_exceptions R116, each with the `info` the table gives it. -/
inductive FaultKind where
  /-- Push with `SP = STACK_DEPTH`, by `2nnn`. -/
  | stackOverflow
  /-- Pop with `SP = 0`, by `00EE`. -/
  | stackUnderflow
  /-- The word is in no row of the table; `info` is the word. -/
  | unsupportedOpcode (op : Word)
  /-- Fetch with a byte outside memory; `info` is `PC`. -/
  | pcOutOfBounds (pc : Nat)
  /-- Store target at or above `MEM_CAPACITY`; `info` is the target address. -/
  | memWriteOutOfBounds (a : Nat)
  /-- Store target inside the font table; `info` is the target address. -/
  | fontWrite (a : Nat)
  /-- Key test of a number above the last key's, 0xF; `info` is `Vx`. -/
  | invalidKey (k : Nat)
  deriving DecidableEq, Repr

/-- The fault record (10_state R31): the kind with its info, the address of the faulting instruction, and its word
where one was fetched. -/
structure FaultRecord where
  kind : FaultKind
  addr : Nat
  op : Option Word
  deriving DecidableEq, Repr

/-- What a byte outside the font that is not listed holds: its value at construction (`MEM_INIT`), or 0x00 after a
`reset()` with `RESET_MEMORY = clear` (70_reset_and_hazards R143; log 15). -/
inductive MemBase where
  | initial
  | cleared
  deriving DecidableEq, Repr

/-- Memory (20_memory R38): the bytes written, by strictly rising address, over a base (log 15). -/
structure Memory where
  base : MemBase
  cells : List Host.Cell
  deriving DecidableEq, Repr

/-- The framebuffer `fb[x][y]` (10_state R24): the cells `(x, y)` that are on, column by column and upwards in each;
every other cell of the grid is off (log 26). -/
abbrev Framebuffer := List (Nat × Nat)

/-- The registers of `getRegisters()` (60_exceptions R128); the stack contents are not part of it. -/
structure RegisterSnapshot where
  v : List Nat
  i : Nat
  pc : Nat
  sp : Nat
  dt : Nat
  st : Nat
  deriving DecidableEq, Repr

/-- The host operations of 60_exceptions R134. Arguments are as wide as the host may send them, so that those the
core refuses can be written down (log 13). -/
inductive HostRequest where
  /-- 20_memory R50. -/
  | load (offset : Nat) (bytes : List Byte)
  /-- 40_cycle R67. -/
  | run
  /-- 40_cycle R68. -/
  | stop
  /-- 70_reset_and_hazards R141. -/
  | reset
  /-- 60_exceptions R127; the name is the characters the host sends. -/
  | setRegister (name : List Char) (value : Nat)
  /-- R128. -/
  | getRegisters
  /-- R129. -/
  | setBreakpoint (addr : Word)
  /-- R129. -/
  | hasBreakpoint (addr : Word)
  /-- R130. -/
  | readMemory (addr : Nat)
  /-- R133: key-down notification. -/
  | setDown (k : Nat)
  /-- R133: key-up notification. -/
  | setUp (k : Nat)
  /-- R131: the renderer's snapshot. -/
  | readFramebuffer
  /-- R132: the audio backend's poll. -/
  | readSoundTimer
  /-- R136: run state and fault record. -/
  | readStatus
  deriving DecidableEq, Repr

/-- Why a host operation fails; a failed operation changes no state (20_memory R51, 60_exceptions R124, R125). -/
inductive HostError where
  /-- `load` beyond memory (R50). -/
  | capacityExceeded
  /-- `load` below the end of the font table (R50). -/
  | fontOverlap
  /-- `run()` while a fault is recorded (R67). -/
  | faultRecorded
  /-- `setRegister` of a name it does not accept (R127). -/
  | unknownRegister
  /-- `setRegister` of a value wider than the register (R127). -/
  | valueTooWide
  /-- A key number above the last key's, 0xF (R133). -/
  | invalidKey
  deriving DecidableEq, Repr

/-- What a host operation gives back (60_exceptions R137). -/
inductive HostReply where
  | ok
  | failed (e : HostError)
  | registers (r : RegisterSnapshot)
  | found (b : Bool)
  | byte (b : Byte)
  | number (n : Nat)
  | framebuffer (fb : Framebuffer)
  | status (run : RunState) (fault : Option FaultRecord)
  deriving DecidableEq, Repr

/-- One action of the host: an operation between two cycles, or the driving of one cycle (60_exceptions R134, R137;
log 6). -/
inductive HostEvent where
  | request (r : HostRequest)
  | cycle
  deriving DecidableEq, Repr

/-- The state of the machine. The fields from `v` to `mem` are the spec's state; `params` are the parameters the machine
was built with, which no step changes (log 1); the last four are the model's own, for what 10_state R36 calls inputs
(log 5, 6). A register is a natural number below two to the width its parameter gives it (log 25). -/
structure State where
  /-- The parameters (00_scope R7). -/
  params : Config.Params
  /-- `V0`..`VF` (R15): `NUM_V` registers of `V_WIDTH` bits. -/
  v : List Nat
  /-- The index register `I` (R17), of `I_WIDTH` bits. -/
  i : Nat
  /-- The program counter (R18), of `PC_WIDTH` bits. -/
  pc : Nat
  /-- The number of occupied stack entries (R19), of `SP_WIDTH` bits. -/
  sp : Nat
  /-- The delay timer `DT` (R23), of `TIMER_WIDTH` bits. -/
  dt : Nat
  /-- The sound timer `ST` (R23), of `TIMER_WIDTH` bits. -/
  st : Nat
  /-- The return stack, `STACK_DEPTH` entries (R22). -/
  stack : List Word
  /-- The framebuffer (R24). -/
  fb : Framebuffer
  /-- The key states (R26): `NUM_KEYS` of them, `true` is down. -/
  keys : List Bool
  /-- The last key pressed (R27). -/
  lastKey : Option Nat
  /-- The run state (R29). -/
  run : RunState
  /-- The register the pending `Fx0A` writes (R30). -/
  waitReg : Reg
  /-- The address of the pending `Fx0A` (R30). -/
  waitAddr : Nat
  /-- The fault record (R31). -/
  fault : Option FaultRecord
  /-- The breakpoint set, by strictly rising address (R32; log 14). -/
  breakpoints : List Nat
  /-- Memory (20_memory R38). -/
  mem : Memory
  /-- The random bytes the host has supplied and no `Cxkk` has used yet (42_alu R101; log 5). -/
  draws : List Byte
  /-- How many free draws have been used (log 5). -/
  drawCount : Nat
  /-- The host's coming actions, the next one first (log 6). -/
  agenda : List HostEvent
  /-- What the last host operation gave back (log 6). -/
  reply : Option HostReply
  deriving DecidableEq, Repr

/-- Why the model stops. No fault of the hardware is here: the core records its own faults and goes on in a next state
(60_exceptions R117). -/
inductive Fault where
  /-- Raised by `2nnn` and `00EE` in a state whose `SP` names an entry that the stack does not have. The spec says that
  no such value is reachable (10_state R19, R22). Safe: the model stops where the spec gives no effect (log 10). -/
  | stackEntryMissing
  deriving DecidableEq, Repr

/-- Why an instruction has no meaning. -/
inductive Refusal where
  /-- Raised by an arm of `exec` whose instruction has no meaning yet. Safe: nothing can be proved of it. No arm is
  left that raises it. -/
  | notModelled (mnemonic : String)
  deriving DecidableEq, Repr

/-- The three outcomes of a step of this machine. -/
abbrev Result := Host.Outcome State Fault Refusal

/-- The state after construction with given parameters (70_reset_and_hazards R140), which is also what `reset()` leaves
of it but for memory under `RESET_MEMORY = clear` (10_state R35; log 8). -/
def State.initial (p : Config.Params) : State where
  params := p
  v := List.replicate p.numV 0
  i := 0
  pc := p.programStart % 2 ^ p.pcWidth
  sp := 0
  dt := 0
  st := 0
  stack := List.replicate p.stackDepth 0#16
  fb := []
  keys := List.replicate p.numKeys false
  lastKey := none
  run := .stopped
  waitReg := 0#4
  waitAddr := 0
  fault := none
  breakpoints := []
  mem := { base := .initial, cells := [] }
  draws := []
  drawCount := 0
  agenda := []
  reply := none

/-- The state after construction at the document's parameters (00_scope R7). -/
def State.reset : State := State.initial documentParams

end Sys2Proof.Machine
end

