-- ==== Sys2Proof/Machine/Ops.lean ====
section
/-!
DEFINITION. The named operations over the state: registers, memory, framebuffer, stack, keyboard, timers, the random
draw, fetching, and raising a fault (10_state, 20_memory, 40_cycle, 60_exceptions R117).
There is no return from a fault beside `raise`: 60_exceptions R122 says that the only recovery is `reset()`, which is
Machine/HostOps.lean `hostReset`.
-/

namespace Sys2Proof.Machine

/-! ### Rising lists -/

/-- An element added to a list kept in rising order without repeats. -/
def insertRising {α : Type} [DecidableEq α] (before : α → α → Bool) : List α → α → List α
  | [], a => [a]
  | b :: rest, a =>
    if before a b then a :: b :: rest
    else if a = b then b :: rest
    else b :: insertRising before rest a

/-! ### Registers (10_state R15, R17 to R19, R23) -/

/-- `V[r]` (00_scope R10); a register the machine does not have reads as a free value (log 27). -/
def State.getV (s : State) (r : Reg) : Nat :=
  (s.v[r.toNat]?).getD (Config.absentRegister r % 2 ^ s.params.vWidth)

/-- `V[r] <- n`, narrowed to `V_WIDTH` bits (42_alu R89). A write of a register the machine does not have is discarded
(log 27). -/
def State.setV (s : State) (r : Reg) (n : Nat) : State :=
  { s with v := s.v.set r.toNat (n % 2 ^ s.params.vWidth) }

/-- `I <- n`, narrowed to `I_WIDTH` bits. -/
def State.setI (s : State) (n : Nat) : State := { s with i := n % 2 ^ s.params.iWidth }

/-- `PC <- n`, narrowed to `PC_WIDTH` bits. -/
def State.setPC (s : State) (n : Nat) : State := { s with pc := n % 2 ^ s.params.pcWidth }

/-- `DT <- n`, narrowed to `TIMER_WIDTH` bits. -/
def State.setDT (s : State) (n : Nat) : State := { s with dt := n % 2 ^ s.params.timerWidth }

/-- `ST <- n`, narrowed to `TIMER_WIDTH` bits. -/
def State.setST (s : State) (n : Nat) : State := { s with st := n % 2 ^ s.params.timerWidth }

/-- `PC <- (PC + 2) mod 2^16`, with `PC_WIDTH` for the 16: the advance of 40_cycle R72 and the skip of 41_control_flow
R84 (decision D41). -/
def State.advance (s : State) : State := s.setPC (s.pc + 2)

/-- The address `addr` of the instruction being executed (00_scope R11): `PC` stands at `addr + 2` there (40_cycle R72),
so `addr` is `PC - 2` mod `2^PC_WIDTH` (log 12). -/
def State.instrAddr (s : State) : Nat := (s.pc + (2 ^ s.params.pcWidth - 2)) % 2 ^ s.params.pcWidth

/-! ### Memory (20_memory) -/

/-- The byte listed at an address, if any. -/
def cellLookup : List Host.Cell → Nat → Option Byte
  | [], _ => none
  | (b, w) :: rest, a => if a = b then some w else cellLookup rest a

/-- The cells with address `a` holding `v`, in rising order. -/
def cellInsert : List Host.Cell → Nat → Byte → List Host.Cell
  | [], a, v => [(a, v)]
  | (b, w) :: rest, a, v =>
    if a < b then (a, v) :: (b, w) :: rest
    else if a = b then (a, v) :: rest
    else (b, w) :: cellInsert rest a v

/-- The cells without address `a`. -/
def cellErase (l : List Host.Cell) (a : Nat) : List Host.Cell := l.filter (fun c => c.1 ≠ a)

/-- What an address past the font that is not listed reads as, where the model knows it: 0x00 on a cleared base
(70_reset_and_hazards R143). `none` stands for `MEM_INIT`, which is open (log 3, 15). Addresses below the font table,
of which there are none at the document's `FONT_BASE`, are never written and hold `MEM_INIT`. -/
def Memory.unlisted (p : Config.Params) (m : Memory) (a : Nat) : Option Byte :=
  if p.fontEnd ≤ a then
    match m.base with
    | .initial => none
    | .cleared => some 0#8
  else none

/-- The canonical form: addresses strictly rising, past the font and inside memory, and no cell equal to what its
address reads as unlisted. -/
abbrev Memory.wf (p : Config.Params) (m : Memory) : Prop :=
  m.cells.Pairwise (fun c d => c.1 < d.1) ∧
  ∀ c ∈ m.cells, p.fontEnd ≤ c.1 ∧ c.1 < p.memCapacity ∧ m.unlisted p c.1 ≠ some c.2

/-- The byte of a font address (20_memory R41): glyph `k` is `FONT[5k .. 5k+4]`. -/
def fontByte (p : Config.Params) (a : Nat) : Byte := (p.font[a - p.fontBase]?).getD (Config.memInit a)

/-- `MemRead(a, 1)` (R42): the byte inside memory, 0 outside it. The font table is built in (R40). -/
def Memory.read (p : Config.Params) (m : Memory) (a : Nat) : Byte :=
  if a < p.memCapacity then
    if p.inFont a then fontByte p a
    else
      match cellLookup m.cells a with
      | some v => v
      | none => (m.unlisted p a).getD (Config.memInit a)
  else 0#8

/-- `MemWrite(a, 1, v)` (R43), for an address that passed `CheckStore`. Writing what the address reads as unlisted
removes its cell. -/
def Memory.write (p : Config.Params) (m : Memory) (a : Nat) (v : Byte) : Memory :=
  if m.unlisted p a = some v then { m with cells := cellErase m.cells a }
  else { m with cells := cellInsert m.cells a v }

/-- Bytes written at `a`, `a + 1`, … in this order (R50, R105, R106). -/
def Memory.writeBytes (p : Config.Params) (m : Memory) : Nat → List Byte → Memory
  | _, [] => m
  | a, v :: vs => Memory.writeBytes p (m.write p a v) (a + 1) vs

/-- `MemRead(a, 1)` in a state. -/
def State.memRead (s : State) (a : Nat) : Byte := s.mem.read s.params a

/-- `read(addr)` with the `OutOfBounds` signal it returns beside the byte (R42); no instruction looks at the signal
(decision D40). -/
def State.memReadSignalled (s : State) (a : Nat) : Byte × Bool := (s.memRead a, decide (s.params.memCapacity ≤ a))

/-- `n` bytes read from address `a` up (44_display R109 "read `n` bytes starting at `I`"). -/
def State.readBytes (s : State) : Nat → Nat → List Byte
  | _, 0 => []
  | a, n + 1 => s.memRead a :: State.readBytes s (a + 1) n

/-- Bytes stored in a state from address `a` up, where every address has passed its check. -/
def State.storeBytes (s : State) (a : Nat) (bytes : List Byte) : State :=
  { s with mem := s.mem.writeBytes s.params a bytes }

/-- `CheckStore(a)` (R43): the fault a store at `a` raises, if any (decisions D4, D5). -/
def checkStore (p : Config.Params) (a : Nat) : Option FaultKind :=
  if p.memCapacity ≤ a then some (.memWriteOutOfBounds a)
  else if a < p.fontEnd then some (.fontWrite a)
  else none

/-- `CheckStore` on `n` addresses from `a` up, in increasing order: the first failure (R43, 60_exceptions R119). -/
def checkStores (p : Config.Params) (a : Nat) : Nat → Option FaultKind
  | 0 => none
  | n + 1 =>
    match checkStore p a with
    | some k => some k
    | none => checkStores p (a + 1) n

/-- The word fetched at an address (R47): big-endian. -/
def fetchWord (s : State) (a : Nat) : Word := wordOfBytes (s.memRead a) (s.memRead (a + 1))

/-! ### Framebuffer (10_state R25) -/

/-- The cell that coordinates of any size name: they wrap. -/
def wrapCell (p : Config.Params) (x y : Nat) : Nat × Nat := (x % p.fbW, y % p.fbH)

/-- The order in which the framebuffer lists its cells (log 26). -/
def cellBefore (c d : Nat × Nat) : Bool := decide (c.1 < d.1) || (c.1 == d.1 && decide (c.2 < d.2))

/-- The form the framebuffer is kept in: cells of the grid, in rising order. -/
abbrev Framebuffer.wf (p : Config.Params) (fb : Framebuffer) : Prop :=
  fb.Pairwise (fun c d => cellBefore c d = true) ∧ ∀ c ∈ fb, c.1 < p.fbW ∧ c.2 < p.fbH

/-- `FbGet(x, y)`. -/
def fbGet (p : Config.Params) (fb : Framebuffer) (x y : Nat) : Bool := fb.contains (wrapCell p x y)

/-- `FbSetPlain(x, y, b)`; no opcode uses it. -/
def fbSetPlain (p : Config.Params) (fb : Framebuffer) (x y : Nat) (b : Bool) : Framebuffer :=
  if b then insertRising cellBefore fb (wrapCell p x y) else fb.filter (fun c => c ≠ wrapCell p x y)

/-- `FbXor(x, y, b)`. -/
def fbXor (p : Config.Params) (fb : Framebuffer) (x y : Nat) (b : Bool) : Framebuffer :=
  fbSetPlain p fb x y (fbGet p fb x y ^^ b)

/-- The document's `set(x, y, on, xorMode)`. -/
def fbSet (p : Config.Params) (fb : Framebuffer) (x y : Nat) (on xorMode : Bool) : Framebuffer :=
  if xorMode then fbXor p fb x y on else fbSetPlain p fb x y on

/-- `FbClear()`: every cell off. -/
def fbClear : Framebuffer := []

/-- A cell of a state's grid. -/
def State.pixel (s : State) (x y : Nat) : Bool := fbGet s.params s.fb x y

/-! ### Keyboard state (10_state R28) -/

/-- `KeyIsDown(k)`. -/
def State.keyIsDown (s : State) (k : Nat) : Bool := (s.keys[k]?).getD false

/-- `KeyIsUp(k)`. -/
def State.keyIsUp (s : State) (k : Nat) : Bool := !s.keyIsDown k

/-- `keys[k] <- down`, by a host notification (60_exceptions R133). -/
def State.setKey (s : State) (k : Nat) (down : Bool) : State := { s with keys := s.keys.set k down }

/-! ### Timers and the random draw -/

/-- `TimerTick()` (40_cycle R74). -/
def timerTick (s : State) : State :=
  { s with
    dt := if s.dt ≠ 0 then s.dt - 1 else s.dt
    st := if s.st ≠ 0 then s.st - 1 else s.st }

/-- `RandomByte()` (42_alu R101): the next byte the host supplied, or else a free draw (log 5). -/
def randomByte (s : State) : Byte × State :=
  match s.draws with
  | r :: rest => (r, { s with draws := rest })
  | [] => (Config.freeDraw s.drawCount, { s with drawCount := s.drawCount + 1 })

/-! ### Faults (60_exceptions R117) -/

/-- `raise F(info)`: the record is set and the run state becomes `Halted`, nothing else. -/
def raise (k : FaultKind) (addr : Nat) (op : Option Word) (s : State) : State :=
  { s with fault := some { kind := k, addr := addr, op := op }, run := .halted }

/-- `raise` inside an instruction, whose word is `op`. -/
def raiseAt (k : FaultKind) (op : Word) (s : State) : State := raise k s.instrAddr (some op) s

/-- The numeric code of a fault kind (R116, decision D47). -/
def FaultKind.code : FaultKind → Nat
  | .stackOverflow => 1
  | .stackUnderflow => 2
  | .unsupportedOpcode _ => 3
  | .pcOutOfBounds _ => 4
  | .memWriteOutOfBounds _ => 5
  | .fontWrite _ => 6
  | .invalidKey _ => 7

/-- The recorded `info` of a fault kind as a number (R116). -/
def FaultKind.info : FaultKind → Option Nat
  | .stackOverflow => none
  | .stackUnderflow => none
  | .unsupportedOpcode op => some op.toNat
  | .pcOutOfBounds pc => some pc
  | .memWriteOutOfBounds a => some a
  | .fontWrite a => some a
  | .invalidKey k => some k

/-! ### Return stack (10_state R20, R21) -/

/-- `Push(v)` by the instruction whose word is `op`, then the rest of the instruction. -/
def push (v : Word) (op : Word) (s : State) (rest : State → Result) : Result :=
  if s.sp = s.params.stackDepth then .next (raiseAt .stackOverflow op s)
  else if s.sp < s.stack.length then
    rest { s with sp := (s.sp + 1) % 2 ^ s.params.spWidth, stack := s.stack.set s.sp v }
  else .fault .stackEntryMissing

/-- `Pop()` by the instruction whose word is `op`, then the rest of the instruction with the popped value. The entry
is not cleared (decision D46). -/
def pop (op : Word) (s : State) (rest : Word → State → Result) : Result :=
  if s.sp = 0 then .next (raiseAt .stackUnderflow op s)
  else
    match s.stack[s.sp - 1]? with
    | some v => rest v { s with sp := s.sp - 1 }
    | none => .fault .stackEntryMissing

end Sys2Proof.Machine
end

