-- ==== Sys2Proof/Machine/Flags.lean ====
section
/-!
DEFINITION. The flag computations of 42_alu R89 and the write of `VF` (10_state R16): `VF` is the only flag.
-/

namespace Sys2Proof.Machine

/-- A flag as the value written to `VF`: 0 or 1 (10_state R16). -/
def flagValue (b : Bool) : Nat := if b then 1 else 0

/-- Carry out of the top bit of `w` (42_alu R96: `a + b > 255` at 8 bits; log 25). -/
def carryFlag (w a b : Nat) : Bool := decide (2 ^ w ≤ a + b)

/-- The strict comparison `a > b` of the subtractions (R97, R99; decision D13). -/
def greaterFlag (a b : Nat) : Bool := decide (b < a)

/-- The bit a right shift moves out: bit 0 (R98). -/
def lsbFlag (a : Nat) : Bool := a.testBit 0

/-- The bit a left shift moves out: the top bit of `w` (R100: bit 7 at 8 bits, decision D14; log 25). -/
def msbFlag (w a : Nat) : Bool := a.testBit (w - 1)

/-- `a - b` on `w` bits, before it is narrowed (R97 `a + 256 - b` at 8 bits; log 25). -/
def difference (w a b : Nat) : Nat := a + 2 ^ w - b

/-- Write a flag (10_state R16): an ordinary write of `V[0xF]`. -/
def State.setFlag (s : State) (b : Bool) : State := s.setV VF (flagValue b)

/-- Result first, flag second, so that with `x = 0xF` the flag stands (42_alu R89, decision D15). -/
def State.setResult (s : State) (x : Reg) (r : Nat) (flag : Bool) : State := (s.setV x r).setFlag flag

end Sys2Proof.Machine
end

