-- ==== Sys2Proof/Machine/Operands.lean ====
section
/-!
DEFINITION. The operand forms. An immediate `nnn`, `kk` or `n` is the unsigned number of its field, which is its zero
extension to any width (30_encoding R63), so the meanings use its `toNat`. Here are effective addresses (20_memory R44),
the bytes of registers, the registers `V0..Vx` (43_memory_index R106, R107), the key operand (45_keys_timers R110), the
digits of BCD (R105) and the cells of a sprite (44_display R109).
-/

namespace Sys2Proof.Machine

/-- The address in `I` as an unbounded natural number: `I + k` does not wrap (20_memory R44, decision D38). -/
def State.base (s : State) : Nat := s.i

/-- The numbers of the registers `V0..Vx`, in increasing order. -/
def regsUpTo (x : Reg) : List Reg := (List.range (x.toNat + 1)).map (BitVec.ofNat 4)

/-- The byte of a register that a store writes (43_memory_index R106): all of it at the document's `V_WIDTH`, and its
low eight bits where it is wider (log 25). -/
def State.regByte (s : State) (r : Reg) : Byte := BitVec.ofNat 8 (s.getV r)

/-- The bytes of `V0..Vx`, in increasing order. -/
def State.regBytes (s : State) (x : Reg) : List Byte := (regsUpTo x).map s.regByte

/-- `V[k] <- MemRead(b + k, 1)` for each `k` of a list of registers, in order (43_memory_index R107). -/
def loadList (b : Nat) : List Reg → State → State
  | [], s => s
  | k :: ks, s => loadList b ks (s.setV k (s.memRead (b + k.toNat)).toNat)

/-- The hundreds, tens and units of a register, as the bytes stored (43_memory_index R105; log 25). -/
def bcdDigits (v : Nat) : List Byte :=
  [BitVec.ofNat 8 (v / 100), BitVec.ofNat 8 (v / 10 % 10), BitVec.ofNat 8 (v % 10)]

/-- The pixel of a sprite byte in a column: bit 7 is column 0 (R109). PRESUMED by the spec itself (decision D27,
log 19). -/
def spritePixel (b : Byte) (col : Nat) : Bool := b.getLsbD (7 - col)

/-- The cells of one sprite row at height `py` whose pixel is set, in the order of R109; not yet wrapped. -/
def rowCells (px py : Nat) (b : Byte) : List (Nat × Nat) :=
  ((List.range 8).filter (spritePixel b)).map (fun col => (px + col, py))

/-- The cells of a sprite whose pixel is set, row after row (R109). -/
def spriteCells (px : Nat) : Nat → List Byte → List (Nat × Nat)
  | _, [] => []
  | py, b :: rest => rowCells px py b ++ spriteCells px (py + 1) rest

/-- XOR each cell onto the framebuffer in order, noting whether any was on before its XOR (R109). -/
def drawCells (p : Config.Params) : List (Nat × Nat) → Framebuffer × Bool → Framebuffer × Bool
  | [], acc => acc
  | c :: cs, (fb, collision) => drawCells p cs (fbXor p fb c.1 c.2 true, collision || fbGet p fb c.1 c.2)

/-- The skips: one 2-byte word is passed when the condition holds (41_control_flow R84). -/
def State.skipIf (s : State) (c : Bool) : State := if c then s.advance else s

/-- The key operand of `Ex9E` and `ExA1`: `InvalidKey` above the last key, 0xF, else the rest of the instruction with
the key (45_keys_timers R110, decision D22). -/
def withKey (x : Reg) (op : Word) (s : State) (rest : Nat → Result) : Result :=
  if s.params.numKeys ≤ s.getV x then .next (raiseAt (.invalidKey (s.getV x)) op s)
  else rest (s.getV x)

/-- A store by the instruction whose word is `op`: every target is checked in increasing address before any byte is
written (20_memory R43, 43_memory_index R105, R106). -/
def storeAt (a : Nat) (bytes : List Byte) (op : Word) (s : State) : Result :=
  match checkStores s.params a bytes.length with
  | some k => .next (raiseAt k op s)
  | none => .next (s.storeBytes a bytes)

end Sys2Proof.Machine
end

