-- ==== Sys2Proof/Machine/Alu.lean ====
section
/-!
DEFINITION. The ALU (42_alu R89 to R101): immediate loads, register arithmetic and logic, the random byte. Operands are
read before any write (00_scope R11), results are exact and the write narrows them to the register (R9, R89).
-/

namespace Sys2Proof.Machine

/-- `6xkk` LD Vx, kk (R90). -/
def execLdByte (x : Reg) (kk : Byte) (s : State) : Result := .next (s.setV x kk.toNat)

/-- `7xkk` ADD Vx, kk (R91): no flag. -/
def execAddByte (x : Reg) (kk : Byte) (s : State) : Result := .next (s.setV x (s.getV x + kk.toNat))

/-- `8xy0` LD Vx, Vy (R92). -/
def execLdReg (x y : Reg) (s : State) : Result := .next (s.setV x (s.getV y))

/-- `8xy1` OR Vx, Vy (R93, decision D16). -/
def execOrReg (x y : Reg) (s : State) : Result := .next (s.setV x (s.getV x ||| s.getV y))

/-- `8xy2` AND Vx, Vy (R94, decision D16). -/
def execAndReg (x y : Reg) (s : State) : Result := .next (s.setV x (s.getV x &&& s.getV y))

/-- `8xy3` XOR Vx, Vy (R95, decision D16). -/
def execXorReg (x y : Reg) (s : State) : Result := .next (s.setV x (s.getV x ^^^ s.getV y))

/-- `8xy4` ADD Vx, Vy (R96). -/
def execAddReg (x y : Reg) (s : State) : Result :=
  .next (s.setResult x (s.getV x + s.getV y) (carryFlag s.params.vWidth (s.getV x) (s.getV y)))

/-- `8xy5` SUB Vx, Vy (R97). -/
def execSubReg (x y : Reg) (s : State) : Result :=
  .next (s.setResult x (difference s.params.vWidth (s.getV x) (s.getV y)) (greaterFlag (s.getV x) (s.getV y)))

/-- `8xy6` SHR Vx (R98): `y` is unused (decision D12). -/
def execShr (x _y : Reg) (s : State) : Result := .next (s.setResult x (s.getV x >>> 1) (lsbFlag (s.getV x)))

/-- `8xy7` SUBN Vx, Vy (R99, decision D13). -/
def execSubnReg (x y : Reg) (s : State) : Result :=
  .next (s.setResult x (difference s.params.vWidth (s.getV y) (s.getV x)) (greaterFlag (s.getV y) (s.getV x)))

/-- `8xyE` SHL Vx (R100, decision D14): `y` is unused (decision D12). -/
def execShl (x _y : Reg) (s : State) : Result :=
  .next (s.setResult x (s.getV x <<< 1) (msbFlag s.params.vWidth (s.getV x)))

/-- `Cxkk` RND Vx, kk (R101). -/
def execRnd (x : Reg) (kk : Byte) (s : State) : Result :=
  .next ((randomByte s).2.setV x ((randomByte s).1 &&& kk).toNat)

end Sys2Proof.Machine
end

