-- ==== Sys2Proof/Machine/Control.lean ====
section
/-!
DEFINITION. Control transfer (41_control_flow R81 to R88): return, jump, call, skips. On entry `PC = addr + 2`.
-/

namespace Sys2Proof.Machine

/-- `00EE` RET (R81). -/
def execRet (s : State) : Result := pop (encode .ret) s fun v s' => .next (s'.setPC v.toNat)

/-- `1nnn` JP nnn (R82). -/
def execJp (nnn : Addr12) (s : State) : Result := .next (s.setPC nnn.toNat)

/-- `2nnn` CALL nnn (R83). -/
def execCall (nnn : Addr12) (s : State) : Result :=
  push (BitVec.ofNat 16 s.pc) (encode (.call nnn)) s fun s' => .next (s'.setPC nnn.toNat)

/-- `3xkk` SE Vx, kk (R84). -/
def execSeByte (x : Reg) (kk : Byte) (s : State) : Result := .next (s.skipIf (decide (s.getV x = kk.toNat)))

/-- `4xkk` SNE Vx, kk (R85). -/
def execSneByte (x : Reg) (kk : Byte) (s : State) : Result := .next (s.skipIf (decide (s.getV x ≠ kk.toNat)))

/-- `5xy0` SE Vx, Vy (R86). -/
def execSeReg (x y : Reg) (s : State) : Result := .next (s.skipIf (decide (s.getV x = s.getV y)))

/-- `9xy0` SNE Vx, Vy (R87). -/
def execSneReg (x y : Reg) (s : State) : Result := .next (s.skipIf (decide (s.getV x ≠ s.getV y)))

/-- `Bnnn` JP V0, nnn (R88, decision D18). -/
def execJpV0 (nnn : Addr12) (s : State) : Result := .next (s.setPC (nnn.toNat + s.getV V0))

end Sys2Proof.Machine
end

