-- ==== Sys2Proof/Machine/Display.lean ====
section
/-!
DEFINITION. The display instructions (44_display R108, R109).
-/

namespace Sys2Proof.Machine

/-- `00E0` CLS (R108). -/
def execCls (s : State) : Result := .next { s with fb := fbClear }

/-- What `Dxyn` makes of the framebuffer, with the collision: `Vx`, `Vy` and `I` are read before `VF` is reset
(R109, decision D28). -/
def drawSprite (x y : Reg) (n : Nibble) (s : State) : Framebuffer × Bool :=
  drawCells s.params (spriteCells (s.getV x) (s.getV y) (s.readBytes s.base n.toNat)) (s.fb, false)

/-- `Dxyn` DRW Vx, Vy, n (R109): `VF` is reset, the sprite drawn, and `VF` set to the collision. -/
def execDrw (x y : Reg) (n : Nibble) (s : State) : Result :=
  .next (({ s.setFlag false with fb := (drawSprite x y n s).1 } : State).setFlag (drawSprite x y n s).2)

end Sys2Proof.Machine
end

