-- ==== Sys2Proof/Machine/Index.lean ====
section
/-!
DEFINITION. The index register and memory loads and stores (43_memory_index R102 to R107). `I` is never moved by a load
or a store (decision D21).
-/

namespace Sys2Proof.Machine

/-- `Annn` LD I, nnn (R102). -/
def execLdI (nnn : Addr12) (s : State) : Result := .next (s.setI nnn.toNat)

/-- `Fx1E` ADD I, Vx (R103, decision D19): mod `2^I_WIDTH`, `VF` not written. -/
def execAddI (x : Reg) (s : State) : Result := .next (s.setI (s.i + s.getV x))

/-- `Fx29` LD F, Vx (R104, decision D20): no masking of `Vx`. -/
def execLdF (x : Reg) (s : State) : Result := .next (s.setI (5 * s.getV x))

/-- `Fx33` LD B, Vx (R105). -/
def execLdB (x : Reg) (s : State) : Result := storeAt s.base (bcdDigits (s.getV x)) (encode (.ldB x)) s

/-- `Fx55` LD [I], Vx (R106). -/
def execStoreRegs (x : Reg) (s : State) : Result := storeAt s.base (s.regBytes x) (encode (.storeRegs x)) s

/-- `Fx65` LD Vx, [I] (R107). -/
def execLoadRegs (x : Reg) (s : State) : Result := .next (loadList s.base (regsUpTo x) s)

end Sys2Proof.Machine
end

