-- ==== Sys2Proof/Machine/Keys.lean ====
section
/-!
DEFINITION. Key tests, the key wait and timer access (45_keys_timers R110 to R115). The countdown that follows the
instruction in the same cycle is Machine/Cycle.lean's.
-/

namespace Sys2Proof.Machine

/-- `Ex9E` SKP Vx (R110). -/
def execSkp (x : Reg) (s : State) : Result :=
  withKey x (encode (.skp x)) s fun k => .next (s.skipIf (s.keyIsDown k))

/-- `ExA1` SKNP Vx (R111). -/
def execSknp (x : Reg) (s : State) : Result :=
  withKey x (encode (.sknp x)) s fun k => .next (s.skipIf (s.keyIsUp k))

/-- `Fx07` LD Vx, DT (R112). -/
def execLdVxDt (x : Reg) (s : State) : Result := .next (s.setV x s.dt)

/-- `Fx0A` LD Vx, K, in the cycle (R113): the wait begins. -/
def execLdVxK (x : Reg) (s : State) : Result :=
  .next { s with waitReg := x, waitAddr := s.instrAddr, run := .awaitingKeypress }

/-- The completion of `Fx0A` by a key-down of key `k` (R113): the key is loaded, cycles run again, and the suspended
cycle's countdown happens. -/
def completeKeyWait (k : Nat) (s : State) : State :=
  timerTick { s.setV s.waitReg k with run := .running }

/-- `Fx15` LD DT, Vx (R114). -/
def execLdDt (x : Reg) (s : State) : Result := .next (s.setDT (s.getV x))

/-- `Fx18` LD ST, Vx (R115). -/
def execLdSt (x : Reg) (s : State) : Result := .next (s.setST (s.getV x))

end Sys2Proof.Machine
end

