-- ==== Sys2Proof/Machine/HostOps.lean ====
section
/-!
DEFINITION. The host operations (60_exceptions R134): each takes effect whole, between two cycles, and gives back an
answer (R137). A failed operation changes no state (20_memory R51, 60_exceptions R124, R125).
-/

namespace Sys2Proof.Machine

/-! ### Program and run control -/

/-- `load(offset, bytes)` (20_memory R50; decisions D6, D44). -/
def hostLoad (offset : Nat) (bytes : List Byte) (s : State) : State × HostReply :=
  if s.params.memCapacity < offset + bytes.length then (s, .failed .capacityExceeded)
  else if 0 < bytes.length ∧ offset < s.params.fontEnd then (s, .failed .fontOverlap)
  else (s.storeBytes offset bytes, .ok)

/-- `run()` (40_cycle R67; decisions D10, D11). -/
def hostRun (s : State) : State × HostReply :=
  if s.fault ≠ none then (s, .failed .faultRecorded)
  else
    match s.run with
    | .stopped => ({ s with run := .running }, .ok)
    | .halted => ({ s with run := .running }, .ok)
    | .running => (s, .ok)
    | .awaitingKeypress => (s, .ok)

/-- `stop()` (R68; decision D24): a pending `Fx0A` is abandoned and will be executed again. -/
def hostStop (s : State) : State × HostReply :=
  ({ s with
    pc := if s.run = .awaitingKeypress then s.waitAddr else s.pc
    run := .stopped }, .ok)

/-- Memory after `reset()` under a value of `RESET_MEMORY` (70_reset_and_hazards R143, decision D30). -/
def resetMemory (p : Config.ResetMemory) (m : Memory) : Memory :=
  match p with
  | .keep => m
  | .clear => { base := .cleared, cells := [] }

/-- `reset()` (R141, 10_state R35): breakpoints and keyboard state are kept (decisions D29, D31), and so are the
parameters and the host's own fields, which are no state of the core. -/
def hostReset (s : State) : State × HostReply :=
  ({ State.initial s.params with
    keys := s.keys
    lastKey := s.lastKey
    breakpoints := s.breakpoints
    mem := resetMemory Config.resetMemory s.mem
    draws := s.draws
    drawCount := s.drawCount
    agenda := s.agenda
    reply := s.reply }, .ok)

/-! ### Debug surface (60_exceptions R127 to R130) -/

/-- The registers `setRegister` accepts (R127). -/
inductive RegName where
  | v (x : Reg)
  | i
  | pc
  | dt
  | st
  deriving DecidableEq, Repr

/-- The value of a hexadecimal digit, capitals only. -/
def hexDigit (c : Char) : Option Reg :=
  if '0'.toNat ≤ c.toNat ∧ c.toNat ≤ '9'.toNat then some (BitVec.ofNat 4 (c.toNat - '0'.toNat))
  else if 'A'.toNat ≤ c.toNat ∧ c.toNat ≤ 'F'.toNat then some (BitVec.ofNat 4 (10 + (c.toNat - 'A'.toNat)))
  else none

/-- The register a name in capitals stands for (R127). -/
def registerNamed (name : List Char) : Option RegName :=
  if name = ['I'] then some .i
  else if name = ['P', 'C'] then some .pc
  else if name = ['D', 'T'] then some .dt
  else if name = ['S', 'T'] then some .st
  else
    match name with
    | [letter, digit] => if letter = 'V' then (hexDigit digit).map RegName.v else none
    | _ => none

/-- The register a name stands for, in either case of its letters (R127, decision D32; log 13). -/
def parseRegister (name : List Char) : Option RegName := registerNamed (name.map Char.toUpper)

/-- The width of a register in bits (R127). -/
def RegName.width (p : Config.Params) : RegName → Nat
  | .v _ => p.vWidth
  | .i => p.iWidth
  | .pc => p.pcWidth
  | .dt => p.timerWidth
  | .st => p.timerWidth

/-- The machine has the register: a general register is one of its `NUM_V` (R127 "a general-purpose index outside"). -/
def RegName.present (p : Config.Params) : RegName → Bool
  | .v x => decide (x.toNat < p.numV)
  | .i => true
  | .pc => true
  | .dt => true
  | .st => true

/-- Write a register from the debug surface. -/
def writeRegister (r : RegName) (value : Nat) (s : State) : State :=
  match r with
  | .v x => s.setV x value
  | .i => s.setI value
  | .pc => s.setPC value
  | .dt => s.setDT value
  | .st => s.setST value

/-- `setRegister(name, value)` (R127; decision D32). -/
def hostSetRegister (name : List Char) (value : Nat) (s : State) : State × HostReply :=
  match parseRegister name with
  | none => (s, .failed .unknownRegister)
  | some r =>
    if r.present s.params = false then (s, .failed .unknownRegister)
    else if value < 2 ^ r.width s.params then (writeRegister r value s, .ok)
    else (s, .failed .valueTooWide)

/-- The snapshot of `getRegisters()` (R128). -/
def snapshot (s : State) : RegisterSnapshot :=
  { v := s.v, i := s.i, pc := s.pc, sp := s.sp, dt := s.dt, st := s.st }

/-- `getRegisters()` (R128). -/
def hostGetRegisters (s : State) : State × HostReply := (s, .registers (snapshot s))

/-- The order in which the breakpoint set lists its addresses (log 14). -/
def addrBefore (a b : Nat) : Bool := decide (a < b)

/-- An address added to the breakpoint set. -/
def insertBreakpoint (l : List Nat) (a : Nat) : List Nat := insertRising addrBefore l a

/-- `setBreakpoint(addr)` (R129; decision D42). -/
def hostSetBreakpoint (addr : Word) (s : State) : State × HostReply :=
  ({ s with breakpoints := insertBreakpoint s.breakpoints addr.toNat }, .ok)

/-- Membership in the breakpoint set (10_state R32). -/
def State.isBreakpoint (s : State) (addr : Nat) : Bool := s.breakpoints.contains addr

/-- `hasBreakpoint(addr)` (R129). -/
def hostHasBreakpoint (addr : Word) (s : State) : State × HostReply := (s, .found (s.isBreakpoint addr.toNat))

/-- `readMemory(addr)` (R130). -/
def hostReadMemory (addr : Nat) (s : State) : State × HostReply := (s, .byte (s.memRead addr))

/-! ### Keys (R133) -/

/-- `setDown(k)` (R133): in `AwaitingKeypress` it also completes the pending `Fx0A` (decision D23). -/
def hostSetDown (k : Nat) (s : State) : State × HostReply :=
  if s.params.numKeys ≤ k then (s, .failed .invalidKey)
  else
    let pressed := { s.setKey k true with lastKey := some k }
    (if s.run = .awaitingKeypress then completeKeyWait k pressed else pressed, .ok)

/-- `setUp(k)` (R133). -/
def hostSetUp (k : Nat) (s : State) : State × HostReply :=
  if s.params.numKeys ≤ k then (s, .failed .invalidKey) else (s.setKey k false, .ok)

/-! ### Outputs (R131, R132, R136) -/

/-- The renderer's snapshot (R131). -/
def hostReadFramebuffer (s : State) : State × HostReply := (s, .framebuffer s.fb)

/-- The audio backend's poll (R132). -/
def hostReadSoundTimer (s : State) : State × HostReply := (s, .number s.st)

/-- The run state and the fault record (R136). -/
def hostReadStatus (s : State) : State × HostReply := (s, .status s.run s.fault)

/-- One host operation: the state it leaves and what it gives back. -/
def hostOperation (r : HostRequest) (s : State) : State × HostReply :=
  match r with
  | .load offset bytes => hostLoad offset bytes s
  | .run => hostRun s
  | .stop => hostStop s
  | .reset => hostReset s
  | .setRegister name value => hostSetRegister name value s
  | .getRegisters => hostGetRegisters s
  | .setBreakpoint addr => hostSetBreakpoint addr s
  | .hasBreakpoint addr => hostHasBreakpoint addr s
  | .readMemory addr => hostReadMemory addr s
  | .setDown k => hostSetDown k s
  | .setUp k => hostSetUp k s
  | .readFramebuffer => hostReadFramebuffer s
  | .readSoundTimer => hostReadSoundTimer s
  | .readStatus => hostReadStatus s

/-- Serve a host request: the operation's effect, with its answer left where the host reads it (log 6). -/
def serve (r : HostRequest) (s : State) : State :=
  { (hostOperation r s).1 with reply := some (hostOperation r s).2 }

end Sys2Proof.Machine
end

