-- ==== Sys2Proof/Machine/Cycle.lean ====
section
/-!
DEFINITION. The execution cycle (40_cycle R70 to R76), what moves when (60_exceptions R134), and how the host's checks
place an instruction for the next fetch (log 7).
-/

namespace Sys2Proof.Machine

/-- The end of a cycle (R75): the countdown runs exactly when the instruction completed, that is when the core is still
`Running`; `Fx0A` has left it for `AwaitingKeypress`, a fault for `Halted`. -/
def finishCycle : Result → Result
  | .next t => .next (if t.run = .running then timerTick t else t)
  | .fault r => .fault r
  | .refused r => .refused r

/-- Decode and execute (R73) the word `op`, with `PC` already advanced. -/
def executeWord (op : Word) (s : State) : Result :=
  match decodeWord op with
  | .error _ => .next (raiseAt (.unsupportedOpcode op) op s)
  | .ok i => exec i s

/-- One cycle (R76), enabled only in `Running`. -/
def cycle (s : State) : Result :=
  if s.isBreakpoint s.pc then .next { s with run := .halted }
  else if s.params.memCapacity ≤ s.pc + 1 then .next (raise (.pcOutOfBounds s.pc) s.pc none s)
  else finishCycle (executeWord (fetchWord s s.pc) s.advance)

/-- The core's move: a cycle while `Running`, and nothing in any other run state (R70, R77, R78; log 9). -/
def coreMove (s : State) : Result := if s.run = .running then cycle s else .next s

/-- The next move: the first action of the host's agenda, or with an empty agenda the core's (log 6). -/
def nextMove (s : State) : Result :=
  match s.agenda with
  | .request r :: rest => .next (serve r { s with agenda := rest })
  | .cycle :: rest => coreMove { s with agenda := rest }
  | [] => coreMove s

/-- Where an arbitrary word can be placed for the next fetch: at `PC` where both bytes are memory past the font, and
else at `PROGRAM_START` (log 7). -/
def fetchHome (s : State) : Nat :=
  if s.params.fontEnd ≤ s.pc ∧ s.pc + 1 < s.params.memCapacity then s.pc
  else s.params.programStart % 2 ^ s.params.pcWidth

/-- The state in which the very next move fetches and runs the word `op` (log 7): the word in memory where `PC` stands,
no breakpoint there, the core `Running`, and no host action before the cycle. -/
def placeWord (op : Word) (s : State) : State :=
  let home := fetchHome s
  { s.storeBytes home (bytesOfWord op) with
    pc := home
    run := .running
    breakpoints := s.breakpoints.filter (· ≠ home)
    agenda := [] }

end Sys2Proof.Machine
end

