-- ==== Sys2Proof/Machine/Step.lean ====
section
/-!
DEFINITION. The step of the machine, and the placing of a table word for its next fetch (log 7).
-/

namespace Sys2Proof.Machine

/-- One step: the host's next action, or else the core's move (log 6). -/
def step (s : State) : Host.Outcome State Fault Refusal := nextMove s

/-- The table's word placed so that the very next step fetches and runs it (log 7). -/
def State.withFetchWord (s : State) (nbits w : Nat) : State := placeWord (tableWord nbits w) s

end Sys2Proof.Machine
end

