-- ==== Sys2Proof/Safety.lean ====
section
/-!
DEFINITION. The terms in which claims speak: the invariant of reachable states, how a run is launched and how it ends
(70_reset_and_hazards R152), what an instruction leaves unchanged, and where a sprite has its pixels (44_display R109).
-/

namespace Sys2Proof.Machine

/-! ### The invariant -/

/-- The state has the shape its parameters give it (00_scope R7): they fit together, each register holds a value of its
width (10_state R15, R17, R18, R23, R30), and the register file, the stack and the keyboard have their entries (R15,
R22, R26). Every state a run reaches is so: it is a part of the invariant. -/
structure State.Fits (s : State) : Prop where
  valid : s.params.Valid
  vCount : s.v.length = s.params.numV
  v : ∀ n ∈ s.v, n < 2 ^ s.params.vWidth
  i : s.i < 2 ^ s.params.iWidth
  pc : s.pc < 2 ^ s.params.pcWidth
  dt : s.dt < 2 ^ s.params.timerWidth
  st : s.st < 2 ^ s.params.timerWidth
  waitAddr : s.waitAddr < 2 ^ s.params.pcWidth
  stack : s.stack.length = s.params.stackDepth
  keys : s.keys.length = s.params.numKeys
  lastKey : ∀ k, s.lastKey = some k → k < s.params.numKeys

/-- What holds in every state a run reaches: the state has the shape its parameters give it, memory and framebuffer keep
their form (20_memory R38, R40, 10_state R24), `SP` counts the occupied entries of the stack (R19), while a fault is
recorded no cycle and no key wait goes on (60_exceptions R117, R118), and the breakpoints are held by strictly rising
address (log 14). -/
structure State.Inv (s : State) : Prop where
  fits : s.Fits
  mem : s.mem.wf s.params
  fb : Framebuffer.wf s.params s.fb
  sp : s.sp ≤ s.params.stackDepth
  fault : s.fault ≠ none → s.run = .halted ∨ s.run = .stopped
  breakpoints : s.breakpoints.Pairwise (fun a b => addrBefore a b = true)

/-! ### Runs -/

/-- A launch (R152): `reset()`, a `load` at `PROGRAM_START`, breakpoints, `run()`. `none` when the load fails. -/
def launch (image : List Byte) (breakpoints : List Word) (s : State) : Option State :=
  match hostLoad s.params.programStart image (hostReset s).1 with
  | (loaded, .ok) => some (hostRun (breakpoints.foldl (fun u a => (hostSetBreakpoint a u).1) loaded)).1
  | _ => none

/-- A run has ended well (R152): halted at a breakpoint, no fault recorded. -/
def EndedWell (s : State) : Prop := s.run = .halted ∧ s.fault = none

/-- A run has ended badly (R152): halted with a fault recorded. -/
def EndedBadly (s : State) : Prop := s.run = .halted ∧ s.fault ≠ none

/-! ### What the next step does -/

/-- The host's next action is the request `r`, and `rest` comes after it. -/
def Asks (s : State) (r : HostRequest) (rest : List HostEvent) : Prop := s.agenda = .request r :: rest

/-- The host asks for nothing first: the agenda is empty or drives a cycle. -/
def AsksNothing (s : State) : Prop := ∀ r rest, ¬Asks s r rest

/-- The next step is a cycle that fetches the word `op`: the core is `Running`, the host asks for nothing first, there
is no breakpoint at `PC`, and both bytes are in memory (40_cycle R70, R71). -/
def Fetches (s : State) (op : Word) : Prop :=
  s.run = .running ∧ AsksNothing s ∧ s.pc ∉ s.breakpoints ∧ s.pc + 1 < s.params.memCapacity ∧
  fetchWord s s.pc = op

/-- The state after a host operation that changes nothing of the core: only the request is gone and its answer is
there. -/
def answered (s : State) (rest : List HostEvent) (reply : HostReply) : State :=
  { s with agenda := rest, reply := some reply }

/-! ### What is left unchanged -/

/-- Every byte of memory reads as before. -/
def SameBytes (s t : State) : Prop := ∀ a, t.memRead a = s.memRead a

/-- Every byte of memory outside the `n` bytes from `a` up reads as before. -/
def SameBytesOutside (s t : State) (a n : Nat) : Prop :=
  ∀ b, b < a ∨ a + n ≤ b → t.memRead b = s.memRead b

/-- Nothing differs but general registers of a list. -/
def OnlyV (rs : List Reg) (s t : State) : Prop :=
  t = { s with v := t.v } ∧ (∀ r, r ∉ rs → t.getV r = s.getV r) ∧ SameBytes s t

/-- Nothing differs but `PC`. -/
def OnlyPC (s t : State) : Prop :=
  t = { s with pc := t.pc } ∧ (∀ r, t.getV r = s.getV r) ∧ SameBytes s t

/-- Nothing differs but `I`. -/
def OnlyI (s t : State) : Prop :=
  t = { s with i := t.i } ∧ (∀ r, t.getV r = s.getV r) ∧ SameBytes s t

/-- Nothing differs but memory, and of memory only the `n` bytes from `a` up. -/
def OnlyMem (a n : Nat) (s t : State) : Prop :=
  t = { s with mem := t.mem } ∧ (∀ r, t.getV r = s.getV r) ∧ SameBytesOutside s t a n

/-- A fault is recorded and the core halted, and nothing else differs (60_exceptions R117). -/
def OnlyFaults (f : FaultRecord) (s t : State) : Prop :=
  t = { s with fault := some f, run := .halted } ∧ (∀ r, t.getV r = s.getV r) ∧ SameBytes s t

/-- A word reads as an instruction, and the instruction is written as that word. -/
def Decodes (op : Word) (i : Instr) : Prop := decodeWord op = .ok i ∧ encode i = op

/-- The registers an instruction writes as its destination (10_state R34). -/
def destinations : Instr → List Reg
  | .ldByte x _ | .addByte x _ | .rnd x _ => [x]
  | .ldReg x _ | .orReg x _ | .andReg x _ | .xorReg x _ => [x]
  | .addReg x _ | .subReg x _ | .shr x _ | .subnReg x _ | .shl x _ => [x]
  | .ldVxDt x => [x]
  | .loadRegs x => regsUpTo x
  | .cls | .ret | .jp _ | .call _ | .seByte _ _ | .sneByte _ _ | .seReg _ _ | .sneReg _ _ => []
  | .ldI _ | .jpV0 _ | .drw _ _ _ | .skp _ | .sknp _ | .ldVxK _ | .ldDt _ | .ldSt _ => []
  | .addI _ | .ldF _ | .ldB _ | .storeRegs _ => []

/-- The six instructions that write `VF` as a flag (10_state R16). -/
def writesFlag : Instr → Bool
  | .addReg _ _ | .subReg _ _ | .shr _ _ | .subnReg _ _ | .shl _ _ | .drw _ _ _ => true
  | .cls | .ret | .jp _ | .call _ | .seByte _ _ | .sneByte _ _ | .seReg _ _ | .sneReg _ _ => false
  | .ldByte _ _ | .addByte _ _ | .ldReg _ _ | .orReg _ _ | .andReg _ _ | .xorReg _ _ | .rnd _ _ => false
  | .ldI _ | .jpV0 _ | .skp _ | .sknp _ | .ldVxDt _ | .ldVxK _ | .ldDt _ | .ldSt _ => false
  | .addI _ | .ldF _ | .ldB _ | .storeRegs _ | .loadRegs _ => false

/-- The sixteen hexadecimal digits, in the order of their values (60_exceptions R127: the register names `V0`..`VF`). -/
def hexDigits : List Char := ['0', '1', '2', '3', '4', '5', '6', '7', '8', '9', 'A', 'B', 'C', 'D', 'E', 'F']

/-! ### Sprites -/

/-- A set pixel of the sprite that `Dxyn` reads falls on the cell `(cx, cy)` (R109): some row and column whose bit is
set, with the coordinates wrapped. -/
def SpriteCovers (s : State) (x y : Reg) (n : Nibble) (cx cy : Nat) : Prop :=
  ∃ row col, row < n.toNat ∧ col < 8 ∧ (s.memRead (s.i + row)).getLsbD (7 - col) = true ∧
    cx = (s.getV x + col) % s.params.fbW ∧ cy = (s.getV y + row) % s.params.fbH

end Sys2Proof.Machine
end

