-- ==== Sys2Proof/Certificates/Slice0/Obligations.lean ====
section
/-!
DEFINITION. The statements for the provers, one per OBLIGATIONS.json entry. Each docstring cites the rules of spec/ it
formalises; where a clause rests on a decision the spec marks as its own (D<n> of 92_eei_decisions.md) or on a row of
the assumption log, the docstring says so.
An instruction is executed on a state whose `PC` is already advanced (40_cycle R72), so `s.pc` below is `addr + 2`.
The parameters of 00_scope R7 are those of the state (`s.params`; log 1): a statement about every state holds for every
value of them, and names what it needs of them. The literals that the rules write for the document's values stand as the
parameters they are (log 25): 256 and 255 as `2 ^ vWidth`, bit 7 as the top bit, 2^16 as `2 ^ pcWidth` or `2 ^ iWidth`,
0xF as the last of `numKeys` keys; `Obligations.ConstructionState` states the default of each. A result that a
register of its width must be there to hold is stated of a state that has the shape its parameters give it
(`State.Fits`, a part of the invariant).
-/

open Sys2Proof Sys2Proof.Machine

/-! ### Encoding -/

/-- 30_encoding R58 to R61, 20_memory R47: decoding the word of an instruction gives the instruction back, with every
operand at every value its field admits, and so does decoding its two bytes in front of any others. -/
def Obligations.DecodeOfEncodeIsIdentity : Prop :=
  ∀ (i : Instr) (rest : List Byte),
    decodeWord (encode i) = .ok i ∧ decodeBytes (bytesOfWord (encode i) ++ rest) = .ok (i, rest)

/-- 30_encoding R61: decode is total. A word is either read as an instruction of one row of the table, whose mask and
match it meets and whose encoding it is (so every field is where R58 puts it), or it is unsupported; it meets the mask
and match of a row exactly when it is read as that row's instruction. -/
def Obligations.DecodeFollowsTheOpcodeTable : Prop :=
  ∀ op : Word,
    ((∃ i, decodeWord op = .ok i) ∨ decodeWord op = .error (.unsupportedOpcode op)) ∧
    (∀ i, decodeWord op = .ok i → i.row ∈ opcodeTable ∧ op &&& i.row.mask = i.row.bits ∧ encode i = op) ∧
    (∀ r ∈ opcodeTable, op &&& r.mask = r.bits → ∃ i, decodeWord op = .ok i ∧ i.row = r)

/-- 30_encoding R62 (the table of unsupported words, decision D17): the words that are no instruction. -/
def Obligations.UnsupportedWordsAreTheListedOnes : Prop :=
  ∀ op : Word,
    decodeWord op = .error (.unsupportedOpcode op) ↔
      (fieldTop op = 0x0#4 ∧ op ≠ 0x00E0#16 ∧ op ≠ 0x00EE#16) ∨
      ((fieldTop op = 0x5#4 ∨ fieldTop op = 0x9#4) ∧ fieldN op ≠ 0x0#4) ∨
      (fieldTop op = 0x8#4 ∧ fieldN op ∈ [0x8#4, 0x9#4, 0xA#4, 0xB#4, 0xC#4, 0xD#4, 0xF#4]) ∨
      (fieldTop op = 0xE#4 ∧ fieldKK op ∉ [0x9E#8, 0xA1#8]) ∨
      (fieldTop op = 0xF#4 ∧
        fieldKK op ∉ [0x07#8, 0x0A#8, 0x15#8, 0x18#8, 0x1E#8, 0x29#8, 0x33#8, 0x55#8, 0x65#8])

/-- 30_encoding R58, R60: words written out from the table, at least one of each of the sixteen families, and one word
that is no instruction. -/
def Obligations.WrittenWordsDecode : Prop :=
  decodeWord 0x00E0#16 = .ok .cls ∧
  decodeWord 0x00EE#16 = .ok .ret ∧
  decodeWord 0x1234#16 = .ok (.jp 0x234#12) ∧
  decodeWord 0x2300#16 = .ok (.call 0x300#12) ∧
  decodeWord 0x3342#16 = .ok (.seByte 0x3#4 0x42#8) ∧
  decodeWord 0x4342#16 = .ok (.sneByte 0x3#4 0x42#8) ∧
  decodeWord 0x5120#16 = .ok (.seReg 0x1#4 0x2#4) ∧
  decodeWord 0x6A9D#16 = .ok (.ldByte 0xA#4 0x9D#8) ∧
  decodeWord 0x7F01#16 = .ok (.addByte 0xF#4 0x01#8) ∧
  decodeWord 0x8127#16 = .ok (.subnReg 0x1#4 0x2#4) ∧
  decodeWord 0x8A5E#16 = .ok (.shl 0xA#4 0x5#4) ∧
  decodeWord 0x9120#16 = .ok (.sneReg 0x1#4 0x2#4) ∧
  decodeWord 0xA300#16 = .ok (.ldI 0x300#12) ∧
  decodeWord 0xBF00#16 = .ok (.jpV0 0xF00#12) ∧
  decodeWord 0xC30F#16 = .ok (.rnd 0x3#4 0x0F#8) ∧
  decodeWord 0xD125#16 = .ok (.drw 0x1#4 0x2#4 0x5#4) ∧
  decodeWord 0xE29E#16 = .ok (.skp 0x2#4) ∧
  decodeWord 0xF40A#16 = .ok (.ldVxK 0x4#4) ∧
  decodeWord 0xF133#16 = .ok (.ldB 0x1#4) ∧
  decodeWord 0x5121#16 = .error (.unsupportedOpcode 0x5121#16)

/-! ### Reset and the invariant -/

/-- 70_reset_and_hazards R140, 10_state R35, 00_scope R7 (D1): the state at construction, for every value of the
parameters, and their defaults, at which `State.reset` is constructed: the document's values, but that the timers are 8
bits wide is decision D25 (log 20), since the document gives no timer width. The fault record, the wait fields, the
breakpoints and the keyboard state follow the spec's decisions D10, D24, D29 and D31 (waitReg and waitAddr: log 11);
FONT and MEM_INIT are parameters (D2, D3; log 2, 3). -/
def Obligations.ConstructionState : Prop :=
  (∀ (p : Config.Params) (s : State), s = State.initial p → s.params = p ∧
    s.run = .stopped ∧ (p.Valid → s.pc = p.programStart) ∧ s.i = 0 ∧ s.sp = 0 ∧
    s.v.length = p.numV ∧ (∀ r : Reg, r.toNat < p.numV → s.getV r = 0) ∧ s.dt = 0 ∧ s.st = 0 ∧
    s.stack.length = p.stackDepth ∧ (∀ v ∈ s.stack, v = 0#16) ∧
    (∀ x y, s.pixel x y = false) ∧
    s.fault = none ∧ s.waitReg = 0#4 ∧ s.waitAddr = 0 ∧
    s.breakpoints = [] ∧ s.keys.length = p.numKeys ∧ (∀ k, s.keyIsUp k = true) ∧ s.lastKey = none ∧
    (∀ a b, p.inFont a → a < p.memCapacity → p.font[a - p.fontBase]? = some b → s.memRead a = b) ∧
    (∀ a, p.fontEnd ≤ a → a < p.memCapacity → s.memRead a = Config.memInit a)) ∧
  State.reset = State.initial documentParams ∧ State.reset.pc = 0x0200 ∧
  documentParams.numV = 16 ∧ documentParams.vWidth = 8 ∧ documentParams.iWidth = 16 ∧ documentParams.pcWidth = 16 ∧
  documentParams.spWidth = 8 ∧ documentParams.timerWidth = 8 ∧ documentParams.numKeys = 16 ∧
  documentParams.stackDepth = 16 ∧ documentParams.memCapacity = 4095 ∧ documentParams.fontBase = 0 ∧
  documentParams.fontEnd = 80 ∧ documentParams.font.length = 80 ∧ documentParams.programStart = 0x200 ∧
  documentParams.fbW = 64 ∧ documentParams.fbH = 32

/-- 70_reset_and_hazards R141 to R143, 10_state R35 (decisions D10, D24, D29, D30, D31; `waitReg` and `waitAddr`: D24
and log 11): what `reset()` leaves from any state, and what it keeps, the parameters among it (log 1). -/
def Obligations.HostResetLeavesTheResetState : Prop :=
  ∀ (s : State) (rest : List HostEvent), Asks s .reset rest → ∃ t, step s = .next t ∧ t.params = s.params ∧
    t.run = .stopped ∧ (s.params.Valid → t.pc = s.params.programStart) ∧ t.i = 0 ∧ t.sp = 0 ∧
    t.v.length = s.params.numV ∧ (∀ r : Reg, r.toNat < s.params.numV → t.getV r = 0) ∧ t.dt = 0 ∧ t.st = 0 ∧
    t.stack.length = s.params.stackDepth ∧ (∀ v ∈ t.stack, v = 0#16) ∧ (∀ x y, t.pixel x y = false) ∧
    t.fault = none ∧ t.waitReg = 0#4 ∧ t.waitAddr = 0 ∧
    t.breakpoints = s.breakpoints ∧ t.keys = s.keys ∧ t.lastKey = s.lastKey ∧
    (Config.resetMemory = .keep → SameBytes s t) ∧
    (Config.resetMemory = .clear →
      ∀ a, (s.params.inFont a → t.memRead a = s.memRead a) ∧ (s.params.fontEnd ≤ a → t.memRead a = 0#8))

/-- The state at construction meets the invariant, at the document's parameters and at any others that fit together. -/
def Obligations.ResetMeetsTheInvariant : Prop :=
  State.reset.Inv ∧ ∀ p : Config.Params, p.Valid → (State.initial p).Inv

/-- 20_memory R38, R40, 10_state R19, R22, R24, 60_exceptions R117, R118 (decisions D5, D6, D8, D10): every step keeps
the invariant: parameters that fit together, each register a value of its width, `NUM_V` registers, `STACK_DEPTH` stack
entries and `SP` at most that, `NUM_KEYS` keys, memory in canonical form with the font out of it, the framebuffer's
cells in the grid, no cycle or key wait while a fault is recorded, breakpoints in order. No step, from any state,
changes the parameters the machine was built with (00_scope R7; log 1). -/
def Obligations.StepKeepsTheInvariant : Prop :=
  ∀ s t : State, step s = .next t → t.params = s.params ∧ (s.Inv → t.Inv)

/-- 40_cycle R80, 60_exceptions R117, R121: from every state that meets the invariant the machine goes on: no
instruction, no host operation and no fault of the core stops the model. -/
def Obligations.InvariantStatesHaveANextState : Prop := ∀ s : State, s.Inv → ∃ t, step s = .next t

/-- 20_memory R40 (with decisions D5, D6 and R143): no step changes a byte of the font table, and its bytes are those of
the parameter FONT (R41). -/
def Obligations.FontTableNeverChanges : Prop :=
  ∀ s t : State, step s = .next t → ∀ a, s.params.inFont a → a < s.params.memCapacity →
    t.memRead a = s.memRead a ∧ ∀ b, s.params.font[a - s.params.fontBase]? = some b → t.memRead a = b

/-! ### Memory -/

/-- 20_memory R42, R43, R53: a byte reads as it was last written, every other byte as before, and out of range as 0;
a write keeps the canonical form. -/
def Obligations.MemoryReadsWhatWasWritten : Prop :=
  ∀ (p : Config.Params) (m : Memory) (a b : Nat) (v : Byte),
    (p.fontEnd ≤ a → a < p.memCapacity →
      (m.write p a v).read p b = (if b = a then v else m.read p b) ∧ (m.wf p → (m.write p a v).wf p)) ∧
    (p.memCapacity ≤ b → m.read p b = 0#8)

/-- 20_memory R47: the fetched word is big-endian, and a word stored as an image stores it is the word fetched. -/
def Obligations.FetchIsBigEndian : Prop :=
  ∀ (s : State) (a : Nat),
    (fetchWord s a).toNat = (s.memRead a).toNat * 256 + (s.memRead (a + 1)).toNat ∧
    ∀ op : Word, s.params.fontEnd ≤ a → a + 1 < s.params.memCapacity →
      fetchWord (s.storeBytes a (bytesOfWord op)) a = op

/-! ### The cycle -/

/-- 40_cycle R72, R73, R75, R76: the step runs exactly the instruction the word at `PC` decodes to, on the state with
`PC` advanced by 2 (and the driven cycle taken off the host's agenda, log 6), and then counts the timers down if the
core is still `Running`. Widths and counts other than the document's: R7, log 25. -/
def Obligations.StepRunsTheDecodedInstruction : Prop :=
  ∀ (s : State) (op : Word) (i : Instr), Fetches s op → decodeWord op = .ok i →
    i.WellFormed = true ∧
    step s = match exec i { s with pc := (s.pc + 2) % 2 ^ s.params.pcWidth, agenda := s.agenda.tail } with
      | .next t => .next (if t.run = .running then timerTick t else t)
      | .fault f => .fault f
      | .refused r => .refused r

/-- 40_cycle R70: a cycle is only performed while `Running`; at a breakpoint the core halts before the fetch and nothing
but the run state changes (a driven cycle is taken off the host's agenda, log 6). -/
def Obligations.BreakpointHaltsBeforeTheFetch : Prop :=
  ∀ s : State, AsksNothing s →
    (s.run = .running → s.pc ∈ s.breakpoints →
      step s = .next { s with run := .halted, agenda := s.agenda.tail }) ∧
    (s.run ≠ .running → step s = .next { s with agenda := s.agenda.tail })

/-- 40_cycle R71, R72, R73, 60_exceptions R116, R117, R119 (decisions D7, D9, D17): a fetch with a byte outside memory
faults with no word and `PC` unmoved; an unsupported word faults with `PC` advanced; the timers do not count. The
premise on `PC` says that it holds a value of its width (R18), which the invariant gives. Widths and counts other than
the document's: R7, log 25. -/
def Obligations.FetchAndDecodeFaults : Prop :=
  (∀ s : State, s.run = .running → AsksNothing s → s.pc ∉ s.breakpoints →
    s.params.memCapacity ≤ s.pc + 1 →
    step s = .next { s with
      fault := some ⟨.pcOutOfBounds s.pc, s.pc, none⟩
      run := .halted
      agenda := s.agenda.tail }) ∧
  (∀ (s : State) (op : Word), s.pc < 2 ^ s.params.pcWidth → Fetches s op → supportedWord op = false →
    step s = .next { s with
      pc := (s.pc + 2) % 2 ^ s.params.pcWidth
      fault := some ⟨.unsupportedOpcode op, s.pc, some op⟩
      run := .halted
      agenda := s.agenda.tail })

/-- 40_cycle R74: each timer falls by one when it is not zero and never below, independently of the other; the
countdown comes after the instruction of the same cycle, so a timer that `Fx15` or `Fx18` writes is counted down in the
cycle that writes it. Widths and counts other than the document's: R7, log 25. -/
def Obligations.TimersCountDownAfterTheInstruction : Prop :=
  (∀ s : State, (timerTick s).dt = s.dt - 1 ∧ (timerTick s).st = s.st - 1 ∧
    timerTick s = { s with dt := (timerTick s).dt, st := (timerTick s).st }) ∧
  (∀ (s : State) (x : Reg), Fetches s (encode (.ldDt x)) → ∃ t, step s = .next t ∧
    t.dt = s.getV x % 2 ^ s.params.timerWidth - 1 ∧ t.st = s.st - 1) ∧
  (∀ (s : State) (x : Reg), Fetches s (encode (.ldSt x)) → ∃ t, step s = .next t ∧
    t.st = s.getV x % 2 ^ s.params.timerWidth - 1 ∧ t.dt = s.dt - 1)

/-- 40_cycle R75 (its fault row is decision D9): in a cycle that leaves the core `Running` the instruction completed
and both timers counted once; in one that leaves it in any other run state (a breakpoint, a fault, the start of a key
wait) neither timer moved; and `stop()` does not count. Widths and counts other than the document's: R7, log 25. -/
def Obligations.CountdownRunsExactlyOnCompletion : Prop :=
  (∀ s t : State, s.run = .running → AsksNothing s → step s = .next t →
    (t.run = .running → ∃ i u, decodeWord (fetchWord s s.pc) = .ok i ∧
      exec i { s with pc := (s.pc + 2) % 2 ^ s.params.pcWidth, agenda := s.agenda.tail } = .next u ∧
      t.dt = u.dt - 1 ∧ t.st = u.st - 1) ∧
    (t.run ≠ .running → t.dt = s.dt ∧ t.st = s.st)) ∧
  (∀ (s t : State) (rest : List HostEvent), Asks s .stop rest → step s = .next t → t.dt = s.dt ∧ t.st = s.st)

/-- 40_cycle R69 to R78 (decisions D10, D11): a step changes the run state only as the table of R69 says; and while the
core is not `Running` and the host asks for nothing, the step changes nothing at all (log 9). Widths and counts other
than the document's: R7, log 25. -/
def Obligations.RunStateChangesOnlyAsTabled : Prop :=
  ∀ s t : State, step s = .next t →
    (t.run = s.run ∨
      (∃ rest, Asks s .run rest ∧ s.fault = none ∧ (s.run = .stopped ∨ s.run = .halted) ∧ t.run = .running) ∨
      (∃ rest, (Asks s .stop rest ∨ Asks s .reset rest) ∧ t.run = .stopped) ∨
      (AsksNothing s ∧ s.run = .running ∧ t.run = .halted ∧ (s.pc ∈ s.breakpoints ∨ t.fault ≠ none)) ∨
      (AsksNothing s ∧ s.run = .running ∧ t.run = .awaitingKeypress ∧
        ∃ x, decodeWord (fetchWord s s.pc) = .ok (.ldVxK x)) ∨
      (∃ k rest, Asks s (.setDown k) rest ∧ k < s.params.numKeys ∧ s.run = .awaitingKeypress ∧ t.run = .running)) ∧
    (AsksNothing s → s.run ≠ .running → t = { s with agenda := s.agenda.tail })

/-! ### Faults and whole-machine rules -/

/-- 60_exceptions R116, R117 (decision D9), 10_state R31: faults are precise. When a cycle records a fault, nothing else
happened: every register but `PC`, the stack, memory, the framebuffer and the timers are as before the cycle; the record
names the address the instruction was fetched from and its word; `PC` keeps the advance, but for `PcOutOfBounds`, whose
two-byte test and record are decision D7 (log 17). The driven cycle is taken off the host's agenda (log 6). The premise
on `PC` says that it holds a value of its width (R18), which the invariant gives. Widths and counts other than the
document's: R7, log 25. -/
def Obligations.FaultsArePrecise : Prop :=
  ∀ s t : State, s.pc < 2 ^ s.params.pcWidth → s.run = .running → AsksNothing s → s.fault = none →
    step s = .next t → t.fault ≠ none →
    ∃ f : FaultRecord, t = { s with pc := t.pc, agenda := s.agenda.tail, fault := some f, run := .halted } ∧
      f.addr = s.pc ∧
      ((f.kind = .pcOutOfBounds s.pc ∧ f.op = none ∧ t.pc = s.pc ∧
          s.params.memCapacity ≤ s.pc + 1) ∨
        (f.op = some (fetchWord s s.pc) ∧ t.pc = (s.pc + 2) % 2 ^ s.params.pcWidth ∧
          s.pc + 1 < s.params.memCapacity))

/-- 60_exceptions R118 (decision D10), 40_cycle R67: a recorded fault is kept, and the core does not run, until
`reset()`. -/
def Obligations.RecordedFaultIsKeptUntilReset : Prop :=
  ∀ (s t : State) (f : FaultRecord), s.Inv → s.fault = some f → step s = .next t →
    (∀ rest, ¬Asks s .reset rest) → t.fault = some f ∧ t.run ≠ .running ∧ t.run ≠ .awaitingKeypress

/-- 10_state R32, 60_exceptions R129, 70_reset_and_hazards R142 (decisions D29, D42): a breakpoint set is found, setting
it again changes nothing of the set, no step removes one, and only `setBreakpoint` adds one. -/
def Obligations.BreakpointSetOnlyGrows : Prop :=
  (∀ (s : State) (a : Word) (rest : List HostEvent), Asks s (.setBreakpoint a) rest → ∃ t, step s = .next t ∧
    t = { answered s rest .ok with breakpoints := t.breakpoints } ∧
    (∀ b, b ∈ t.breakpoints ↔ b = a.toNat ∨ b ∈ s.breakpoints) ∧
    (s.Inv → a.toNat ∈ s.breakpoints → t.breakpoints = s.breakpoints)) ∧
  (∀ (s : State) (a : Word) (rest : List HostEvent), Asks s (.hasBreakpoint a) rest →
    step s = .next (answered s rest (.found (decide (a.toNat ∈ s.breakpoints))))) ∧
  (∀ s t : State, step s = .next t → (∀ b, b ∈ s.breakpoints → b ∈ t.breakpoints) ∧
    (∀ b, b ∈ t.breakpoints → b ∈ s.breakpoints ∨
      ∃ (a : Word) (rest : List HostEvent), a.toNat = b ∧ Asks s (.setBreakpoint a) rest))

/-- 10_state R34, R17, R19, R22, R23, R26, 20_memory R45 (R17 with decision D21): what instructions write. Whatever an
instruction's next state is, a register outside its destinations (and outside the flag of the six) is as before; `I`,
`SP`, the timers and the framebuffer change only in the instructions the table lists; of the stack `2nnn` changes at
most entry `SP`; of memory `Fx33` changes at most the three bytes from `I` up and `Fx55` the `x + 1` bytes; the key wait
is noted by `Fx0A` alone, and the model's own supply of draws used by `Cxkk` alone (log 5); the keyboard state, the
breakpoints, the host's side (log 6) and the parameters (log 1) never change. -/
def Obligations.InstructionsWriteOnlyWhatTheTableLists : Prop :=
  ∀ (i : Instr) (s t : State), exec i s = .next t →
    (∀ r, r ∉ destinations i → (writesFlag i = true → r ≠ VF) → t.getV r = s.getV r) ∧
    (t.i ≠ s.i → (∃ nnn, i = .ldI nnn) ∨ (∃ x, i = .addI x) ∨ (∃ x, i = .ldF x)) ∧
    (t.sp ≠ s.sp → i = .ret ∨ ∃ nnn, i = .call nnn) ∧
    t.stack.length = s.stack.length ∧
    (∀ k, t.stack[k]? ≠ s.stack[k]? → k = s.sp ∧ ∃ nnn, i = .call nnn) ∧
    (t.dt ≠ s.dt → ∃ x, i = .ldDt x) ∧
    (t.st ≠ s.st → ∃ x, i = .ldSt x) ∧
    (t.fb ≠ s.fb → i = .cls ∨ ∃ x y n, i = .drw x y n) ∧
    (∀ a, t.memRead a ≠ s.memRead a → s.base ≤ a ∧
      ((∃ x, i = .ldB x ∧ a < s.base + 3) ∨ (∃ x, i = .storeRegs x ∧ a < s.base + (x.toNat + 1)))) ∧
    (t.waitReg ≠ s.waitReg ∨ t.waitAddr ≠ s.waitAddr → ∃ x, i = .ldVxK x) ∧
    (t.draws ≠ s.draws ∨ t.drawCount ≠ s.drawCount → ∃ x kk, i = .rnd x kk) ∧
    t.keys = s.keys ∧ t.lastKey = s.lastKey ∧ t.breakpoints = s.breakpoints ∧
    t.agenda = s.agenda ∧ t.reply = s.reply ∧ t.params = s.params

/-- 10_state R16: `VF` is written as a flag by six instructions and with 0 or 1; any other instruction changes it only
by naming it as its destination. Widths and counts other than the document's: R7, log 25. -/
def Obligations.OnlySixInstructionsWriteTheFlag : Prop :=
  ∀ (i : Instr) (s t : State), exec i s = .next t →
    (s.Fits → writesFlag i = true → t.getV VF = 0 ∨ t.getV VF = 1) ∧
    (writesFlag i = false → VF ∉ destinations i → t.getV VF = s.getV VF) ∧
    (writesFlag i = true ↔ (∃ x y, i = .addReg x y) ∨ (∃ x y, i = .subReg x y) ∨ (∃ x y, i = .shr x y) ∨
      (∃ x y, i = .subnReg x y) ∨ (∃ x y, i = .shl x y) ∨ (∃ x y n, i = .drw x y n))

/-- 10_state R23, R27, R37: no instruction reads `lastKey` or `ST`, nor the host's side of the state: with other values
there every instruction does the same, and leaves those values alone (`Fx18` writes its own `ST`). -/
def Obligations.InstructionsNeverReadLastKeyOrSoundTimer : Prop :=
  ∀ (i : Instr) (s : State) (k : Option Nat) (b : Nat) (ag : List HostEvent) (rp : Option HostReply),
    exec i { s with lastKey := k, st := b, agenda := ag, reply := rp } =
      match exec i s with
      | .next t =>
        .next { t with
          lastKey := k
          st := (match i with
            | .ldSt _ => t.st
            | _ => b)
          agenda := ag
          reply := rp }
      | .fault f => .fault f
      | .refused r => .refused r

/-! ### ALU -/

/-- 42_alu R90, R91, R92: `6xkk`, `7xkk` and `8xy0` complete in every state with the value each names in `Vx` (`VF`
among them, as a destination), the sum mod `2 ^ vWidth`, no flag written and nothing else changed. Widths and counts
other than the document's: R7, log 25. -/
def Obligations.LoadsAndByteAddResults : Prop :=
  ∀ (x y : Reg) (kk : Byte) (s : State),
    Decodes (0x6#4 ++ x ++ kk) (.ldByte x kk) ∧ Decodes (0x7#4 ++ x ++ kk) (.addByte x kk) ∧
    Decodes (0x8#4 ++ x ++ y ++ 0x0#4) (.ldReg x y) ∧
    (∃ t, exec (.ldByte x kk) s = .next t ∧ (s.Fits → t.getV x = kk.toNat) ∧ OnlyV [x] s t) ∧
    (∃ t, exec (.addByte x kk) s = .next t ∧
      (s.Fits → t.getV x = (s.getV x + kk.toNat) % 2 ^ s.params.vWidth) ∧ OnlyV [x] s t) ∧
    (∃ t, exec (.ldReg x y) s = .next t ∧ (s.Fits → t.getV x = s.getV y) ∧ OnlyV [x] s t)

/-- 42_alu R93, R94, R95 (that `VF` is not reset is decision D16): `8xy1`, `8xy2`, `8xy3` complete in every state with
the bitwise result in `Vx` and nothing else changed. Widths and counts other than the document's: R7, log 25. -/
def Obligations.LogicResults : Prop :=
  ∀ (x y : Reg) (s : State),
    Decodes (0x8#4 ++ x ++ y ++ 0x1#4) (.orReg x y) ∧ Decodes (0x8#4 ++ x ++ y ++ 0x2#4) (.andReg x y) ∧
    Decodes (0x8#4 ++ x ++ y ++ 0x3#4) (.xorReg x y) ∧
    (∃ t, exec (.orReg x y) s = .next t ∧ (s.Fits → t.getV x = s.getV x ||| s.getV y) ∧ OnlyV [x] s t) ∧
    (∃ t, exec (.andReg x y) s = .next t ∧ (s.Fits → t.getV x = s.getV x &&& s.getV y) ∧ OnlyV [x] s t) ∧
    (∃ t, exec (.xorReg x y) s = .next t ∧ (s.Fits → t.getV x = s.getV x ^^^ s.getV y) ∧ OnlyV [x] s t)

/-- 42_alu R96, R89 (`x = 0xF`: decision D15): `8xy4` puts the sum mod `2 ^ vWidth` in `Vx` and its carry in `VF`; with
`x = 0xF` the carry stands. Widths and counts other than the document's: R7, log 25. -/
def Obligations.AddWithCarryResult : Prop :=
  ∀ (x y : Reg) (s : State),
    Decodes (0x8#4 ++ x ++ y ++ 0x4#4) (.addReg x y) ∧
    ∃ t, exec (.addReg x y) s = .next t ∧
      (s.Fits → (x ≠ VF → t.getV x = (s.getV x + s.getV y) % 2 ^ s.params.vWidth) ∧
        t.getV VF = if s.getV x + s.getV y > 2 ^ s.params.vWidth - 1 then 1 else 0) ∧
      OnlyV [x, VF] s t

/-- 42_alu R97, R89 (`x = 0xF`: decision D15): `8xy5` puts `Vx - Vy` mod `2 ^ vWidth` in `Vx` and in `VF` whether `Vx >
Vy`, strictly. Widths and counts other than the document's: R7, log 25. -/
def Obligations.SubtractResult : Prop :=
  ∀ (x y : Reg) (s : State),
    Decodes (0x8#4 ++ x ++ y ++ 0x5#4) (.subReg x y) ∧
    ∃ t, exec (.subReg x y) s = .next t ∧
      (s.Fits → (x ≠ VF → t.getV x = (s.getV x + 2 ^ s.params.vWidth - s.getV y) % 2 ^ s.params.vWidth) ∧
        t.getV VF = if s.getV x > s.getV y then 1 else 0) ∧
      OnlyV [x, VF] s t

/-- 42_alu R98 (`Vx` shifted and `y` unused: decision D12; `x = 0xF`: D15): `8xy6` halves `Vx` and puts its old bit 0
in `VF`. Widths and counts other than the document's: R7, log 25. -/
def Obligations.ShiftRightResult : Prop :=
  ∀ (x y : Reg) (s : State),
    Decodes (0x8#4 ++ x ++ y ++ 0x6#4) (.shr x y) ∧
    ∃ t, exec (.shr x y) s = .next t ∧
      (s.Fits → (x ≠ VF → t.getV x = s.getV x / 2) ∧ t.getV VF = s.getV x % 2) ∧
      OnlyV [x, VF] s t

/-- 42_alu R99 (the strict flag: decision D13; `x = 0xF`: D15): `8xy7` puts `Vy - Vx` mod `2 ^ vWidth` in `Vx` and in
`VF` whether `Vy > Vx`, strictly. Widths and counts other than the document's: R7, log 25. -/
def Obligations.SubtractReversedResult : Prop :=
  ∀ (x y : Reg) (s : State),
    Decodes (0x8#4 ++ x ++ y ++ 0x7#4) (.subnReg x y) ∧
    ∃ t, exec (.subnReg x y) s = .next t ∧
      (s.Fits → (x ≠ VF → t.getV x = (s.getV y + 2 ^ s.params.vWidth - s.getV x) % 2 ^ s.params.vWidth) ∧
        t.getV VF = if s.getV y > s.getV x then 1 else 0) ∧
      OnlyV [x, VF] s t

/-- 42_alu R100 (bit 7, the top bit, as the flag: decision D14; `Vx` shifted and `y` unused: D12; `x = 0xF`: D15):
`8xyE` doubles `Vx` mod `2 ^ vWidth` and puts its old top bit in `VF`. Widths and counts other than the document's: R7,
log 25. -/
def Obligations.ShiftLeftResult : Prop :=
  ∀ (x y : Reg) (s : State),
    Decodes (0x8#4 ++ x ++ y ++ 0xE#4) (.shl x y) ∧
    ∃ t, exec (.shl x y) s = .next t ∧
      (s.Fits → (x ≠ VF → t.getV x = s.getV x * 2 % 2 ^ s.params.vWidth) ∧
        t.getV VF = s.getV x / 2 ^ (s.params.vWidth - 1)) ∧
      OnlyV [x, VF] s t

/-- 42_alu R101 (the draw as a free input: decision D26; log 5): `Cxkk` takes one byte, the next the host supplied or
else a free draw, whatever it is, and puts it masked with `kk` in `Vx`; with `kk = 0` the result is 0. Widths and counts
other than the document's: R7, log 25. -/
def Obligations.RandomByteIsMasked : Prop :=
  ∀ (x : Reg) (kk : Byte) (s : State),
    Decodes (0xC#4 ++ x ++ kk) (.rnd x kk) ∧
    ∃ t r, exec (.rnd x kk) s = .next t ∧
      (s.Fits → t.getV x = (r &&& kk).toNat ∧ (kk = 0#8 → t.getV x = 0)) ∧
      (∀ r' rest, s.draws = r' :: rest → r = r' ∧ t.draws = rest ∧ t.drawCount = s.drawCount) ∧
      (s.draws = [] → r = Config.freeDraw s.drawCount ∧ t.draws = [] ∧ t.drawCount = s.drawCount + 1) ∧
      t = { s with v := t.v, draws := t.draws, drawCount := t.drawCount } ∧
      (∀ q, q ≠ x → t.getV q = s.getV q) ∧ SameBytes s t

/-! ### Control transfer -/

/-- 41_control_flow R82: `1nnn` completes in every state with `PC = nnn`, whatever `nnn` is, where `PC` can hold it, and
nothing else changed; with `nnn` at or above `MEM_CAPACITY - 1` the next fetch faults (R71; the record of that fault is
decision D7, log 17); a jump to its own address only lets the timers count (the driven cycle is taken off the host's
agenda, log 6). Widths and counts other than the document's: R7, log 25. -/
def Obligations.JumpTakesTheAddress : Prop :=
  ∀ (nnn : Addr12) (s : State),
    Decodes (0x1#4 ++ nnn) (.jp nnn) ∧
    ∃ t, exec (.jp nnn) s = .next t ∧ OnlyPC s t ∧ t.pc = nnn.toNat % 2 ^ s.params.pcWidth ∧
      (12 ≤ s.params.pcWidth → t.pc = nnn.toNat) ∧
      (s.params.memCapacity ≤ t.pc + 1 → t.run = .running → t.agenda = [] → t.pc ∉ t.breakpoints →
        ∃ u, step t = .next u ∧ u.fault = some ⟨.pcOutOfBounds t.pc, t.pc, none⟩) ∧
      (Fetches s (0x1#4 ++ nnn) → s.pc = nnn.toNat % 2 ^ s.params.pcWidth →
        step s = .next (timerTick { s with agenda := s.agenda.tail }))

/-- 41_control_flow R88 (no 12-bit mask: decision D18): `Bnnn` completes in every state with `PC = nnn + V0`, which a
`PC` of at least 13 bits that is wider than `V0` holds exactly, as the document's does. Widths and counts other than the
document's: R7, log 25. -/
def Obligations.JumpIndexedAddsV0 : Prop :=
  ∀ (nnn : Addr12) (s : State),
    Decodes (0xB#4 ++ nnn) (.jpV0 nnn) ∧
    ∃ t, exec (.jpV0 nnn) s = .next t ∧ t.pc = (nnn.toNat + s.getV V0) % 2 ^ s.params.pcWidth ∧ OnlyPC s t ∧
      (s.Fits → 12 < s.params.pcWidth → s.params.vWidth < s.params.pcWidth → t.pc = nnn.toNat + s.getV V0)

/-- 41_control_flow R83, 10_state R20 (`SP` counts entries 0..STACK_DEPTH: decision D8; `PC` after the fault: D9): below
`STACK_DEPTH` occupied entries `2nnn` pushes the advanced `PC`, which an entry holds whole, and jumps; at `STACK_DEPTH`
it raises `StackOverflow`. Widths and counts other than the document's: R7, log 25. -/
def Obligations.CallPushesOrOverflows : Prop :=
  ∀ (nnn : Addr12) (s : State),
    Decodes (0x2#4 ++ nnn) (.call nnn) ∧
    (s.Fits → s.sp < s.params.stackDepth →
      ∃ t, exec (.call nnn) s = .next t ∧
        t.pc = nnn.toNat ∧ t.sp = s.sp + 1 ∧ t.stack.length = s.stack.length ∧
        (∃ v : Word, v.toNat = s.pc ∧ ∀ k, t.stack[k]? = if k = s.sp then some v else s.stack[k]?) ∧
        t = { s with pc := t.pc, sp := t.sp, stack := t.stack } ∧
        (∀ r, t.getV r = s.getV r) ∧ SameBytes s t) ∧
    (s.sp = s.params.stackDepth → ∃ t, exec (.call nnn) s = .next t ∧
      OnlyFaults ⟨.stackOverflow, s.instrAddr, some (0x2#4 ++ nnn)⟩ s t)

/-- 41_control_flow R81, 10_state R21 (the last entry is number `SP - 1`: decision D8; the entry not cleared: D46; `PC`
after the fault: D9): with occupied entries `00EE` takes `PC` from the last of them and drops it; with none it raises
`StackUnderflow`. Widths and counts other than the document's: R7, log 25. -/
def Obligations.ReturnPopsOrUnderflows : Prop :=
  Decodes 0x00EE#16 .ret ∧
  ∀ s : State,
    (∀ n v, s.sp = n + 1 → s.stack[n]? = some v → ∃ t, exec .ret s = .next t ∧
      t.pc = v.toNat % 2 ^ s.params.pcWidth ∧ (v.toNat < 2 ^ s.params.pcWidth → t.pc = v.toNat) ∧ t.sp = n ∧
      t = { s with pc := t.pc, sp := t.sp } ∧
      (∀ r, t.getV r = s.getV r) ∧ SameBytes s t) ∧
    (s.sp = 0 → ∃ t, exec .ret s = .next t ∧
      OnlyFaults ⟨.stackUnderflow, s.instrAddr, some 0x00EE#16⟩ s t)

/-- 41_control_flow R81, R83 (95_test_vectors S5; a popped entry is not cleared: decision D46): `00EE` after `2nnn`
returns to the instruction after the call, from any state with the call's `SP` that still has the entry the call pushed,
whatever else has changed in between (but the parameters, which no step changes): a body that itself called and returned
among it. Widths and counts other than the document's: R7, log 25. -/
def Obligations.ReturnAfterCallResumes : Prop :=
  ∀ (nnn : Addr12) (s t u : State), s.Fits → s.sp < s.params.stackDepth → exec (.call nnn) s = .next t →
    u.params = s.params → u.sp = t.sp → u.stack[s.sp]? = t.stack[s.sp]? →
    ∃ w, exec .ret u = .next w ∧ w.pc = s.pc ∧ w.sp = s.sp

/-- 10_state R20 (95_test_vectors S6; decision D8): from an empty stack `STACK_DEPTH` calls in a row complete, and the
next one raises `StackOverflow`; at the document's parameters that is 16 calls and the 17th. Widths and counts other
than the document's: R7, log 25. -/
def Obligations.SixteenCallsFitTheStack : Prop :=
  State.reset.params.stackDepth = 16 ∧
  ∀ (nnn : Addr12) (s : State), s.Fits → s.sp = 0 →
    ∃ f : Nat → State, f 0 = s ∧
      (∀ k, k < s.params.stackDepth → exec (.call nnn) (f k) = .next (f (k + 1)) ∧ (f (k + 1)).sp = k + 1 ∧
        (f (k + 1)).fault = s.fault) ∧
      ∃ t r, exec (.call nnn) (f s.params.stackDepth) = .next t ∧ t.fault = some r ∧ r.kind = .stackOverflow ∧
        t.sp = s.params.stackDepth

/-- 41_control_flow R84 to R87 (mod 2^16, `2 ^ pcWidth`: decision D41): the four skips complete in every state, and pass
one 2-byte word exactly when their condition holds. Widths and counts other than the document's: R7, log 25. -/
def Obligations.SkipsPassOneWord : Prop :=
  ∀ (x y : Reg) (kk : Byte) (s : State),
    Decodes (0x3#4 ++ x ++ kk) (.seByte x kk) ∧ Decodes (0x4#4 ++ x ++ kk) (.sneByte x kk) ∧
    Decodes (0x5#4 ++ x ++ y ++ 0x0#4) (.seReg x y) ∧ Decodes (0x9#4 ++ x ++ y ++ 0x0#4) (.sneReg x y) ∧
    (∃ t, exec (.seByte x kk) s = .next t ∧
      t.pc = (if s.getV x = kk.toNat then (s.pc + 2) % 2 ^ s.params.pcWidth else s.pc) ∧ OnlyPC s t) ∧
    (∃ t, exec (.sneByte x kk) s = .next t ∧
      t.pc = (if s.getV x = kk.toNat then s.pc else (s.pc + 2) % 2 ^ s.params.pcWidth) ∧ OnlyPC s t) ∧
    (∃ t, exec (.seReg x y) s = .next t ∧
      t.pc = (if s.getV x = s.getV y then (s.pc + 2) % 2 ^ s.params.pcWidth else s.pc) ∧ OnlyPC s t) ∧
    (∃ t, exec (.sneReg x y) s = .next t ∧
      t.pc = (if s.getV x = s.getV y then s.pc else (s.pc + 2) % 2 ^ s.params.pcWidth) ∧ OnlyPC s t)

/-! ### Index register and memory -/

/-- 43_memory_index R102: `Annn` completes in every state with `I = nnn`, where `I` can hold it, and nothing else
changed. Widths and counts other than the document's: R7, log 25. -/
def Obligations.LoadIndexResult : Prop :=
  ∀ (nnn : Addr12) (s : State),
    Decodes (0xA#4 ++ nnn) (.ldI nnn) ∧
    ∃ t, exec (.ldI nnn) s = .next t ∧ t.i = nnn.toNat % 2 ^ s.params.iWidth ∧
      (12 ≤ s.params.iWidth → t.i = nnn.toNat) ∧ OnlyI s t

/-- 43_memory_index R103 (mod 2^16, `2 ^ iWidth`, no flag: decision D19) and R104 (no masking: decision D20): `Fx1E`
adds `Vx` to `I` and `Fx29` sets `I` to `5 * Vx`, exact in an `I` three bits wider than `Vx`, as the document's is; in
every state, with nothing else changed. Widths and counts other than the document's: R7, log 25. -/
def Obligations.IndexArithmeticResults : Prop :=
  ∀ (x : Reg) (s : State),
    Decodes (0xF#4 ++ x ++ 0x1E#8) (.addI x) ∧ Decodes (0xF#4 ++ x ++ 0x29#8) (.ldF x) ∧
    (∃ t, exec (.addI x) s = .next t ∧ t.i = (s.i + s.getV x) % 2 ^ s.params.iWidth ∧ OnlyI s t) ∧
    (∃ t, exec (.ldF x) s = .next t ∧ t.i = 5 * s.getV x % 2 ^ s.params.iWidth ∧ OnlyI s t ∧
      (s.Fits → s.params.vWidth + 3 ≤ s.params.iWidth → t.i = 5 * s.getV x))

/-- 43_memory_index R105 (the addresses `Fx33` may store to: decisions D4, D5, D38): with its three targets in memory
outside the font, `Fx33` completes with the hundreds, tens and units of `Vx` at `I`, `I + 1`, `I + 2` and nothing else
changed. The hundreds of a three-digit `Vx` are a byte; those of a larger one, which the document's `V_WIDTH` rules out,
are stored mod 256 (log 25). -/
def Obligations.BcdStoresThreeDigits : Prop :=
  ∀ (x : Reg) (s : State),
    Decodes (0xF#4 ++ x ++ 0x33#8) (.ldB x) ∧
    (s.params.fontEnd ≤ s.base → s.base + 3 ≤ s.params.memCapacity → ∃ t, exec (.ldB x) s = .next t ∧
      (s.getV x < 1000 → (t.memRead s.base).toNat = s.getV x / 100) ∧
      (t.memRead s.base).toNat = s.getV x / 100 % 256 ∧
      (t.memRead (s.base + 1)).toNat = s.getV x / 10 % 10 ∧
      (t.memRead (s.base + 2)).toNat = s.getV x % 10 ∧
      OnlyMem s.base 3 s t)

/-- 43_memory_index R106 (the addresses `Fx55` may store to: decisions D4, D5, D38; `I` unchanged: D21): with all its
targets in memory outside the font, `Fx55` completes with `V0..Vx` at `I..I+x` and nothing else changed. The document's
registers are bytes; of wider ones the low eight bits are stored (log 25). -/
def Obligations.RegisterStoreResult : Prop :=
  ∀ (x : Reg) (s : State),
    Decodes (0xF#4 ++ x ++ 0x55#8) (.storeRegs x) ∧
    (s.params.fontEnd ≤ s.base → s.base + (x.toNat + 1) ≤ s.params.memCapacity →
      ∃ t, exec (.storeRegs x) s = .next t ∧
        (∀ r : Reg, r.toNat ≤ x.toNat → (t.memRead (s.base + r.toNat)).toNat = s.getV r % 256) ∧
        OnlyMem s.base (x.toNat + 1) s t)

/-- 20_memory R43, 43_memory_index R105, R106, 60_exceptions R117, R119 (decisions D4, D5, D9, D37): a store whose
target number `k` is the first one outside memory or inside the font raises that target's fault (the bound of memory is
checked before the font), and writes no byte. The address of target `k` is `I + k` (D38). Widths and counts other than
the document's: R7, log 25. -/
def Obligations.StoresOutOfBoundsFault : Prop :=
  ∀ (x : Reg) (s : State) (k : Nat),
    (∀ j, j < k → s.params.fontEnd ≤ s.base + j ∧ s.base + j < s.params.memCapacity) →
    s.params.memCapacity ≤ s.base + k ∨ s.base + k < s.params.fontEnd →
    (k < 3 → ∃ t, exec (.ldB x) s = .next t ∧
      OnlyFaults ⟨if s.params.memCapacity ≤ s.base + k then .memWriteOutOfBounds (s.base + k) else .fontWrite (s.base + k),
        s.instrAddr, some (0xF#4 ++ x ++ 0x33#8)⟩ s t) ∧
    (k ≤ x.toNat → ∃ t, exec (.storeRegs x) s = .next t ∧
      OnlyFaults ⟨if s.params.memCapacity ≤ s.base + k then .memWriteOutOfBounds (s.base + k) else .fontWrite (s.base + k),
        s.instrAddr, some (0xF#4 ++ x ++ 0x55#8)⟩ s t)

/-- 43_memory_index R107, 20_memory R42, R44 (no wrap: decision D38; `I` unchanged: D21): `Fx65` completes in every
state with `V0..Vx` read from `I..I+x`, 0 for an address outside memory, and nothing else changed. Widths and counts
other than the document's: R7, log 25. -/
def Obligations.RegisterLoadResult : Prop :=
  ∀ (x : Reg) (s : State),
    Decodes (0xF#4 ++ x ++ 0x65#8) (.loadRegs x) ∧
    ∃ t, exec (.loadRegs x) s = .next t ∧
      (s.Fits → ∀ r : Reg, r.toNat ≤ x.toNat → t.getV r = (s.memRead (s.base + r.toNat)).toNat ∧
        (s.params.memCapacity ≤ s.base + r.toNat → t.getV r = 0)) ∧
      t = { s with v := t.v } ∧ (∀ r : Reg, x.toNat < r.toNat → t.getV r = s.getV r) ∧ SameBytes s t

/-- 43_memory_index R106, R107: what `Fx55` stored, `Fx65` loads back, into any state with the same memory, parameters
and `I`: the whole of a register of 8 bits, and the low eight bits of a wider one (log 25). -/
def Obligations.RegisterStoreThenLoadRestores : Prop :=
  ∀ (x : Reg) (s t u : State), exec (.storeRegs x) s = .next t → t.fault = none → u.Fits →
    u.params = t.params → u.mem = t.mem → u.i = s.i →
    ∃ w, exec (.loadRegs x) u = .next w ∧ ∀ r : Reg, r.toNat ≤ x.toNat → w.getV r = s.getV r % 256

/-! ### Display -/

/-- 44_display R108: `00E0` completes in every state with every cell off, `VF` and everything else unchanged. -/
def Obligations.ClearScreenTurnsEveryCellOff : Prop :=
  Decodes 0x00E0#16 .cls ∧
  ∀ s : State, ∃ t, exec .cls s = .next t ∧ (∀ x y, t.pixel x y = false) ∧
    t = { s with fb := t.fb } ∧ (∀ r, t.getV r = s.getV r) ∧ SameBytes s t

/-- 44_display R109 (bit 7 as column 0: decision D27, which the spec takes from general knowledge; operands before the
reset of `VF`: D28): `Dxyn` completes in every state; a cell under no set pixel is kept, `VF` is 0 or 1, and nothing but
the framebuffer and `VF` changes. On a grid that the sprite fits in, as the document's always is, no two pixels fall on
one cell: there the cells under a set pixel are flipped, and `VF` is 1 when such a cell was on and else 0. Widths and
counts other than the document's: R7, log 25. -/
def Obligations.DrawXorsTheSprite : Prop :=
  8 ≤ State.reset.params.fbW ∧ 15 ≤ State.reset.params.fbH ∧
  ∀ (x y : Reg) (n : Nibble) (s : State),
    Decodes (0xD#4 ++ x ++ y ++ n) (.drw x y n) ∧
    ∃ t, exec (.drw x y n) s = .next t ∧
      (∀ cx cy, cx < s.params.fbW → cy < s.params.fbH → ¬SpriteCovers s x y n cx cy → t.pixel cx cy = s.pixel cx cy) ∧
      (s.Fits → t.getV VF = 1 ∨ t.getV VF = 0) ∧
      t = { s with v := t.v, fb := t.fb } ∧ (∀ r, r ≠ VF → t.getV r = s.getV r) ∧ SameBytes s t ∧
      (8 ≤ s.params.fbW → n.toNat ≤ s.params.fbH →
        (∀ cx cy, cx < s.params.fbW → cy < s.params.fbH → SpriteCovers s x y n cx cy →
          t.pixel cx cy = !s.pixel cx cy) ∧
        (s.Fits → (t.getV VF = 1 ↔ ∃ cx cy, SpriteCovers s x y n cx cy ∧ s.pixel cx cy = true)))

/-- 44_display R109 (95_test_vectors S4): drawing the same sprite again at the same coordinates restores every cell, and
the framebuffer exactly; and, on a grid that the sprite fits in, it sets `VF` exactly when a set bit of the sprite fell
on a cell that was off before the first draw (log 19: R109's own derived remark says "when the sprite has a set bit",
which its rule for `VF` gives only where such a cell was off). The second state is any that has the first draw's
framebuffer and the same parameters, memory, `I`, `Vx` and `Vy`. Widths and counts other than the document's: R7, log
25. -/
def Obligations.DrawingTwiceRestoresTheFramebuffer : Prop :=
  ∀ (x y : Reg) (n : Nibble) (s t u : State), exec (.drw x y n) s = .next t →
    u.params = s.params → u.fb = t.fb → u.mem = s.mem → u.i = s.i → u.getV x = s.getV x → u.getV y = s.getV y →
    ∃ w, exec (.drw x y n) u = .next w ∧ (∀ cx cy, w.pixel cx cy = s.pixel cx cy) ∧ (s.Inv → w.fb = s.fb) ∧
      (8 ≤ s.params.fbW → n.toNat ≤ s.params.fbH →
        u.Fits → (w.getV VF = 1 ↔ ∃ cx cy, SpriteCovers s x y n cx cy ∧ s.pixel cx cy = false))

/-! ### Keys and timers -/

/-- 45_keys_timers R110, R111, 10_state R28 (`InvalidKey`: decision D22; mod 2^16: D41; `PC` after the fault: D9): with
a key number in `Vx`, `Ex9E` and `ExA1` complete and pass one word when that key is down, or up; with a number above the
last key's, 0xF, they raise `InvalidKey`. Widths and counts other than the document's: R7, log 25. -/
def Obligations.KeySkipsTestTheKey : Prop :=
  ∀ (x : Reg) (s : State),
    Decodes (0xE#4 ++ x ++ 0x9E#8) (.skp x) ∧ Decodes (0xE#4 ++ x ++ 0xA1#8) (.sknp x) ∧
    (∀ k, k < s.params.numKeys → s.getV x = k →
      (∃ t, exec (.skp x) s = .next t ∧
        t.pc = (if s.keys[k]? = some true then (s.pc + 2) % 2 ^ s.params.pcWidth else s.pc) ∧ OnlyPC s t) ∧
      (∃ t, exec (.sknp x) s = .next t ∧
        t.pc = (if s.keys[k]? = some true then s.pc else (s.pc + 2) % 2 ^ s.params.pcWidth) ∧ OnlyPC s t)) ∧
    (s.params.numKeys ≤ s.getV x →
      (∃ t, exec (.skp x) s = .next t ∧
        OnlyFaults ⟨.invalidKey (s.getV x), s.instrAddr, some (0xE#4 ++ x ++ 0x9E#8)⟩ s t) ∧
      (∃ t, exec (.sknp x) s = .next t ∧
        OnlyFaults ⟨.invalidKey (s.getV x), s.instrAddr, some (0xE#4 ++ x ++ 0xA1#8)⟩ s t))

/-- 45_keys_timers R112: `Fx07` completes in every state with `DT` in `Vx`, which holds all of a `DT` that is no wider,
as at the default widths (the timers': decision D25, log 20), and nothing else changed; in its cycle `Vx` is `DT` before
the countdown, which then still runs. Widths and counts other than the document's: R7, log 25. -/
def Obligations.DelayTimerIsReadBeforeTheCountdown : Prop :=
  ∀ (x : Reg) (s : State),
    Decodes (0xF#4 ++ x ++ 0x07#8) (.ldVxDt x) ∧
    (∃ t, exec (.ldVxDt x) s = .next t ∧ OnlyV [x] s t ∧
      (s.Fits → t.getV x = s.dt % 2 ^ s.params.vWidth ∧ (s.params.timerWidth ≤ s.params.vWidth → t.getV x = s.dt))) ∧
    (Fetches s (0xF#4 ++ x ++ 0x07#8) → ∃ t, step s = .next t ∧ t.dt = s.dt - 1 ∧
      (s.Fits → t.getV x = s.dt % 2 ^ s.params.vWidth))

/-- 45_keys_timers R114, R115: `Fx15` and `Fx18` complete in every state with `Vx` in the timer, which holds all of a
`Vx` that is no wider, as at the default widths (the timers': decision D25, log 20), and nothing else changed; at the
end of their cycle the timer is one less, or 0. Widths and counts other than the document's: R7, log 25. -/
def Obligations.TimersAreSetFromRegisters : Prop :=
  ∀ (x : Reg) (s : State),
    Decodes (0xF#4 ++ x ++ 0x15#8) (.ldDt x) ∧ Decodes (0xF#4 ++ x ++ 0x18#8) (.ldSt x) ∧
    (∃ t, exec (.ldDt x) s = .next t ∧ t.dt = s.getV x % 2 ^ s.params.timerWidth ∧
      (s.Fits → s.params.vWidth ≤ s.params.timerWidth → t.dt = s.getV x) ∧ t = { s with dt := t.dt } ∧
      (∀ r, t.getV r = s.getV r) ∧ SameBytes s t) ∧
    (∃ t, exec (.ldSt x) s = .next t ∧ t.st = s.getV x % 2 ^ s.params.timerWidth ∧
      (s.Fits → s.params.vWidth ≤ s.params.timerWidth → t.st = s.getV x) ∧ t = { s with st := t.st } ∧
      (∀ r, t.getV r = s.getV r) ∧ SameBytes s t) ∧
    (Fetches s (0xF#4 ++ x ++ 0x15#8) → ∃ t, step s = .next t ∧
      t.dt = s.getV x % 2 ^ s.params.timerWidth - 1) ∧
    (Fetches s (0xF#4 ++ x ++ 0x18#8) → ∃ t, step s = .next t ∧
      t.st = s.getV x % 2 ^ s.params.timerWidth - 1)

/-- 45_keys_timers R113, 10_state R30, 40_cycle R75, R77: `Fx0A` completes its part of the cycle in every state: the
wait is noted and the core is `AwaitingKeypress`; in its cycle `PC` is `addr + 2`, `waitAddr` is `addr`, and the timers
do not count. Widths and counts other than the document's: R7, log 25. -/
def Obligations.KeyWaitSuspendsTheCore : Prop :=
  ∀ (x : Reg) (s : State),
    Decodes (0xF#4 ++ x ++ 0x0A#8) (.ldVxK x) ∧
    (∃ t, exec (.ldVxK x) s = .next t ∧ t.run = .awaitingKeypress ∧ t.waitReg = x ∧
      (s.Fits → (t.waitAddr + 2) % 2 ^ s.params.pcWidth = s.pc) ∧
      t = { s with run := t.run, waitReg := t.waitReg, waitAddr := t.waitAddr } ∧
      (∀ r, t.getV r = s.getV r) ∧ SameBytes s t) ∧
    (Fetches s (0xF#4 ++ x ++ 0x0A#8) → ∃ t, step s = .next t ∧ t.run = .awaitingKeypress ∧ t.waitReg = x ∧
      (s.Fits → t.waitAddr = s.pc) ∧ t.pc = (s.pc + 2) % 2 ^ s.params.pcWidth ∧ t.dt = s.dt ∧ t.st = s.st)

/-- 60_exceptions R133, 45_keys_timers R113, 10_state R27 (which notifications end a wait: decision D23): a key-down
sets the key and `lastKey`, and in `AwaitingKeypress` also loads the key into `V[waitReg]`, lets the core run and counts
the timers; a key-up clears the key and ends no wait; a number above the last key's, 0xF, fails and changes nothing.
Widths and counts other than the document's: R7, log 25. -/
def Obligations.KeyNotificationsUpdateKeysAndEndTheWait : Prop :=
  ∀ (s : State) (k : Nat) (rest : List HostEvent),
    (Asks s (.setDown k) rest → k < s.params.numKeys → ∃ t, step s = .next t ∧
      (s.Fits → ∀ j, t.keys[j]? = if j = k then some true else s.keys[j]?) ∧
      t.lastKey = some k ∧
      (s.run ≠ .awaitingKeypress →
        t = { answered s rest .ok with keys := t.keys, lastKey := t.lastKey }) ∧
      (s.run = .awaitingKeypress → t.run = .running ∧
        (s.Fits → t.getV s.waitReg = k % 2 ^ s.params.vWidth ∧
          (s.params.numKeys ≤ 2 ^ s.params.vWidth → t.getV s.waitReg = k)) ∧
        (∀ r, r ≠ s.waitReg → t.getV r = s.getV r) ∧ t.dt = s.dt - 1 ∧ t.st = s.st - 1 ∧
        t = { answered s rest .ok with
          keys := t.keys, lastKey := t.lastKey, v := t.v, run := t.run, dt := t.dt, st := t.st })) ∧
    (Asks s (.setUp k) rest → k < s.params.numKeys → ∃ t, step s = .next t ∧
      (s.Fits → ∀ j, t.keys[j]? = if j = k then some false else s.keys[j]?) ∧
      t = { answered s rest .ok with keys := t.keys }) ∧
    (s.params.numKeys ≤ k → Asks s (.setDown k) rest ∨ Asks s (.setUp k) rest →
      step s = .next (answered s rest (.failed .invalidKey)))

/-! ### Host operations -/

/-- 40_cycle R67, R68 (`run()` from `Halted`: decision D11; after a fault: D10; `stop()` in a key wait: D24): what
`run()` and `stop()` do in every run state. -/
def Obligations.RunAndStopOperations : Prop :=
  ∀ (s : State) (rest : List HostEvent),
    (Asks s .run rest →
      (s.fault ≠ none → step s = .next (answered s rest (.failed .faultRecorded))) ∧
      (s.fault = none → s.run = .stopped ∨ s.run = .halted →
        step s = .next { answered s rest .ok with run := .running }) ∧
      (s.fault = none → s.run = .running ∨ s.run = .awaitingKeypress → step s = .next (answered s rest .ok))) ∧
    (Asks s .stop rest →
      (s.run = .awaitingKeypress → step s = .next { answered s rest .ok with run := .stopped, pc := s.waitAddr }) ∧
      (s.run ≠ .awaitingKeypress → step s = .next { answered s rest .ok with run := .stopped }))

/-- 20_memory R50, R51 (`FontOverlap`: decision D6): `load` stores its bytes when they fit in memory and do not touch
the font; otherwise it fails and changes nothing. -/
def Obligations.LoadStoresOrFails : Prop :=
  ∀ (s : State) (offset : Nat) (bytes : List Byte) (rest : List HostEvent), Asks s (.load offset bytes) rest →
    (s.params.memCapacity < offset + bytes.length → step s = .next (answered s rest (.failed .capacityExceeded))) ∧
    (offset + bytes.length ≤ s.params.memCapacity → bytes ≠ [] → offset < s.params.fontEnd →
      step s = .next (answered s rest (.failed .fontOverlap))) ∧
    (offset + bytes.length ≤ s.params.memCapacity → bytes = [] ∨ s.params.fontEnd ≤ offset → ∃ t, step s = .next t ∧
      t = { answered s rest .ok with mem := t.mem } ∧
      (∀ j, (h : j < bytes.length) → t.memRead (offset + j) = bytes[j]) ∧
      SameBytesOutside s t offset bytes.length)

/-- 60_exceptions R127 (value range and case of names: decision D32): `setRegister` writes the register a name stands
for, in either case, and nothing else; it fails on any other name and on a value wider than the register. The general
registers are named by `V` and one of the sixteen hexadecimal digits, each by its value: digit number `d` of
`hexDigits`; each of them is there where the parameters fit together. Widths and counts other than the document's: R7,
log 25. -/
def Obligations.SetRegisterWritesOneRegister : Prop :=
  (∀ (c : Char) (d : Reg), hexDigit c = some d ↔ hexDigits[d.toNat]? = some c) ∧
  ∀ (s : State) (name : List Char) (value : Nat) (rest : List HostEvent), Asks s (.setRegister name value) rest →
    (∀ (c : Char) (d : Reg), name.map Char.toUpper = ['V', c] → hexDigits[d.toNat]? = some c →
      s.Fits → value < 2 ^ s.params.vWidth → ∃ t, step s = .next t ∧ t.getV d = value ∧
        (∀ r, r ≠ d → t.getV r = s.getV r) ∧
        t = { answered s rest .ok with v := t.v }) ∧
    (name.map Char.toUpper = ['I'] → value < 2 ^ s.params.iWidth →
      step s = .next { answered s rest .ok with i := value }) ∧
    (name.map Char.toUpper = ['P', 'C'] → value < 2 ^ s.params.pcWidth →
      step s = .next { answered s rest .ok with pc := value }) ∧
    (name.map Char.toUpper = ['D', 'T'] → value < 2 ^ s.params.timerWidth →
      step s = .next { answered s rest .ok with dt := value }) ∧
    (name.map Char.toUpper = ['S', 'T'] → value < 2 ^ s.params.timerWidth →
      step s = .next { answered s rest .ok with st := value }) ∧
    ((∀ c, name.map Char.toUpper = ['V', c] → c ∉ hexDigits) →
      name.map Char.toUpper ∉ [['I'], ['P', 'C'], ['D', 'T'], ['S', 'T']] →
      step s = .next (answered s rest (.failed .unknownRegister))) ∧
    (∀ c, name.map Char.toUpper = ['V', c] → c ∈ hexDigits → s.Fits → 2 ^ s.params.vWidth ≤ value →
      step s = .next (answered s rest (.failed .valueTooWide))) ∧
    (name.map Char.toUpper ∈ [['D', 'T'], ['S', 'T']] → 2 ^ s.params.timerWidth ≤ value →
      step s = .next (answered s rest (.failed .valueTooWide))) ∧
    (name.map Char.toUpper = ['I'] → 2 ^ s.params.iWidth ≤ value →
      step s = .next (answered s rest (.failed .valueTooWide))) ∧
    (name.map Char.toUpper = ['P', 'C'] → 2 ^ s.params.pcWidth ≤ value →
      step s = .next (answered s rest (.failed .valueTooWide)))

/-- 60_exceptions R128, R130, R131, R132, R136: the reads of the host give back what they name, all of one point between
two cycles, and change nothing of the core. Widths and counts other than the document's: R7, log 25. -/
def Obligations.HostReadsChangeNothing : Prop :=
  ∀ (s : State) (rest : List HostEvent),
    (Asks s .getRegisters rest → ∃ r : RegisterSnapshot, step s = .next (answered s rest (.registers r)) ∧
      r.v = s.v ∧ (s.Fits → ∀ x : Reg, r.v[x.toNat]? = some (s.getV x)) ∧ r.i = s.i ∧
      r.pc = s.pc ∧ r.sp = s.sp ∧ r.dt = s.dt ∧
      r.st = s.st) ∧
    (∀ a, Asks s (.readMemory a) rest →
      step s = .next (answered s rest (.byte (if a < s.params.memCapacity then s.memRead a else 0#8)))) ∧
    (Asks s .readFramebuffer rest → step s = .next (answered s rest (.framebuffer s.fb))) ∧
    (Asks s .readSoundTimer rest → step s = .next (answered s rest (.number s.st))) ∧
    (Asks s .readStatus rest → step s = .next (answered s rest (.status s.run s.fault)))

/-- 70_reset_and_hazards R144, R145, R146, R152 (decision D48; the breakpoints of before are kept: D29, R142, log 20; no
fault is left: D10, R141, log 17): a launch from any state gives, at the program's first instruction, the state a
program may rely on, with its image at `PROGRAM_START`. A launch fails exactly when its `load` does, which is 20_memory
R50: when the image does not fit in memory (`CapacityExceeded`), or when an image that has bytes starts below the end of
the font (`FontOverlap`, decision D6, log 18), which no `PROGRAM_START` of parameters that fit together does. -/
def Obligations.LaunchGivesTheProgramItsState : Prop :=
  ∀ (s : State) (image : List Byte) (bps : List Word),
    (launch image bps s = none ↔ s.params.memCapacity < s.params.programStart + image.length ∨
      (image ≠ [] ∧ s.params.programStart < s.params.fontEnd)) ∧
    ∀ u, launch image bps s = some u →
      u.params = s.params ∧ u.run = .running ∧ u.fault = none ∧ (s.params.Valid → u.pc = s.params.programStart) ∧
      u.i = 0 ∧ u.sp = 0 ∧ u.dt = 0 ∧ u.st = 0 ∧ (∀ r : Reg, r.toNat < s.params.numV → u.getV r = 0) ∧
      (∀ x y, u.pixel x y = false) ∧
      (∀ b, b ∈ u.breakpoints ↔ (∃ a ∈ bps, a.toNat = b) ∨ b ∈ s.breakpoints) ∧
      (∀ j, (h : j < image.length) → u.memRead (s.params.programStart + j) = image[j])

/-! ### Registers of any width -/

/-- 10_state R15, R17, R18, R23, 42_alu R89, 00_scope R7 (log 25): a general register reads back the last value written
to it, narrowed to its width, and every other as before; each other register is written narrowed to its own width. A
write of a register that the machine does not have, with `NUM_V` below 16, changes nothing, the model's choice (log 27).
-/
def Obligations.RegistersReadBackNarrowedToTheirWidth : Prop :=
  ∀ (s : State) (r : Reg) (n : Nat),
    (s.Fits → (s.setV r n).Fits ∧ (s.setV r n).getV r = n % 2 ^ s.params.vWidth ∧ s.getV r < 2 ^ s.params.vWidth) ∧
    (∀ q, q ≠ r → (s.setV r n).getV q = s.getV q) ∧
    (s.v.length ≤ r.toNat → s.setV r n = s) ∧
    (s.setI n).i = n % 2 ^ s.params.iWidth ∧ (s.setPC n).pc = n % 2 ^ s.params.pcWidth ∧
    (s.setDT n).dt = n % 2 ^ s.params.timerWidth ∧ (s.setST n).st = n % 2 ^ s.params.timerWidth
end

