-- ==== Sys2Proof/Laws/Decode.lean ====
section
/-!
SUPPORT. The fields of a word that is written digit by digit, and any word as its fields (30_encoding R58, R59); the
bytes of a word (20_memory R47).
-/

namespace Sys2Proof

open BitVec (extractLsb'_append_eq_left extractLsb'_append_eq_right extractLsb'_append_eq_of_le
  extractLsb'_append_eq_of_add_le)

/-! ### Format NNN -/

@[simp] theorem fieldTop_nnn (t : Nibble) (nnn : Addr12) : fieldTop (t ++ nnn) = t := extractLsb'_append_eq_left

@[simp] theorem fieldNNN_nnn (t : Nibble) (nnn : Addr12) : fieldNNN (t ++ nnn) = nnn := extractLsb'_append_eq_right

/-! ### Formats XKK and X -/

@[simp] theorem fieldTop_xkk (t : Nibble) (x : Reg) (kk : Byte) : fieldTop (t ++ x ++ kk) = t :=
  (extractLsb'_append_eq_of_le (by decide)).trans extractLsb'_append_eq_left

@[simp] theorem fieldX_xkk (t : Nibble) (x : Reg) (kk : Byte) : fieldX (t ++ x ++ kk) = x :=
  (extractLsb'_append_eq_of_le (by decide)).trans extractLsb'_append_eq_right

@[simp] theorem fieldKK_xkk (t : Nibble) (x : Reg) (kk : Byte) : fieldKK (t ++ x ++ kk) = kk :=
  extractLsb'_append_eq_right

/-! ### Formats XY and XYN -/

@[simp] theorem fieldTop_xyn (t : Nibble) (x y : Reg) (n : Nibble) : fieldTop (t ++ x ++ y ++ n) = t :=
  (extractLsb'_append_eq_of_le (by decide)).trans
    ((extractLsb'_append_eq_of_le (by decide)).trans extractLsb'_append_eq_left)

@[simp] theorem fieldX_xyn (t : Nibble) (x y : Reg) (n : Nibble) : fieldX (t ++ x ++ y ++ n) = x :=
  (extractLsb'_append_eq_of_le (by decide)).trans
    ((extractLsb'_append_eq_of_le (by decide)).trans extractLsb'_append_eq_right)

@[simp] theorem fieldY_xyn (t : Nibble) (x y : Reg) (n : Nibble) : fieldY (t ++ x ++ y ++ n) = y :=
  (extractLsb'_append_eq_of_le (by decide)).trans extractLsb'_append_eq_right

@[simp] theorem fieldN_xyn (t : Nibble) (x y : Reg) (n : Nibble) : fieldN (t ++ x ++ y ++ n) = n :=
  extractLsb'_append_eq_right

/-! ### Any word as its fields -/

/-- Two adjacent fields of a word are one field. -/
theorem extract_append (op : Word) {hi lo m n : Nat} (h : hi = lo + n) :
    op.extractLsb' hi m ++ op.extractLsb' lo n = op.extractLsb' lo (m + n) :=
  BitVec.extractLsb'_append_extractLsb'_eq_extractLsb' h

/-- A word in format NNN. -/
theorem word_eq_nnn (op : Word) : op = fieldTop op ++ fieldNNN op :=
  ((extract_append op (lo := 0) (m := 4) (n := 12) rfl).trans BitVec.extractLsb'_eq_self).symm

/-- A word in format XKK. -/
theorem word_eq_xkk (op : Word) : op = fieldTop op ++ fieldX op ++ fieldKK op := by
  have h := extract_append op (hi := 12) (lo := 8) (m := 4) (n := 4) rfl
  have h' := extract_append op (hi := 8) (lo := 0) (m := 8) (n := 8) rfl
  exact ((congrArg (· ++ fieldKK op) h).trans (h'.trans BitVec.extractLsb'_eq_self)).symm

/-- The low byte of a word as its two digits. -/
theorem fieldKK_eq (op : Word) : fieldKK op = fieldY op ++ fieldN op :=
  (extract_append op (hi := 4) (lo := 0) (m := 4) (n := 4) rfl).symm

/-- A word in format XYN. -/
theorem word_eq_xyn (op : Word) : op = fieldTop op ++ fieldX op ++ fieldY op ++ fieldN op := by
  have h := extract_append op (hi := 12) (lo := 8) (m := 4) (n := 4) rfl
  have h' := extract_append op (hi := 8) (lo := 4) (m := 8) (n := 4) rfl
  have h'' := extract_append op (hi := 4) (lo := 0) (m := 12) (n := 4) rfl
  have e : (fieldTop op ++ fieldX op : BitVec 8) = op.extractLsb' 8 8 := h
  have e' : (fieldTop op ++ fieldX op ++ fieldY op : BitVec 12) = op.extractLsb' 4 12 :=
    (congrArg (· ++ fieldY op) e).trans h'
  exact ((congrArg (· ++ fieldN op) e').trans (h''.trans BitVec.extractLsb'_eq_self)).symm

/-- A word whose top digit is known, in format NNN. -/
theorem nnn_of_top {op : Word} {t : Nibble} (h : fieldTop op = t) : t ++ fieldNNN op = op := by
  subst h; exact (word_eq_nnn op).symm

/-- A word whose top digit is known, in format XKK. -/
theorem xkk_of_top {op : Word} {t : Nibble} (h : fieldTop op = t) : t ++ fieldX op ++ fieldKK op = op := by
  subst h; exact (word_eq_xkk op).symm

/-- A word whose top digit and low byte are known, in format X. -/
theorem x_of_top {op : Word} {t : Nibble} {kk : Byte} (h : fieldTop op = t) (hk : fieldKK op = kk) :
    t ++ fieldX op ++ kk = op := by
  subst hk; exact xkk_of_top h

/-- A word whose top digit is known, in format XYN. -/
theorem xyn_of_top {op : Word} {t : Nibble} (h : fieldTop op = t) :
    t ++ fieldX op ++ fieldY op ++ fieldN op = op := by
  subst h; exact (word_eq_xyn op).symm

/-- A word whose top and low digits are known, in format XY. -/
theorem xy_of_top {op : Word} {t n : Nibble} (h : fieldTop op = t) (hn : fieldN op = n) :
    t ++ fieldX op ++ fieldY op ++ n = op := by
  subst hn; exact xyn_of_top h

/-- The only top digit left when the fifteen others are ruled out (30_encoding R61: family 0xF). -/
theorem top_eq_F : ∀ t : Nibble, t ≠ 0x0#4 → t ≠ 0x1#4 → t ≠ 0x2#4 → t ≠ 0x3#4 → t ≠ 0x4#4 → t ≠ 0x5#4 →
    t ≠ 0x6#4 → t ≠ 0x7#4 → t ≠ 0x8#4 → t ≠ 0x9#4 → t ≠ 0xA#4 → t ≠ 0xB#4 → t ≠ 0xC#4 → t ≠ 0xD#4 →
    t ≠ 0xE#4 → t = 0xF#4 := by bv_omega

/-! ### Bytes -/

/-- The bytes of a word put together again (20_memory R47). -/
theorem wordOfBytes_bytes (op : Word) : wordOfBytes (op.extractLsb' 8 8) (op.extractLsb' 0 8) = op :=
  (extract_append op (hi := 8) (lo := 0) (m := 8) (n := 8) rfl).trans BitVec.extractLsb'_eq_self

/-- Decoding the bytes of a word is decoding the word. -/
theorem decodeBytes_bytesOfWord (op : Word) (rest : List Byte) :
    decodeBytes (bytesOfWord op ++ rest) = (decodeWord op).map (fun i => (i, rest)) := by
  simp only [bytesOfWord, List.cons_append, List.nil_append, decodeBytes, wordOfBytes_bytes]
  cases decodeWord op <;> rfl

/-- An unsupported word is reported as itself. -/
theorem decodeWord_error {op : Word} {e : DecodeError} (h : decodeWord op = .error e) :
    e = .unsupportedOpcode op := by
  simp only [decodeWord, decodeAlu, decodeKey, decodeMisc] at h
  split at h <;> (repeat' split at h) <;> simp_all

end Sys2Proof
end

