-- ==== Sys2Proof/Laws/State.lean ====
section
/-!
SUPPORT. The fields of the state under each named update: one lemma per field, so that no proof unfolds a record update;
and general registers read after a write.
-/

namespace Sys2Proof.Machine

variable (s : State)

/-! ### `State.setV` -/

@[simp] theorem State.setV_v (r : Reg) (n : Nat) : (s.setV r n).v = s.v.set r.toNat (n % 2 ^ s.params.vWidth) := rfl
@[simp] theorem State.setV_i (r : Reg) (n : Nat) : (s.setV r n).i = s.i := rfl
@[simp] theorem State.setV_pc (r : Reg) (n : Nat) : (s.setV r n).pc = s.pc := rfl
@[simp] theorem State.setV_sp (r : Reg) (n : Nat) : (s.setV r n).sp = s.sp := rfl
@[simp] theorem State.setV_dt (r : Reg) (n : Nat) : (s.setV r n).dt = s.dt := rfl
@[simp] theorem State.setV_st (r : Reg) (n : Nat) : (s.setV r n).st = s.st := rfl
@[simp] theorem State.setV_stack (r : Reg) (n : Nat) : (s.setV r n).stack = s.stack := rfl
@[simp] theorem State.setV_fb (r : Reg) (n : Nat) : (s.setV r n).fb = s.fb := rfl
@[simp] theorem State.setV_keys (r : Reg) (n : Nat) : (s.setV r n).keys = s.keys := rfl
@[simp] theorem State.setV_lastKey (r : Reg) (n : Nat) : (s.setV r n).lastKey = s.lastKey := rfl
@[simp] theorem State.setV_run (r : Reg) (n : Nat) : (s.setV r n).run = s.run := rfl
@[simp] theorem State.setV_waitReg (r : Reg) (n : Nat) : (s.setV r n).waitReg = s.waitReg := rfl
@[simp] theorem State.setV_waitAddr (r : Reg) (n : Nat) : (s.setV r n).waitAddr = s.waitAddr := rfl
@[simp] theorem State.setV_fault (r : Reg) (n : Nat) : (s.setV r n).fault = s.fault := rfl
@[simp] theorem State.setV_breakpoints (r : Reg) (n : Nat) : (s.setV r n).breakpoints = s.breakpoints := rfl
@[simp] theorem State.setV_mem (r : Reg) (n : Nat) : (s.setV r n).mem = s.mem := rfl
@[simp] theorem State.setV_draws (r : Reg) (n : Nat) : (s.setV r n).draws = s.draws := rfl
@[simp] theorem State.setV_drawCount (r : Reg) (n : Nat) : (s.setV r n).drawCount = s.drawCount := rfl
@[simp] theorem State.setV_agenda (r : Reg) (n : Nat) : (s.setV r n).agenda = s.agenda := rfl
@[simp] theorem State.setV_reply (r : Reg) (n : Nat) : (s.setV r n).reply = s.reply := rfl
@[simp] theorem State.setV_params (r : Reg) (n : Nat) : (s.setV r n).params = s.params := rfl

/-! ### `State.setI` -/

@[simp] theorem State.setI_v (n : Nat) : (s.setI n).v = s.v := rfl
@[simp] theorem State.setI_i (n : Nat) : (s.setI n).i = n % 2 ^ s.params.iWidth := rfl
@[simp] theorem State.setI_pc (n : Nat) : (s.setI n).pc = s.pc := rfl
@[simp] theorem State.setI_sp (n : Nat) : (s.setI n).sp = s.sp := rfl
@[simp] theorem State.setI_dt (n : Nat) : (s.setI n).dt = s.dt := rfl
@[simp] theorem State.setI_st (n : Nat) : (s.setI n).st = s.st := rfl
@[simp] theorem State.setI_stack (n : Nat) : (s.setI n).stack = s.stack := rfl
@[simp] theorem State.setI_fb (n : Nat) : (s.setI n).fb = s.fb := rfl
@[simp] theorem State.setI_keys (n : Nat) : (s.setI n).keys = s.keys := rfl
@[simp] theorem State.setI_lastKey (n : Nat) : (s.setI n).lastKey = s.lastKey := rfl
@[simp] theorem State.setI_run (n : Nat) : (s.setI n).run = s.run := rfl
@[simp] theorem State.setI_waitReg (n : Nat) : (s.setI n).waitReg = s.waitReg := rfl
@[simp] theorem State.setI_waitAddr (n : Nat) : (s.setI n).waitAddr = s.waitAddr := rfl
@[simp] theorem State.setI_fault (n : Nat) : (s.setI n).fault = s.fault := rfl
@[simp] theorem State.setI_breakpoints (n : Nat) : (s.setI n).breakpoints = s.breakpoints := rfl
@[simp] theorem State.setI_mem (n : Nat) : (s.setI n).mem = s.mem := rfl
@[simp] theorem State.setI_draws (n : Nat) : (s.setI n).draws = s.draws := rfl
@[simp] theorem State.setI_drawCount (n : Nat) : (s.setI n).drawCount = s.drawCount := rfl
@[simp] theorem State.setI_agenda (n : Nat) : (s.setI n).agenda = s.agenda := rfl
@[simp] theorem State.setI_reply (n : Nat) : (s.setI n).reply = s.reply := rfl
@[simp] theorem State.setI_params (n : Nat) : (s.setI n).params = s.params := rfl

/-! ### `State.setPC` -/

@[simp] theorem State.setPC_v (n : Nat) : (s.setPC n).v = s.v := rfl
@[simp] theorem State.setPC_i (n : Nat) : (s.setPC n).i = s.i := rfl
@[simp] theorem State.setPC_pc (n : Nat) : (s.setPC n).pc = n % 2 ^ s.params.pcWidth := rfl
@[simp] theorem State.setPC_sp (n : Nat) : (s.setPC n).sp = s.sp := rfl
@[simp] theorem State.setPC_dt (n : Nat) : (s.setPC n).dt = s.dt := rfl
@[simp] theorem State.setPC_st (n : Nat) : (s.setPC n).st = s.st := rfl
@[simp] theorem State.setPC_stack (n : Nat) : (s.setPC n).stack = s.stack := rfl
@[simp] theorem State.setPC_fb (n : Nat) : (s.setPC n).fb = s.fb := rfl
@[simp] theorem State.setPC_keys (n : Nat) : (s.setPC n).keys = s.keys := rfl
@[simp] theorem State.setPC_lastKey (n : Nat) : (s.setPC n).lastKey = s.lastKey := rfl
@[simp] theorem State.setPC_run (n : Nat) : (s.setPC n).run = s.run := rfl
@[simp] theorem State.setPC_waitReg (n : Nat) : (s.setPC n).waitReg = s.waitReg := rfl
@[simp] theorem State.setPC_waitAddr (n : Nat) : (s.setPC n).waitAddr = s.waitAddr := rfl
@[simp] theorem State.setPC_fault (n : Nat) : (s.setPC n).fault = s.fault := rfl
@[simp] theorem State.setPC_breakpoints (n : Nat) : (s.setPC n).breakpoints = s.breakpoints := rfl
@[simp] theorem State.setPC_mem (n : Nat) : (s.setPC n).mem = s.mem := rfl
@[simp] theorem State.setPC_draws (n : Nat) : (s.setPC n).draws = s.draws := rfl
@[simp] theorem State.setPC_drawCount (n : Nat) : (s.setPC n).drawCount = s.drawCount := rfl
@[simp] theorem State.setPC_agenda (n : Nat) : (s.setPC n).agenda = s.agenda := rfl
@[simp] theorem State.setPC_reply (n : Nat) : (s.setPC n).reply = s.reply := rfl
@[simp] theorem State.setPC_params (n : Nat) : (s.setPC n).params = s.params := rfl

/-! ### `State.setDT` -/

@[simp] theorem State.setDT_v (n : Nat) : (s.setDT n).v = s.v := rfl
@[simp] theorem State.setDT_i (n : Nat) : (s.setDT n).i = s.i := rfl
@[simp] theorem State.setDT_pc (n : Nat) : (s.setDT n).pc = s.pc := rfl
@[simp] theorem State.setDT_sp (n : Nat) : (s.setDT n).sp = s.sp := rfl
@[simp] theorem State.setDT_dt (n : Nat) : (s.setDT n).dt = n % 2 ^ s.params.timerWidth := rfl
@[simp] theorem State.setDT_st (n : Nat) : (s.setDT n).st = s.st := rfl
@[simp] theorem State.setDT_stack (n : Nat) : (s.setDT n).stack = s.stack := rfl
@[simp] theorem State.setDT_fb (n : Nat) : (s.setDT n).fb = s.fb := rfl
@[simp] theorem State.setDT_keys (n : Nat) : (s.setDT n).keys = s.keys := rfl
@[simp] theorem State.setDT_lastKey (n : Nat) : (s.setDT n).lastKey = s.lastKey := rfl
@[simp] theorem State.setDT_run (n : Nat) : (s.setDT n).run = s.run := rfl
@[simp] theorem State.setDT_waitReg (n : Nat) : (s.setDT n).waitReg = s.waitReg := rfl
@[simp] theorem State.setDT_waitAddr (n : Nat) : (s.setDT n).waitAddr = s.waitAddr := rfl
@[simp] theorem State.setDT_fault (n : Nat) : (s.setDT n).fault = s.fault := rfl
@[simp] theorem State.setDT_breakpoints (n : Nat) : (s.setDT n).breakpoints = s.breakpoints := rfl
@[simp] theorem State.setDT_mem (n : Nat) : (s.setDT n).mem = s.mem := rfl
@[simp] theorem State.setDT_draws (n : Nat) : (s.setDT n).draws = s.draws := rfl
@[simp] theorem State.setDT_drawCount (n : Nat) : (s.setDT n).drawCount = s.drawCount := rfl
@[simp] theorem State.setDT_agenda (n : Nat) : (s.setDT n).agenda = s.agenda := rfl
@[simp] theorem State.setDT_reply (n : Nat) : (s.setDT n).reply = s.reply := rfl
@[simp] theorem State.setDT_params (n : Nat) : (s.setDT n).params = s.params := rfl

/-! ### `State.setST` -/

@[simp] theorem State.setST_v (n : Nat) : (s.setST n).v = s.v := rfl
@[simp] theorem State.setST_i (n : Nat) : (s.setST n).i = s.i := rfl
@[simp] theorem State.setST_pc (n : Nat) : (s.setST n).pc = s.pc := rfl
@[simp] theorem State.setST_sp (n : Nat) : (s.setST n).sp = s.sp := rfl
@[simp] theorem State.setST_dt (n : Nat) : (s.setST n).dt = s.dt := rfl
@[simp] theorem State.setST_st (n : Nat) : (s.setST n).st = n % 2 ^ s.params.timerWidth := rfl
@[simp] theorem State.setST_stack (n : Nat) : (s.setST n).stack = s.stack := rfl
@[simp] theorem State.setST_fb (n : Nat) : (s.setST n).fb = s.fb := rfl
@[simp] theorem State.setST_keys (n : Nat) : (s.setST n).keys = s.keys := rfl
@[simp] theorem State.setST_lastKey (n : Nat) : (s.setST n).lastKey = s.lastKey := rfl
@[simp] theorem State.setST_run (n : Nat) : (s.setST n).run = s.run := rfl
@[simp] theorem State.setST_waitReg (n : Nat) : (s.setST n).waitReg = s.waitReg := rfl
@[simp] theorem State.setST_waitAddr (n : Nat) : (s.setST n).waitAddr = s.waitAddr := rfl
@[simp] theorem State.setST_fault (n : Nat) : (s.setST n).fault = s.fault := rfl
@[simp] theorem State.setST_breakpoints (n : Nat) : (s.setST n).breakpoints = s.breakpoints := rfl
@[simp] theorem State.setST_mem (n : Nat) : (s.setST n).mem = s.mem := rfl
@[simp] theorem State.setST_draws (n : Nat) : (s.setST n).draws = s.draws := rfl
@[simp] theorem State.setST_drawCount (n : Nat) : (s.setST n).drawCount = s.drawCount := rfl
@[simp] theorem State.setST_agenda (n : Nat) : (s.setST n).agenda = s.agenda := rfl
@[simp] theorem State.setST_reply (n : Nat) : (s.setST n).reply = s.reply := rfl
@[simp] theorem State.setST_params (n : Nat) : (s.setST n).params = s.params := rfl

/-! ### `State.advance` -/

@[simp] theorem State.advance_v : s.advance.v = s.v := rfl
@[simp] theorem State.advance_i : s.advance.i = s.i := rfl
@[simp] theorem State.advance_pc : s.advance.pc = (s.pc + 2) % 2 ^ s.params.pcWidth := rfl
@[simp] theorem State.advance_sp : s.advance.sp = s.sp := rfl
@[simp] theorem State.advance_dt : s.advance.dt = s.dt := rfl
@[simp] theorem State.advance_st : s.advance.st = s.st := rfl
@[simp] theorem State.advance_stack : s.advance.stack = s.stack := rfl
@[simp] theorem State.advance_fb : s.advance.fb = s.fb := rfl
@[simp] theorem State.advance_keys : s.advance.keys = s.keys := rfl
@[simp] theorem State.advance_lastKey : s.advance.lastKey = s.lastKey := rfl
@[simp] theorem State.advance_run : s.advance.run = s.run := rfl
@[simp] theorem State.advance_waitReg : s.advance.waitReg = s.waitReg := rfl
@[simp] theorem State.advance_waitAddr : s.advance.waitAddr = s.waitAddr := rfl
@[simp] theorem State.advance_fault : s.advance.fault = s.fault := rfl
@[simp] theorem State.advance_breakpoints : s.advance.breakpoints = s.breakpoints := rfl
@[simp] theorem State.advance_mem : s.advance.mem = s.mem := rfl
@[simp] theorem State.advance_draws : s.advance.draws = s.draws := rfl
@[simp] theorem State.advance_drawCount : s.advance.drawCount = s.drawCount := rfl
@[simp] theorem State.advance_agenda : s.advance.agenda = s.agenda := rfl
@[simp] theorem State.advance_reply : s.advance.reply = s.reply := rfl
@[simp] theorem State.advance_params : s.advance.params = s.params := rfl

/-! ### `State.setKey` -/

@[simp] theorem State.setKey_v (k : Nat) (d : Bool) : (s.setKey k d).v = s.v := rfl
@[simp] theorem State.setKey_i (k : Nat) (d : Bool) : (s.setKey k d).i = s.i := rfl
@[simp] theorem State.setKey_pc (k : Nat) (d : Bool) : (s.setKey k d).pc = s.pc := rfl
@[simp] theorem State.setKey_sp (k : Nat) (d : Bool) : (s.setKey k d).sp = s.sp := rfl
@[simp] theorem State.setKey_dt (k : Nat) (d : Bool) : (s.setKey k d).dt = s.dt := rfl
@[simp] theorem State.setKey_st (k : Nat) (d : Bool) : (s.setKey k d).st = s.st := rfl
@[simp] theorem State.setKey_stack (k : Nat) (d : Bool) : (s.setKey k d).stack = s.stack := rfl
@[simp] theorem State.setKey_fb (k : Nat) (d : Bool) : (s.setKey k d).fb = s.fb := rfl
@[simp] theorem State.setKey_keys (k : Nat) (d : Bool) : (s.setKey k d).keys = s.keys.set k d := rfl
@[simp] theorem State.setKey_lastKey (k : Nat) (d : Bool) : (s.setKey k d).lastKey = s.lastKey := rfl
@[simp] theorem State.setKey_run (k : Nat) (d : Bool) : (s.setKey k d).run = s.run := rfl
@[simp] theorem State.setKey_waitReg (k : Nat) (d : Bool) : (s.setKey k d).waitReg = s.waitReg := rfl
@[simp] theorem State.setKey_waitAddr (k : Nat) (d : Bool) : (s.setKey k d).waitAddr = s.waitAddr := rfl
@[simp] theorem State.setKey_fault (k : Nat) (d : Bool) : (s.setKey k d).fault = s.fault := rfl
@[simp] theorem State.setKey_breakpoints (k : Nat) (d : Bool) : (s.setKey k d).breakpoints = s.breakpoints := rfl
@[simp] theorem State.setKey_mem (k : Nat) (d : Bool) : (s.setKey k d).mem = s.mem := rfl
@[simp] theorem State.setKey_draws (k : Nat) (d : Bool) : (s.setKey k d).draws = s.draws := rfl
@[simp] theorem State.setKey_drawCount (k : Nat) (d : Bool) : (s.setKey k d).drawCount = s.drawCount := rfl
@[simp] theorem State.setKey_agenda (k : Nat) (d : Bool) : (s.setKey k d).agenda = s.agenda := rfl
@[simp] theorem State.setKey_reply (k : Nat) (d : Bool) : (s.setKey k d).reply = s.reply := rfl
@[simp] theorem State.setKey_params (k : Nat) (d : Bool) : (s.setKey k d).params = s.params := rfl

/-! ### `State.setFlag` -/

@[simp] theorem State.setFlag_i (c : Bool) : (s.setFlag c).i = s.i := rfl
@[simp] theorem State.setFlag_pc (c : Bool) : (s.setFlag c).pc = s.pc := rfl
@[simp] theorem State.setFlag_sp (c : Bool) : (s.setFlag c).sp = s.sp := rfl
@[simp] theorem State.setFlag_dt (c : Bool) : (s.setFlag c).dt = s.dt := rfl
@[simp] theorem State.setFlag_st (c : Bool) : (s.setFlag c).st = s.st := rfl
@[simp] theorem State.setFlag_stack (c : Bool) : (s.setFlag c).stack = s.stack := rfl
@[simp] theorem State.setFlag_fb (c : Bool) : (s.setFlag c).fb = s.fb := rfl
@[simp] theorem State.setFlag_keys (c : Bool) : (s.setFlag c).keys = s.keys := rfl
@[simp] theorem State.setFlag_lastKey (c : Bool) : (s.setFlag c).lastKey = s.lastKey := rfl
@[simp] theorem State.setFlag_run (c : Bool) : (s.setFlag c).run = s.run := rfl
@[simp] theorem State.setFlag_waitReg (c : Bool) : (s.setFlag c).waitReg = s.waitReg := rfl
@[simp] theorem State.setFlag_waitAddr (c : Bool) : (s.setFlag c).waitAddr = s.waitAddr := rfl
@[simp] theorem State.setFlag_fault (c : Bool) : (s.setFlag c).fault = s.fault := rfl
@[simp] theorem State.setFlag_breakpoints (c : Bool) : (s.setFlag c).breakpoints = s.breakpoints := rfl
@[simp] theorem State.setFlag_mem (c : Bool) : (s.setFlag c).mem = s.mem := rfl
@[simp] theorem State.setFlag_draws (c : Bool) : (s.setFlag c).draws = s.draws := rfl
@[simp] theorem State.setFlag_drawCount (c : Bool) : (s.setFlag c).drawCount = s.drawCount := rfl
@[simp] theorem State.setFlag_agenda (c : Bool) : (s.setFlag c).agenda = s.agenda := rfl
@[simp] theorem State.setFlag_reply (c : Bool) : (s.setFlag c).reply = s.reply := rfl
@[simp] theorem State.setFlag_params (c : Bool) : (s.setFlag c).params = s.params := rfl

/-! ### `State.setResult` -/

@[simp] theorem State.setResult_i (x : Reg) (r : Nat) (c : Bool) : (s.setResult x r c).i = s.i := rfl
@[simp] theorem State.setResult_pc (x : Reg) (r : Nat) (c : Bool) : (s.setResult x r c).pc = s.pc := rfl
@[simp] theorem State.setResult_sp (x : Reg) (r : Nat) (c : Bool) : (s.setResult x r c).sp = s.sp := rfl
@[simp] theorem State.setResult_dt (x : Reg) (r : Nat) (c : Bool) : (s.setResult x r c).dt = s.dt := rfl
@[simp] theorem State.setResult_st (x : Reg) (r : Nat) (c : Bool) : (s.setResult x r c).st = s.st := rfl
@[simp] theorem State.setResult_stack (x : Reg) (r : Nat) (c : Bool) : (s.setResult x r c).stack = s.stack := rfl
@[simp] theorem State.setResult_fb (x : Reg) (r : Nat) (c : Bool) : (s.setResult x r c).fb = s.fb := rfl
@[simp] theorem State.setResult_keys (x : Reg) (r : Nat) (c : Bool) : (s.setResult x r c).keys = s.keys := rfl
@[simp] theorem State.setResult_lastKey (x : Reg) (r : Nat) (c : Bool) : (s.setResult x r c).lastKey = s.lastKey := rfl
@[simp] theorem State.setResult_run (x : Reg) (r : Nat) (c : Bool) : (s.setResult x r c).run = s.run := rfl
@[simp] theorem State.setResult_waitReg (x : Reg) (r : Nat) (c : Bool) : (s.setResult x r c).waitReg = s.waitReg := rfl
@[simp] theorem State.setResult_waitAddr (x : Reg) (r : Nat) (c : Bool) : (s.setResult x r c).waitAddr = s.waitAddr := rfl
@[simp] theorem State.setResult_fault (x : Reg) (r : Nat) (c : Bool) : (s.setResult x r c).fault = s.fault := rfl
@[simp] theorem State.setResult_breakpoints (x : Reg) (r : Nat) (c : Bool) : (s.setResult x r c).breakpoints = s.breakpoints := rfl
@[simp] theorem State.setResult_mem (x : Reg) (r : Nat) (c : Bool) : (s.setResult x r c).mem = s.mem := rfl
@[simp] theorem State.setResult_draws (x : Reg) (r : Nat) (c : Bool) : (s.setResult x r c).draws = s.draws := rfl
@[simp] theorem State.setResult_drawCount (x : Reg) (r : Nat) (c : Bool) : (s.setResult x r c).drawCount = s.drawCount := rfl
@[simp] theorem State.setResult_agenda (x : Reg) (r : Nat) (c : Bool) : (s.setResult x r c).agenda = s.agenda := rfl
@[simp] theorem State.setResult_reply (x : Reg) (r : Nat) (c : Bool) : (s.setResult x r c).reply = s.reply := rfl
@[simp] theorem State.setResult_params (x : Reg) (r : Nat) (c : Bool) : (s.setResult x r c).params = s.params := rfl

/-! ### `timerTick` -/

@[simp] theorem timerTick_v : (timerTick s).v = s.v := rfl
@[simp] theorem timerTick_i : (timerTick s).i = s.i := rfl
@[simp] theorem timerTick_pc : (timerTick s).pc = s.pc := rfl
@[simp] theorem timerTick_sp : (timerTick s).sp = s.sp := rfl
@[simp] theorem timerTick_dt : (timerTick s).dt = if s.dt ≠ 0 then s.dt - 1 else s.dt := rfl
@[simp] theorem timerTick_st : (timerTick s).st = if s.st ≠ 0 then s.st - 1 else s.st := rfl
@[simp] theorem timerTick_stack : (timerTick s).stack = s.stack := rfl
@[simp] theorem timerTick_fb : (timerTick s).fb = s.fb := rfl
@[simp] theorem timerTick_keys : (timerTick s).keys = s.keys := rfl
@[simp] theorem timerTick_lastKey : (timerTick s).lastKey = s.lastKey := rfl
@[simp] theorem timerTick_run : (timerTick s).run = s.run := rfl
@[simp] theorem timerTick_waitReg : (timerTick s).waitReg = s.waitReg := rfl
@[simp] theorem timerTick_waitAddr : (timerTick s).waitAddr = s.waitAddr := rfl
@[simp] theorem timerTick_fault : (timerTick s).fault = s.fault := rfl
@[simp] theorem timerTick_breakpoints : (timerTick s).breakpoints = s.breakpoints := rfl
@[simp] theorem timerTick_mem : (timerTick s).mem = s.mem := rfl
@[simp] theorem timerTick_draws : (timerTick s).draws = s.draws := rfl
@[simp] theorem timerTick_drawCount : (timerTick s).drawCount = s.drawCount := rfl
@[simp] theorem timerTick_agenda : (timerTick s).agenda = s.agenda := rfl
@[simp] theorem timerTick_reply : (timerTick s).reply = s.reply := rfl
@[simp] theorem timerTick_params : (timerTick s).params = s.params := rfl

/-! ### `raise` -/

@[simp] theorem raise_v (k : FaultKind) (a : Nat) (op : Option Word) : (raise k a op s).v = s.v := rfl
@[simp] theorem raise_i (k : FaultKind) (a : Nat) (op : Option Word) : (raise k a op s).i = s.i := rfl
@[simp] theorem raise_pc (k : FaultKind) (a : Nat) (op : Option Word) : (raise k a op s).pc = s.pc := rfl
@[simp] theorem raise_sp (k : FaultKind) (a : Nat) (op : Option Word) : (raise k a op s).sp = s.sp := rfl
@[simp] theorem raise_dt (k : FaultKind) (a : Nat) (op : Option Word) : (raise k a op s).dt = s.dt := rfl
@[simp] theorem raise_st (k : FaultKind) (a : Nat) (op : Option Word) : (raise k a op s).st = s.st := rfl
@[simp] theorem raise_stack (k : FaultKind) (a : Nat) (op : Option Word) : (raise k a op s).stack = s.stack := rfl
@[simp] theorem raise_fb (k : FaultKind) (a : Nat) (op : Option Word) : (raise k a op s).fb = s.fb := rfl
@[simp] theorem raise_keys (k : FaultKind) (a : Nat) (op : Option Word) : (raise k a op s).keys = s.keys := rfl
@[simp] theorem raise_lastKey (k : FaultKind) (a : Nat) (op : Option Word) : (raise k a op s).lastKey = s.lastKey := rfl
@[simp] theorem raise_run (k : FaultKind) (a : Nat) (op : Option Word) : (raise k a op s).run = .halted := rfl
@[simp] theorem raise_waitReg (k : FaultKind) (a : Nat) (op : Option Word) : (raise k a op s).waitReg = s.waitReg := rfl
@[simp] theorem raise_waitAddr (k : FaultKind) (a : Nat) (op : Option Word) : (raise k a op s).waitAddr = s.waitAddr := rfl
@[simp] theorem raise_fault (k : FaultKind) (a : Nat) (op : Option Word) : (raise k a op s).fault = some { kind := k, addr := a, op := op } := rfl
@[simp] theorem raise_breakpoints (k : FaultKind) (a : Nat) (op : Option Word) : (raise k a op s).breakpoints = s.breakpoints := rfl
@[simp] theorem raise_mem (k : FaultKind) (a : Nat) (op : Option Word) : (raise k a op s).mem = s.mem := rfl
@[simp] theorem raise_draws (k : FaultKind) (a : Nat) (op : Option Word) : (raise k a op s).draws = s.draws := rfl
@[simp] theorem raise_drawCount (k : FaultKind) (a : Nat) (op : Option Word) : (raise k a op s).drawCount = s.drawCount := rfl
@[simp] theorem raise_agenda (k : FaultKind) (a : Nat) (op : Option Word) : (raise k a op s).agenda = s.agenda := rfl
@[simp] theorem raise_reply (k : FaultKind) (a : Nat) (op : Option Word) : (raise k a op s).reply = s.reply := rfl
@[simp] theorem raise_params (k : FaultKind) (a : Nat) (op : Option Word) : (raise k a op s).params = s.params := rfl

/-! ### `raiseAt` -/

@[simp] theorem raiseAt_v (k : FaultKind) (op : Word) : (raiseAt k op s).v = s.v := rfl
@[simp] theorem raiseAt_i (k : FaultKind) (op : Word) : (raiseAt k op s).i = s.i := rfl
@[simp] theorem raiseAt_pc (k : FaultKind) (op : Word) : (raiseAt k op s).pc = s.pc := rfl
@[simp] theorem raiseAt_sp (k : FaultKind) (op : Word) : (raiseAt k op s).sp = s.sp := rfl
@[simp] theorem raiseAt_dt (k : FaultKind) (op : Word) : (raiseAt k op s).dt = s.dt := rfl
@[simp] theorem raiseAt_st (k : FaultKind) (op : Word) : (raiseAt k op s).st = s.st := rfl
@[simp] theorem raiseAt_stack (k : FaultKind) (op : Word) : (raiseAt k op s).stack = s.stack := rfl
@[simp] theorem raiseAt_fb (k : FaultKind) (op : Word) : (raiseAt k op s).fb = s.fb := rfl
@[simp] theorem raiseAt_keys (k : FaultKind) (op : Word) : (raiseAt k op s).keys = s.keys := rfl
@[simp] theorem raiseAt_lastKey (k : FaultKind) (op : Word) : (raiseAt k op s).lastKey = s.lastKey := rfl
@[simp] theorem raiseAt_run (k : FaultKind) (op : Word) : (raiseAt k op s).run = .halted := rfl
@[simp] theorem raiseAt_waitReg (k : FaultKind) (op : Word) : (raiseAt k op s).waitReg = s.waitReg := rfl
@[simp] theorem raiseAt_waitAddr (k : FaultKind) (op : Word) : (raiseAt k op s).waitAddr = s.waitAddr := rfl
@[simp] theorem raiseAt_fault (k : FaultKind) (op : Word) : (raiseAt k op s).fault = some { kind := k, addr := s.instrAddr, op := some op } := rfl
@[simp] theorem raiseAt_breakpoints (k : FaultKind) (op : Word) : (raiseAt k op s).breakpoints = s.breakpoints := rfl
@[simp] theorem raiseAt_mem (k : FaultKind) (op : Word) : (raiseAt k op s).mem = s.mem := rfl
@[simp] theorem raiseAt_draws (k : FaultKind) (op : Word) : (raiseAt k op s).draws = s.draws := rfl
@[simp] theorem raiseAt_drawCount (k : FaultKind) (op : Word) : (raiseAt k op s).drawCount = s.drawCount := rfl
@[simp] theorem raiseAt_agenda (k : FaultKind) (op : Word) : (raiseAt k op s).agenda = s.agenda := rfl
@[simp] theorem raiseAt_reply (k : FaultKind) (op : Word) : (raiseAt k op s).reply = s.reply := rfl
@[simp] theorem raiseAt_params (k : FaultKind) (op : Word) : (raiseAt k op s).params = s.params := rfl

/-! ### `State.skipIf` -/

@[simp] theorem State.skipIf_v (c : Bool) : (s.skipIf c).v = s.v := by cases c <;> rfl
@[simp] theorem State.skipIf_i (c : Bool) : (s.skipIf c).i = s.i := by cases c <;> rfl
@[simp] theorem State.skipIf_pc (c : Bool) : (s.skipIf c).pc = if c then (s.pc + 2) % 2 ^ s.params.pcWidth else s.pc := by cases c <;> rfl
@[simp] theorem State.skipIf_sp (c : Bool) : (s.skipIf c).sp = s.sp := by cases c <;> rfl
@[simp] theorem State.skipIf_dt (c : Bool) : (s.skipIf c).dt = s.dt := by cases c <;> rfl
@[simp] theorem State.skipIf_st (c : Bool) : (s.skipIf c).st = s.st := by cases c <;> rfl
@[simp] theorem State.skipIf_stack (c : Bool) : (s.skipIf c).stack = s.stack := by cases c <;> rfl
@[simp] theorem State.skipIf_fb (c : Bool) : (s.skipIf c).fb = s.fb := by cases c <;> rfl
@[simp] theorem State.skipIf_keys (c : Bool) : (s.skipIf c).keys = s.keys := by cases c <;> rfl
@[simp] theorem State.skipIf_lastKey (c : Bool) : (s.skipIf c).lastKey = s.lastKey := by cases c <;> rfl
@[simp] theorem State.skipIf_run (c : Bool) : (s.skipIf c).run = s.run := by cases c <;> rfl
@[simp] theorem State.skipIf_waitReg (c : Bool) : (s.skipIf c).waitReg = s.waitReg := by cases c <;> rfl
@[simp] theorem State.skipIf_waitAddr (c : Bool) : (s.skipIf c).waitAddr = s.waitAddr := by cases c <;> rfl
@[simp] theorem State.skipIf_fault (c : Bool) : (s.skipIf c).fault = s.fault := by cases c <;> rfl
@[simp] theorem State.skipIf_breakpoints (c : Bool) : (s.skipIf c).breakpoints = s.breakpoints := by cases c <;> rfl
@[simp] theorem State.skipIf_mem (c : Bool) : (s.skipIf c).mem = s.mem := by cases c <;> rfl
@[simp] theorem State.skipIf_draws (c : Bool) : (s.skipIf c).draws = s.draws := by cases c <;> rfl
@[simp] theorem State.skipIf_drawCount (c : Bool) : (s.skipIf c).drawCount = s.drawCount := by cases c <;> rfl
@[simp] theorem State.skipIf_agenda (c : Bool) : (s.skipIf c).agenda = s.agenda := by cases c <;> rfl
@[simp] theorem State.skipIf_reply (c : Bool) : (s.skipIf c).reply = s.reply := by cases c <;> rfl
@[simp] theorem State.skipIf_params (c : Bool) : (s.skipIf c).params = s.params := by cases c <;> rfl

/-! ### `State.storeBytes` -/

@[simp] theorem State.storeBytes_mem (a : Nat) (l : List Byte) :
    (s.storeBytes a l).mem = s.mem.writeBytes s.params a l := rfl
@[simp] theorem State.storeBytes_params (a : Nat) (l : List Byte) : (s.storeBytes a l).params = s.params := rfl
@[simp] theorem State.storeBytes_v (a : Nat) (l : List Byte) : (s.storeBytes a l).v = s.v := rfl
@[simp] theorem State.storeBytes_i (a : Nat) (l : List Byte) : (s.storeBytes a l).i = s.i := rfl
@[simp] theorem State.storeBytes_pc (a : Nat) (l : List Byte) : (s.storeBytes a l).pc = s.pc := rfl
@[simp] theorem State.storeBytes_sp (a : Nat) (l : List Byte) : (s.storeBytes a l).sp = s.sp := rfl
@[simp] theorem State.storeBytes_dt (a : Nat) (l : List Byte) : (s.storeBytes a l).dt = s.dt := rfl
@[simp] theorem State.storeBytes_st (a : Nat) (l : List Byte) : (s.storeBytes a l).st = s.st := rfl
@[simp] theorem State.storeBytes_stack (a : Nat) (l : List Byte) : (s.storeBytes a l).stack = s.stack := rfl
@[simp] theorem State.storeBytes_fb (a : Nat) (l : List Byte) : (s.storeBytes a l).fb = s.fb := rfl
@[simp] theorem State.storeBytes_keys (a : Nat) (l : List Byte) : (s.storeBytes a l).keys = s.keys := rfl
@[simp] theorem State.storeBytes_lastKey (a : Nat) (l : List Byte) : (s.storeBytes a l).lastKey = s.lastKey := rfl
@[simp] theorem State.storeBytes_run (a : Nat) (l : List Byte) : (s.storeBytes a l).run = s.run := rfl
@[simp] theorem State.storeBytes_waitReg (a : Nat) (l : List Byte) : (s.storeBytes a l).waitReg = s.waitReg := rfl
@[simp] theorem State.storeBytes_waitAddr (a : Nat) (l : List Byte) : (s.storeBytes a l).waitAddr = s.waitAddr := rfl
@[simp] theorem State.storeBytes_fault (a : Nat) (l : List Byte) : (s.storeBytes a l).fault = s.fault := rfl
@[simp] theorem State.storeBytes_breakpoints (a : Nat) (l : List Byte) : (s.storeBytes a l).breakpoints = s.breakpoints := rfl
@[simp] theorem State.storeBytes_draws (a : Nat) (l : List Byte) : (s.storeBytes a l).draws = s.draws := rfl
@[simp] theorem State.storeBytes_drawCount (a : Nat) (l : List Byte) : (s.storeBytes a l).drawCount = s.drawCount := rfl
@[simp] theorem State.storeBytes_agenda (a : Nat) (l : List Byte) : (s.storeBytes a l).agenda = s.agenda := rfl
@[simp] theorem State.storeBytes_reply (a : Nat) (l : List Byte) : (s.storeBytes a l).reply = s.reply := rfl
@[simp] theorem State.getV_storeBytes (a : Nat) (l : List Byte) (q : Reg) : (s.storeBytes a l).getV q = s.getV q := rfl

/-! ### General registers -/

/-- Two register numbers are the same when their values are. -/
theorem reg_toNat_inj {r q : Reg} : r.toNat = q.toNat ↔ r = q := BitVec.toNat_inj

/-- A register read after a write: the value written, narrowed, in the register written where the machine has it, the
old one elsewhere (10_state R15; log 27). -/
theorem State.getV_setV (r q : Reg) (n : Nat) :
    (s.setV r n).getV q = if q = r ∧ r.toNat < s.v.length then n % 2 ^ s.params.vWidth else s.getV q := by
  simp only [State.getV, State.setV_v, State.setV_params, List.getElem?_set, reg_toNat_inj]
  by_cases hq : r = q
  · subst hq
    by_cases hl : r.toNat < s.v.length
    · simp [hl]
    · simp [hl]
  · simp [hq, Ne.symm hq]

/-- The register written. -/
theorem State.getV_setV_self {r : Reg} (h : r.toNat < s.v.length) (n : Nat) :
    (s.setV r n).getV r = n % 2 ^ s.params.vWidth := by
  rw [State.getV_setV, if_pos ⟨rfl, h⟩]

/-- Every other register. -/
theorem State.getV_setV_ne {r q : Reg} (h : q ≠ r) (n : Nat) : (s.setV r n).getV q = s.getV q := by
  rw [State.getV_setV, if_neg fun hc => h hc.1]

@[simp] theorem State.length_setV (r : Reg) (n : Nat) : (s.setV r n).v.length = s.v.length := List.length_set

@[simp] theorem State.length_setFlag (c : Bool) : (s.setFlag c).v.length = s.v.length := List.length_set

/-- Reading `V` looks at the register file and the parameters alone. -/
theorem State.getV_congr {s t : State} (h : t.v = s.v) (hp : t.params = s.params) (q : Reg) : t.getV q = s.getV q := by
  simp only [State.getV, h, hp]

@[simp] theorem State.getV_setI (n : Nat) (q : Reg) : (s.setI n).getV q = s.getV q := rfl
@[simp] theorem State.getV_setPC (n : Nat) (q : Reg) : (s.setPC n).getV q = s.getV q := rfl
@[simp] theorem State.getV_setDT (n : Nat) (q : Reg) : (s.setDT n).getV q = s.getV q := rfl
@[simp] theorem State.getV_setST (n : Nat) (q : Reg) : (s.setST n).getV q = s.getV q := rfl
@[simp] theorem State.getV_advance (q : Reg) : s.advance.getV q = s.getV q := rfl
@[simp] theorem State.getV_setKey (k : Nat) (d : Bool) (q : Reg) : (s.setKey k d).getV q = s.getV q := rfl
@[simp] theorem State.getV_timerTick (q : Reg) : (timerTick s).getV q = s.getV q := rfl
@[simp] theorem State.getV_raise (k : FaultKind) (a : Nat) (op : Option Word) (q : Reg) :
    (raise k a op s).getV q = s.getV q := rfl
@[simp] theorem State.getV_raiseAt (k : FaultKind) (op : Word) (q : Reg) : (raiseAt k op s).getV q = s.getV q := rfl
@[simp] theorem State.getV_skipIf (c : Bool) (q : Reg) : (s.skipIf c).getV q = s.getV q := by cases c <;> rfl

/-- `VF` after a flag write. -/
theorem State.getV_setFlag_vf (h : VF.toNat < s.v.length) (c : Bool) :
    (s.setFlag c).getV VF = flagValue c % 2 ^ s.params.vWidth := s.getV_setV_self h _

/-- Every other register after a flag write (10_state R16). -/
theorem State.getV_setFlag_ne {q : Reg} (h : q ≠ VF) (c : Bool) : (s.setFlag c).getV q = s.getV q :=
  s.getV_setV_ne h _

/-- A result and its flag: the flag in `VF` (42_alu R89). -/
theorem State.getV_setResult_vf (h : VF.toNat < s.v.length) (x : Reg) (r : Nat) (c : Bool) :
    (s.setResult x r c).getV VF = flagValue c % 2 ^ s.params.vWidth :=
  (s.setV x r).getV_setFlag_vf (by rwa [State.length_setV]) c

/-- The result in `Vx` unless `x` is `VF`. -/
theorem State.getV_setResult_self {x : Reg} (h : x.toNat < s.v.length) (hx : x ≠ VF) (r : Nat) (c : Bool) :
    (s.setResult x r c).getV x = r % 2 ^ s.params.vWidth := by
  rw [State.setResult, State.getV_setFlag_ne _ hx, State.getV_setV_self _ h]

/-- Every other register as before. -/
theorem State.getV_setResult_ne {x q : Reg} (hx : q ≠ x) (hf : q ≠ VF) (r : Nat) (c : Bool) :
    (s.setResult x r c).getV q = s.getV q := by
  rw [State.setResult, State.getV_setFlag_ne _ hf, State.getV_setV_ne _ hx]

/-! ### The address of the instruction -/

/-- The address an instruction recovers from its advanced `PC` is the one it was fetched from (log 12). -/
theorem State.instrAddr_advance : s.advance.instrAddr = s.pc % 2 ^ s.params.pcWidth := by
  simp only [State.instrAddr, State.advance_pc, State.advance_params]
  rcases Nat.eq_zero_or_pos s.params.pcWidth with h | h
  · simp [h, Nat.mod_one]
  · have h2 : 2 ≤ 2 ^ s.params.pcWidth := Nat.le_self_pow (by omega) 2
    rw [Nat.mod_add_mod, show s.pc + 2 + (2 ^ s.params.pcWidth - 2) = s.pc + 2 ^ s.params.pcWidth by omega,
      Nat.add_mod_right]

/-! ### Keys -/

/-- A key read after a notification (10_state R28). -/
theorem State.keyIsDown_setKey (k q : Nat) (d : Bool) :
    (s.setKey k d).keyIsDown q = if q = k ∧ k < s.keys.length then d else s.keyIsDown q := by
  simp only [State.keyIsDown, State.setKey_keys, List.getElem?_set]
  by_cases hq : k = q
  · subst hq
    by_cases hl : k < s.keys.length
    · simp [hl]
    · simp [hl]
  · simp [hq, Ne.symm hq]

end Sys2Proof.Machine
end

