-- ==== Sys2Proof/Laws/Memory.lean ====
section
/-!
SUPPORT. Memory: read after write, the canonical form kept by every operation, the font out of reach, and what
`CheckStore` says over a range (20_memory R40 to R44), for every value of the parameters.
-/

namespace Sys2Proof.Machine

variable {p : Config.Params}

/-! ### Cells -/

/-- Lookup after an insertion. -/
theorem cellLookup_insert (l : List Host.Cell) (a b : Nat) (v : Byte) :
    cellLookup (cellInsert l a v) b = if b = a then some v else cellLookup l b := by
  induction l with
  | nil => simp [cellInsert, cellLookup]
  | cons c rest ih =>
    obtain ⟨x, w⟩ := c
    simp only [cellInsert]
    split
    · rfl
    · split
      · rename_i h; subst h; simp only [cellLookup]; split <;> rfl
      · simp only [cellLookup, ih]
        by_cases hx : b = x
        · subst hx; rw [if_pos rfl, if_pos rfl, if_neg (by omega)]
        · simp [hx]

/-- Lookup after an erasure. -/
theorem cellLookup_erase (l : List Host.Cell) (a b : Nat) :
    cellLookup (cellErase l a) b = if b = a then none else cellLookup l b := by
  induction l with
  | nil => simp [cellErase, cellLookup]
  | cons c rest ih =>
    obtain ⟨x, w⟩ := c
    simp only [cellErase] at ih
    by_cases hx : x = a
    · subst hx
      simp only [cellErase, List.filter_cons, ne_eq, not_true_eq_false, decide_false, Bool.false_eq_true, if_false, ih,
        cellLookup]
      split <;> rfl
    · simp only [cellErase, List.filter_cons, ne_eq, hx, not_false_eq_true, decide_true, if_true, cellLookup, ih]
      by_cases hb : b = x
      · subst hb; rw [if_pos rfl, if_pos rfl, if_neg hx]
      · simp [hb]

/-- What an insertion may list. -/
theorem mem_cellInsert {l : List Host.Cell} {a : Nat} {v : Byte} {c : Host.Cell} (h : c ∈ cellInsert l a v) :
    c = (a, v) ∨ c ∈ l := by
  induction l with
  | nil => exact .inl (by simpa [cellInsert] using h)
  | cons d rest ih =>
    obtain ⟨x, w⟩ := d
    simp only [cellInsert] at h
    split at h
    · simpa using h
    · split at h
      · rcases List.mem_cons.1 h with rfl | h
        · exact .inl rfl
        · exact .inr (by simp [h])
      · rcases List.mem_cons.1 h with rfl | h
        · exact .inr (by simp)
        · exact (ih h).imp id (List.mem_cons_of_mem _)

/-- An insertion keeps the addresses rising. -/
theorem cellInsert_rising {l : List Host.Cell} (h : l.Pairwise (fun c d => c.1 < d.1)) (a : Nat) (v : Byte) :
    (cellInsert l a v).Pairwise (fun c d => c.1 < d.1) := by
  induction l with
  | nil => simp [cellInsert]
  | cons c rest ih =>
    obtain ⟨x, w⟩ := c
    rw [List.pairwise_cons] at h
    simp only [cellInsert]
    split
    · rename_i hlt
      refine List.pairwise_cons.2 ⟨?_, List.pairwise_cons.2 h⟩
      intro d hd
      rcases List.mem_cons.1 hd with rfl | hd
      · exact hlt
      · exact Nat.lt_trans hlt (h.1 d hd)
    · split
      · rename_i heq; subst heq; exact List.pairwise_cons.2 h
      · rename_i h1 h2
        refine List.pairwise_cons.2 ⟨fun d hd => ?_, ih h.2⟩
        rcases mem_cellInsert hd with rfl | hd
        · simp only; omega
        · exact h.1 d hd

/-! ### One byte -/

/-- An address an instruction may store to (R43): inside memory and past the font. -/
theorem checkStore_eq_none {a : Nat} : checkStore p a = none ↔ p.fontEnd ≤ a ∧ a < p.memCapacity := by
  unfold checkStore
  split
  · simp; omega
  · split
    · simp; omega
    · simp; omega

/-- The two faults of `CheckStore`, the first before the second (R43). -/
theorem checkStore_eq_some {a : Nat} {k : FaultKind} :
    checkStore p a = some k ↔
      (p.memCapacity ≤ a ∧ k = .memWriteOutOfBounds a) ∨ (a < p.memCapacity ∧ a < p.fontEnd ∧ k = .fontWrite a) := by
  unfold checkStore
  split
  · rename_i h
    have hlt : ¬a < p.memCapacity := by omega
    simp only [Option.some.injEq, h, hlt, true_and, false_and, or_false, eq_comm]
  · rename_i h
    have hlt : a < p.memCapacity := by omega
    split
    · rename_i hlo
      simp only [Option.some.injEq, h, hlt, hlo, true_and, false_and, false_or, eq_comm]
    · rename_i hlo
      simp only [reduceCtorEq, h, hlo, false_and, and_false, or_self]

@[simp] theorem Memory.unlisted_write (m : Memory) (a b : Nat) (v : Byte) :
    (m.write p a v).unlisted p b = m.unlisted p b := by
  unfold Memory.write; split <;> rfl

/-- Outside memory every byte reads 0 (R42). -/
theorem Memory.read_of_capacity_le (m : Memory) {a : Nat} (h : p.memCapacity ≤ a) : m.read p a = 0#8 := by
  simp only [Memory.read, if_neg (Nat.not_lt.2 h)]

/-- In memory the font table reads as it is built in, whatever memory holds (R40). -/
theorem Memory.read_font (m : Memory) {a : Nat} (h : a < p.memCapacity) (hf : p.inFont a) :
    m.read p a = fontByte p a := by
  simp only [Memory.read, if_pos h, if_pos hf]

/-- Read after write: the byte written at its address, every other byte as before (20_memory R53). -/
theorem Memory.read_write (m : Memory) (a b : Nat) (v : Byte) (ha : p.fontEnd ≤ a ∧ a < p.memCapacity) :
    (m.write p a v).read p b = if b = a then v else m.read p b := by
  by_cases hcap : b < p.memCapacity
  · by_cases hfont : p.inFont b
    · rw [Memory.read_font _ hcap hfont, Memory.read_font _ hcap hfont, if_neg (by have := hfont.2; omega)]
    · unfold Memory.write
      split
      · rename_i hv
        simp only [Memory.read, if_pos hcap, if_neg hfont, cellLookup_erase]
        by_cases hb : b = a
        · subst hb
          have hu : ({ m with cells := cellErase m.cells b } : Memory).unlisted p b = some v := hv
          simp only [if_true, hu, Option.getD_some]
        · simp only [if_neg hb]; rfl
      · simp only [Memory.read, if_pos hcap, if_neg hfont, cellLookup_insert]
        by_cases hb : b = a
        · simp only [if_pos hb]
        · simp only [if_neg hb]; rfl
  · rw [Memory.read_of_capacity_le _ (Nat.not_lt.1 hcap), Memory.read_of_capacity_le _ (Nat.not_lt.1 hcap),
      if_neg (by omega)]

/-- A write at an address that passed `CheckStore` keeps the canonical form. -/
theorem Memory.write_wf {m : Memory} (h : m.wf p) {a : Nat} (ha : checkStore p a = none) (v : Byte) :
    (m.write p a v).wf p := by
  rw [checkStore_eq_none] at ha
  unfold Memory.write
  split
  · exact ⟨h.1.filter _, fun c hc => h.2 c (List.mem_of_mem_filter hc)⟩
  · rename_i hv
    refine ⟨cellInsert_rising h.1 a v, fun c hc => ?_⟩
    rcases mem_cellInsert hc with rfl | hc
    · exact ⟨ha.1, ha.2, hv⟩
    · exact h.2 c hc

/-! ### A run of bytes -/

/-- `CheckStore` passes a range exactly when every address of it is inside memory and past the font. -/
theorem checkStores_eq_none {a n : Nat} :
    checkStores p a n = none ↔ ∀ k, k < n → p.fontEnd ≤ a + k ∧ a + k < p.memCapacity := by
  induction n generalizing a with
  | zero => simp [checkStores]
  | succ n ih =>
    simp only [checkStores]
    split
    · rename_i k hk
      simp only [reduceCtorEq, false_iff]
      intro hall
      rw [checkStore_eq_none.2 (by simpa using hall 0 (by omega))] at hk
      cases hk
    · rename_i hk
      rw [ih]
      rw [checkStore_eq_none] at hk
      constructor
      · intro h k hkn
        cases k with
        | zero => simpa using hk
        | succ k => have := h k (by omega); omega
      · intro h k hkn
        have := h (k + 1) (by omega)
        omega

/-- The fault of a range is that of its first failing address (60_exceptions R119). -/
theorem checkStores_eq_some {a n : Nat} {f : FaultKind} (h : checkStores p a n = some f) :
    ∃ k, k < n ∧ (∀ j, j < k → checkStore p (a + j) = none) ∧ checkStore p (a + k) = some f := by
  induction n generalizing a with
  | zero => simp [checkStores] at h
  | succ n ih =>
    simp only [checkStores] at h
    split at h
    · rename_i g hg
      exact ⟨0, by omega, fun j hj => by omega, by simpa using hg.trans h⟩
    · rename_i hg
      obtain ⟨k, hk, hbefore, hat⟩ := ih h
      refine ⟨k + 1, by omega, fun j hj => ?_, by rwa [show a + (k + 1) = a + 1 + k by omega]⟩
      cases j with
      | zero => simpa using hg
      | succ j => rw [show a + (j + 1) = a + 1 + j by omega]; exact hbefore j (by omega)

/-- A range passes when its ends do. -/
theorem checkStores_eq_none_of_ends {a n : Nat} (hlo : p.fontEnd ≤ a) (hhi : a + n ≤ p.memCapacity) :
    checkStores p a n = none := checkStores_eq_none.2 fun _ _ => ⟨by omega, by omega⟩

/-- Writing bytes at addresses that passed `CheckStore` keeps the canonical form. -/
theorem Memory.writeBytes_wf {m : Memory} (h : m.wf p) {a : Nat} {bytes : List Byte}
    (ha : checkStores p a bytes.length = none) : (m.writeBytes p a bytes).wf p := by
  induction bytes generalizing m a with
  | nil => exact h
  | cons v vs ih =>
    simp only [List.length_cons, checkStores] at ha
    split at ha
    · cases ha
    · rename_i hv
      exact ih (Memory.write_wf h hv v) ha

/-- A byte read after a run of writes: the byte written there, or the old one outside the run. -/
theorem Memory.read_writeBytes (m : Memory) {a : Nat} {bytes : List Byte}
    (ha : checkStores p a bytes.length = none) (b : Nat) :
    (m.writeBytes p a bytes).read p b =
      if hb : a ≤ b ∧ b - a < bytes.length then bytes[b - a]'hb.2 else m.read p b := by
  induction bytes generalizing m a with
  | nil => simp [Memory.writeBytes]
  | cons v vs ih =>
    simp only [List.length_cons, checkStores] at ha
    split at ha
    · cases ha
    · rename_i hv
      rw [Memory.writeBytes, ih (m.write p a v) ha, Memory.read_write m a b v (checkStore_eq_none.1 hv)]
      by_cases hb : b = a
      · subst hb
        rw [dif_neg (by omega), dif_pos (by simp)]
        simp
      · by_cases hr : a + 1 ≤ b ∧ b - (a + 1) < vs.length
        · rw [dif_pos hr, dif_pos (by simp only [List.length_cons]; omega)]
          obtain ⟨d, rfl⟩ : ∃ d, b = a + 1 + d := ⟨b - (a + 1), by omega⟩
          have e1 : a + 1 + d - (a + 1) = d := by omega
          have e2 : a + 1 + d - a = d + 1 := by omega
          simp only [e1, e2, List.getElem_cons_succ]
        · rw [dif_neg hr, dif_neg (by simp only [List.length_cons]; omega), if_neg hb]

/-- A byte outside a run of stored bytes reads as before. -/
theorem State.memRead_storeBytes_outside (s : State) {a : Nat} {bytes : List Byte}
    (ha : checkStores s.params a bytes.length = none) {b : Nat} (hb : b < a ∨ a + bytes.length ≤ b) :
    (s.storeBytes a bytes).memRead b = s.memRead b := by
  show (s.mem.writeBytes s.params a bytes).read s.params b = _
  rw [Memory.read_writeBytes _ ha, dif_neg (by omega)]; rfl

/-- A byte of a run of stored bytes reads as stored. -/
theorem State.memRead_storeBytes_at (s : State) {a : Nat} {bytes : List Byte}
    (ha : checkStores s.params a bytes.length = none) {k : Nat} (hk : k < bytes.length) :
    (s.storeBytes a bytes).memRead (a + k) = bytes[k] := by
  show (s.mem.writeBytes s.params a bytes).read s.params (a + k) = _
  rw [Memory.read_writeBytes _ ha, dif_pos (by omega)]
  simp

/-- Reading memory looks at memory and the parameters alone. -/
theorem State.memRead_congr {s t : State} (hm : t.mem = s.mem) (hp : t.params = s.params) (a : Nat) :
    t.memRead a = s.memRead a := by simp only [State.memRead, hm, hp]

/-- The bytes read from an address up. -/
theorem State.getElem?_readBytes (s : State) (a n k : Nat) :
    (s.readBytes a n)[k]? = if k < n then some (s.memRead (a + k)) else none := by
  induction n generalizing a k with
  | zero => simp [State.readBytes]
  | succ n ih =>
    cases k with
    | zero => simp [State.readBytes]
    | succ k =>
      simp only [State.readBytes, List.getElem?_cons_succ, ih, Nat.add_lt_add_iff_right, Nat.add_right_comm a 1 k,
        Nat.add_assoc]

@[simp] theorem State.length_readBytes (s : State) (a n : Nat) : (s.readBytes a n).length = n := by
  induction n generalizing a with
  | zero => rfl
  | succ n ih => simp [State.readBytes, ih]

/-- Reading bytes looks at memory and the parameters alone. -/
theorem State.readBytes_congr {s t : State} (hm : t.mem = s.mem) (hp : t.params = s.params) (a n : Nat) :
    t.readBytes a n = s.readBytes a n := by
  induction n generalizing a with
  | zero => rfl
  | succ n ih => simp only [State.readBytes, State.memRead_congr hm hp, ih]

end Sys2Proof.Machine
end

