-- ==== Sys2Proof/Laws/Framebuffer.lean ====
section
/-!
SUPPORT. The framebuffer primitives (10_state R25) and the form they keep, and what drawing a sprite does to every cell
(44_display R109), for every value of the parameters.
-/

namespace Sys2Proof.Machine

variable {p : Config.Params}

/-! ### Rising lists -/

/-- Membership after an insertion. -/
theorem mem_insertRising {α : Type} [DecidableEq α] {before : α → α → Bool} {l : List α} {a b : α} :
    b ∈ insertRising before l a ↔ b = a ∨ b ∈ l := by
  induction l with
  | nil => simp [insertRising]
  | cons c rest ih =>
    simp only [insertRising]
    split
    · simp
    · split
      · rename_i h; subst h; simp
      · simp only [List.mem_cons, ih]; tauto

/-- An insertion keeps a list rising, where the order is total and transitive. -/
theorem insertRising_rising {α : Type} [DecidableEq α] {before : α → α → Bool}
    (total : ∀ a b, before a b = false → a ≠ b → before b a = true)
    (trans : ∀ a b c, before a b = true → before b c = true → before a c = true) {l : List α}
    (h : l.Pairwise (fun a b => before a b = true)) (a : α) :
    (insertRising before l a).Pairwise (fun a b => before a b = true) := by
  induction l with
  | nil => simp [insertRising]
  | cons c rest ih =>
    rw [List.pairwise_cons] at h
    simp only [insertRising]
    split
    · rename_i hlt
      refine List.pairwise_cons.2 ⟨fun d hd => ?_, List.pairwise_cons.2 h⟩
      rcases List.mem_cons.1 hd with rfl | hd
      · exact hlt
      · exact trans _ _ _ hlt (h.1 d hd)
    · split
      · exact List.pairwise_cons.2 h
      · rename_i hlt hne
        refine List.pairwise_cons.2 ⟨fun d hd => ?_, ih h.2⟩
        rcases mem_insertRising.1 hd with rfl | hd
        · exact total _ _ (by simpa using hlt) hne
        · exact h.1 d hd

/-- Inserting an element that is there changes nothing, where the order is strict. -/
theorem insertRising_of_mem {α : Type} [DecidableEq α] {before : α → α → Bool}
    (asymm : ∀ a b, before a b = true → before b a = false) {l : List α}
    (h : l.Pairwise (fun a b => before a b = true)) {a : α} (ha : a ∈ l) : insertRising before l a = l := by
  induction l with
  | nil => simp at ha
  | cons c rest ih =>
    rw [List.pairwise_cons] at h
    simp only [insertRising]
    rcases List.mem_cons.1 ha with rfl | hm
    · have : ¬before a a = true := fun e => by have := asymm _ _ e; rw [e] at this; cases this
      rw [if_neg this, if_pos rfl]
    · have hca := h.1 a hm
      have hac := asymm _ _ hca
      have hne : a ≠ c := by rintro rfl; rw [hac] at hca; cases hca
      rw [if_neg (by rw [hac]; decide), if_neg hne, ih h.2 hm]

/-- Two rising lists with the same elements are the same, where the order is strict. -/
theorem eq_of_rising {α : Type} {before : α → α → Bool} (asymm : ∀ a b, before a b = true → before b a = false)
    {l m : List α} (hl : l.Pairwise (fun a b => before a b = true)) (hm : m.Pairwise (fun a b => before a b = true))
    (h : ∀ a, a ∈ l ↔ a ∈ m) : l = m := by
  have irrefl : ∀ a, ¬before a a = true := fun a e => by have := asymm _ _ e; rw [e] at this; cases this
  have nodup : ∀ {n : List α}, n.Pairwise (fun a b => before a b = true) → n.Nodup := fun hn =>
    hn.imp (fun {a b} hab => by rintro rfl; exact irrefl a hab)
  refine ((List.perm_ext_iff_of_nodup (nodup hl) (nodup hm)).2 h).eq_of_pairwise ?_ hl hm
  intro a b _ _ hab hba
  rw [asymm _ _ hab] at hba; cases hba

/-! ### The order of the cells -/

theorem cellBefore_iff {c d : Nat × Nat} : cellBefore c d = true ↔ c.1 < d.1 ∨ c.1 = d.1 ∧ c.2 < d.2 := by
  simp [cellBefore]

theorem cellBefore_total (c d : Nat × Nat) (h : cellBefore c d = false) (hne : c ≠ d) : cellBefore d c = true := by
  rw [cellBefore_iff]
  have hn : ¬cellBefore c d = true := by rw [h]; decide
  rw [cellBefore_iff] at hn
  have : ¬(c.1 = d.1 ∧ c.2 = d.2) := fun e => hne (Prod.ext e.1 e.2)
  omega

theorem cellBefore_trans (c d e : Nat × Nat) (h : cellBefore c d = true) (h' : cellBefore d e = true) :
    cellBefore c e = true := by
  rw [cellBefore_iff] at *; omega

theorem cellBefore_asymm (c d : Nat × Nat) (h : cellBefore c d = true) : cellBefore d c = false := by
  rw [← Bool.not_eq_true]; rw [cellBefore_iff] at *; omega

/-! ### The primitives -/

/-- Two coordinates name the same cell: they wrap to the same place (10_state R25). -/
def sameCell (p : Config.Params) (c d : Nat × Nat) : Prop := wrapCell p c.1 c.2 = wrapCell p d.1 d.2

/-- Whether two coordinates name the same cell, as a truth value. -/
def hitsCell (p : Config.Params) (c d : Nat × Nat) : Bool := decide (wrapCell p c.1 c.2 = wrapCell p d.1 d.2)

theorem fbGet_eq_true {fb : Framebuffer} {x y : Nat} : fbGet p fb x y = true ↔ wrapCell p x y ∈ fb := by
  simp [fbGet]

/-- A cell read after a plain write (R25). -/
theorem fbGet_fbSetPlain (fb : Framebuffer) (x y cx cy : Nat) (b : Bool) :
    fbGet p (fbSetPlain p fb x y b) cx cy = if wrapCell p x y = wrapCell p cx cy then b else fbGet p fb cx cy := by
  rw [Bool.eq_iff_iff]
  cases b with
  | true =>
    simp only [fbSetPlain, if_true, fbGet_eq_true, mem_insertRising]
    split
    · rename_i h; simp [h]
    · rename_i h; simp [fbGet_eq_true, Ne.symm h]
  | false =>
    simp only [fbSetPlain, Bool.false_eq_true, if_false, fbGet_eq_true, List.mem_filter]
    split
    · rename_i h; simp [h]
    · rename_i h; simp [fbGet_eq_true, Ne.symm h]

/-- A cell read after an XOR (R25). -/
theorem fbGet_fbXor (fb : Framebuffer) (x y cx cy : Nat) (b : Bool) :
    fbGet p (fbXor p fb x y b) cx cy =
      if wrapCell p x y = wrapCell p cx cy then fbGet p fb cx cy ^^ b else fbGet p fb cx cy := by
  simp only [fbXor, fbGet_fbSetPlain]
  split
  · rename_i h; simp only [fbGet, h]
  · rfl

/-- An XOR with `true` flips the cell it names and leaves every other. -/
theorem fbGet_fbXor_true (fb : Framebuffer) (c : Nat × Nat) (cx cy : Nat) :
    fbGet p (fbXor p fb c.1 c.2 true) cx cy = (fbGet p fb cx cy ^^ hitsCell p c (cx, cy)) := by
  rw [fbGet_fbXor]
  by_cases h : wrapCell p c.1 c.2 = wrapCell p cx cy <;> simp [hitsCell, h]

/-- Every cell of a cleared framebuffer is off (R25). -/
@[simp] theorem fbGet_fbClear (cx cy : Nat) : fbGet p fbClear cx cy = false := rfl

/-- A cell is read at its wrapped coordinates. -/
theorem fbGet_mod (fb : Framebuffer) (x y : Nat) : fbGet p fb (x % p.fbW) (y % p.fbH) = fbGet p fb x y := by
  simp only [fbGet, wrapCell, Nat.mod_mod]

/-- Coordinates that name the same cell read the same. -/
theorem fbGet_same (fb : Framebuffer) {c d : Nat × Nat} (h : sameCell p c d) :
    fbGet p fb c.1 c.2 = fbGet p fb d.1 d.2 := by
  have h' : wrapCell p c.1 c.2 = wrapCell p d.1 d.2 := h
  simp only [fbGet, h']

/-- A plain write keeps the form of the framebuffer. -/
theorem fbSetPlain_wf {fb : Framebuffer} (hw : 0 < p.fbW) (hh : 0 < p.fbH) (h : Framebuffer.wf p fb) (x y : Nat)
    (b : Bool) : Framebuffer.wf p (fbSetPlain p fb x y b) := by
  cases b with
  | true =>
    refine ⟨insertRising_rising cellBefore_total cellBefore_trans h.1 _, fun c hc => ?_⟩
    rcases mem_insertRising.1 hc with rfl | hc
    · exact ⟨Nat.mod_lt _ hw, Nat.mod_lt _ hh⟩
    · exact h.2 c hc
  | false => exact ⟨h.1.filter _, fun c hc => h.2 c (List.mem_of_mem_filter hc)⟩

/-- Drawing keeps the form of the framebuffer. -/
theorem drawCells_wf {cs : List (Nat × Nat)} {fb : Framebuffer} (hw : 0 < p.fbW) (hh : 0 < p.fbH)
    (h : Framebuffer.wf p fb) (c0 : Bool) : Framebuffer.wf p (drawCells p cs (fb, c0)).1 := by
  induction cs generalizing fb c0 with
  | nil => exact h
  | cons c rest ih => exact ih (fbSetPlain_wf hw hh h _ _ _) _

/-- Two framebuffers in their form with the same cells are the same. -/
theorem framebuffer_ext {fb gb : Framebuffer} (hf : Framebuffer.wf p fb) (hg : Framebuffer.wf p gb)
    (h : ∀ x y, x < p.fbW → y < p.fbH → fbGet p fb x y = fbGet p gb x y) : fb = gb := by
  refine eq_of_rising cellBefore_asymm hf.1 hg.1 fun c => ?_
  have key : ∀ {l m : Framebuffer}, Framebuffer.wf p l →
      (∀ x y, x < p.fbW → y < p.fbH → fbGet p l x y = fbGet p m x y) → c ∈ l → c ∈ m := by
    intro l m hl hlm hc
    obtain ⟨hx, hy⟩ := hl.2 c hc
    have hwrap : wrapCell p c.1 c.2 = c := by simp only [wrapCell, Nat.mod_eq_of_lt hx, Nat.mod_eq_of_lt hy]
    have := hlm c.1 c.2 hx hy
    rw [Bool.eq_iff_iff, fbGet_eq_true, fbGet_eq_true, hwrap] at this
    exact this.1 hc
  exact ⟨key hf h, key hg fun x y hx hy => (h x y hx hy).symm⟩

/-! ### Drawing -/

/-- How often, as a parity, a list of cells names a cell. -/
def flips (p : Config.Params) : List (Nat × Nat) → Nat → Nat → Bool
  | [], _, _ => false
  | c :: cs, cx, cy => hitsCell p c (cx, cy) ^^ flips p cs cx cy

/-- Drawing flips a cell as often as it is named. -/
theorem fbGet_drawCells (cs : List (Nat × Nat)) (fb : Framebuffer) (c0 : Bool) (cx cy : Nat) :
    fbGet p (drawCells p cs (fb, c0)).1 cx cy = (fbGet p fb cx cy ^^ flips p cs cx cy) := by
  induction cs generalizing fb c0 with
  | nil => simp [drawCells, flips]
  | cons c rest ih => simp only [drawCells, ih, fbGet_fbXor_true, flips, Bool.xor_assoc]

/-- A cell that no element names is not flipped. -/
theorem flips_eq_false {cs : List (Nat × Nat)} {cx cy : Nat} (h : ∀ c ∈ cs, ¬sameCell p c (cx, cy)) :
    flips p cs cx cy = false := by
  induction cs with
  | nil => rfl
  | cons c rest ih =>
    have hh : hitsCell p c (cx, cy) = false := decide_eq_false (h c (by simp))
    simp only [flips, hh, Bool.false_xor, ih fun d hd => h d (List.mem_cons_of_mem _ hd)]

/-- Distinct cells flip exactly the cells they name. -/
theorem flips_eq_true {cs : List (Nat × Nat)} (h : cs.Pairwise (fun c d => ¬sameCell p c d)) {cx cy : Nat} :
    flips p cs cx cy = true ↔ ∃ c ∈ cs, sameCell p c (cx, cy) := by
  induction cs with
  | nil => simp [flips]
  | cons c rest ih =>
    rw [List.pairwise_cons] at h
    have ih := ih h.2
    by_cases hc : sameCell p c (cx, cy)
    · have hrest : ¬∃ d ∈ rest, sameCell p d (cx, cy) := by
        rintro ⟨d, hd, hdc⟩
        exact h.1 d hd (Eq.trans hc (Eq.symm hdc))
      rw [← ih, Bool.not_eq_true] at hrest
      have hh : hitsCell p c (cx, cy) = true := decide_eq_true hc
      simp only [flips, hh, hrest, Bool.xor_false, true_iff]
      exact ⟨c, by simp, hc⟩
    · have hh : hitsCell p c (cx, cy) = false := decide_eq_false hc
      simp only [flips, hh, Bool.false_xor, ih, List.mem_cons, exists_eq_or_imp, hc, false_or]

/-- A collision is noted when one of distinct cells was on. -/
theorem drawCells_collision {cs : List (Nat × Nat)} (h : cs.Pairwise (fun c d => ¬sameCell p c d)) (fb : Framebuffer)
    (c0 : Bool) :
    (drawCells p cs (fb, c0)).2 = true ↔ c0 = true ∨ ∃ c ∈ cs, fbGet p fb c.1 c.2 = true := by
  induction cs generalizing fb c0 with
  | nil => simp [drawCells]
  | cons c rest ih =>
    rw [List.pairwise_cons] at h
    have hother : ∀ d ∈ rest, fbGet p (fbXor p fb c.1 c.2 true) d.1 d.2 = fbGet p fb d.1 d.2 := by
      intro d hd
      rw [fbGet_fbXor_true, show hitsCell p c (d.1, d.2) = false from decide_eq_false (h.1 d hd), Bool.xor_false]
    simp only [drawCells, ih h.2, Bool.or_eq_true, List.mem_cons, exists_eq_or_imp, or_assoc]
    refine or_congr_right (or_congr_right ?_)
    constructor
    · rintro ⟨d, hd, hon⟩; exact ⟨d, hd, by rwa [hother d hd] at hon⟩
    · rintro ⟨d, hd, hon⟩; exact ⟨d, hd, by rwa [hother d hd]⟩

/-- Two offsets less than the modulus apart do not wrap to the same place. -/
theorem add_mod_ne {a i j m : Nat} (hij : i < j) (h : j < i + m) : (a + i) % m ≠ (a + j) % m := by
  intro e
  have hd : (a + j - (a + i)) % m = 0 := Nat.sub_mod_eq_zero_of_mod_eq e.symm
  rw [show a + j - (a + i) = j - i by omega, Nat.mod_eq_of_lt (by omega)] at hd
  omega

/-- The cells of one sprite row. -/
theorem mem_rowCells {px py cx cy : Nat} {b : Byte} :
    (cx, cy) ∈ rowCells px py b ↔ ∃ col, col < 8 ∧ spritePixel b col = true ∧ cx = px + col ∧ cy = py := by
  simp only [rowCells, List.mem_map, List.mem_filter, List.mem_range, Prod.mk.injEq]
  constructor
  · rintro ⟨col, ⟨hlt, hp⟩, rfl, rfl⟩; exact ⟨col, hlt, hp, rfl, rfl⟩
  · rintro ⟨col, hlt, hp, rfl, rfl⟩; exact ⟨col, ⟨hlt, hp⟩, rfl, rfl⟩

/-- The cells of a sprite. -/
theorem mem_spriteCells {px py cx cy : Nat} {bytes : List Byte} :
    (cx, cy) ∈ spriteCells px py bytes ↔
      ∃ row col b, bytes[row]? = some b ∧ col < 8 ∧ spritePixel b col = true ∧ cx = px + col ∧ cy = py + row := by
  induction bytes generalizing py with
  | nil => simp [spriteCells]
  | cons b rest ih =>
    simp only [spriteCells, List.mem_append, mem_rowCells, ih]
    constructor
    · rintro (⟨col, hlt, hp, rfl, rfl⟩ | ⟨row, col, d, hd, hlt, hp, rfl, rfl⟩)
      · exact ⟨0, col, b, rfl, hlt, hp, rfl, rfl⟩
      · exact ⟨row + 1, col, d, by simpa using hd, hlt, hp, rfl, by omega⟩
    · rintro ⟨row, col, d, hd, hlt, hp, rfl, rfl⟩
      cases row with
      | zero =>
        simp only [List.getElem?_cons_zero, Option.some.injEq] at hd
        subst hd
        exact .inl ⟨col, hlt, hp, rfl, rfl⟩
      | succ row => exact .inr ⟨row, col, d, by simpa using hd, hlt, hp, rfl, by omega⟩

/-- No two set pixels of a sprite fall on one cell of a grid at least as large as the sprite (R109). -/
theorem spriteCells_distinct {px py : Nat} {bytes : List Byte} (hw : 8 ≤ p.fbW) (h : bytes.length ≤ p.fbH) :
    (spriteCells px py bytes).Pairwise (fun c d => ¬sameCell p c d) := by
  induction bytes generalizing py with
  | nil => simp [spriteCells]
  | cons b rest ih =>
    simp only [List.length_cons] at h
    simp only [spriteCells, List.pairwise_append]
    refine ⟨?_, ih (by omega), ?_⟩
    · simp only [rowCells, List.pairwise_map]
      refine List.Pairwise.filter _ ?_
      refine List.Pairwise.imp_of_mem ?_ List.pairwise_lt_range
      intro i j hi hj hij hsame
      simp only [List.mem_range] at hi hj
      exact absurd (congrArg Prod.fst hsame) (add_mod_ne hij (by omega))
    · rintro ⟨x, y⟩ hc ⟨u, v⟩ hd hsame
      obtain ⟨_, _, _, rfl, rfl⟩ := mem_rowCells.1 hc
      obtain ⟨row, _, d, hrow, _, _, rfl, rfl⟩ := mem_spriteCells.1 hd
      have hlt : row < rest.length := (List.getElem?_eq_some_iff.1 hrow).1
      have := congrArg Prod.snd hsame
      simp only [wrapCell] at this
      exact absurd this (by rw [Nat.add_assoc y 1 row]; exact add_mod_ne (i := 0) (by omega) (by omega))

end Sys2Proof.Machine
end

