-- ==== Sys2Proof/Laws/Ops.lean ====
section
/-!
SUPPORT. What each shared operation can do, said once: the stack, a checked key operand, a checked store, the load of
registers, the random byte, the countdown, the register names of the host, and the breakpoint set.
-/

namespace Sys2Proof.Machine

/-! ### The stack (10_state R20, R21) -/

/-- A push on a full stack faults. -/
theorem push_full {s : State} (h : s.sp = s.params.stackDepth) (v op : Word) (rest : State → Result) :
    push v op s rest = .next (raiseAt .stackOverflow op s) := by
  simp only [push, if_pos h]

/-- A push with room writes the entry and counts it. -/
theorem push_room {s : State} (hf : s.sp ≠ s.params.stackDepth) (h : s.sp < s.stack.length) (v op : Word)
    (rest : State → Result) :
    push v op s rest = rest { s with sp := (s.sp + 1) % 2 ^ s.params.spWidth, stack := s.stack.set s.sp v } := by
  simp only [push, if_neg hf, if_pos h]

/-- A push of an entry that the stack does not have stops the model (log 10). -/
theorem push_missing {s : State} (hf : s.sp ≠ s.params.stackDepth) (h : s.stack.length ≤ s.sp)
    (v op : Word) (rest : State → Result) : push v op s rest = .fault .stackEntryMissing := by
  simp only [push, if_neg hf, if_neg (Nat.not_lt.2 h)]

/-- A push answers only a fault of the core, or what the rest of the instruction answers. -/
theorem push_next {s t : State} {v op : Word} {rest : State → Result} (h : push v op s rest = .next t) :
    t = raiseAt .stackOverflow op s ∨
      s.sp ≠ s.params.stackDepth ∧ s.sp < s.stack.length ∧
        rest { s with sp := (s.sp + 1) % 2 ^ s.params.spWidth, stack := s.stack.set s.sp v } = .next t := by
  by_cases hf : s.sp = s.params.stackDepth
  · rw [push_full hf] at h; cases h; exact .inl rfl
  · by_cases hlt : s.sp < s.stack.length
    · rw [push_room hf hlt] at h; exact .inr ⟨hf, hlt, h⟩
    · rw [push_missing hf (Nat.not_lt.1 hlt)] at h; cases h

/-- A pop of an empty stack faults. -/
theorem pop_empty {s : State} (h : s.sp = 0) (op : Word) (rest : Word → State → Result) :
    pop op s rest = .next (raiseAt .stackUnderflow op s) := by
  simp only [pop, if_pos h]

/-- A pop of an occupied stack reads the last entry and drops it. -/
theorem pop_occupied {s : State} {v : Word} (h0 : s.sp ≠ 0) (h : s.stack[s.sp - 1]? = some v) (op : Word)
    (rest : Word → State → Result) : pop op s rest = rest v { s with sp := s.sp - 1 } := by
  simp only [pop, if_neg h0, h]

/-- A pop of an entry that the stack does not have stops the model (log 10). -/
theorem pop_missing {s : State} (h0 : s.sp ≠ 0) (h : s.stack[s.sp - 1]? = none) (op : Word)
    (rest : Word → State → Result) : pop op s rest = .fault .stackEntryMissing := by
  simp only [pop, if_neg h0, h]

/-- A pop answers only a fault of the core, or what the rest of the instruction answers. -/
theorem pop_next {s t : State} {op : Word} {rest : Word → State → Result} (h : pop op s rest = .next t) :
    t = raiseAt .stackUnderflow op s ∨
      s.sp ≠ 0 ∧ ∃ v, s.stack[s.sp - 1]? = some v ∧ rest v { s with sp := s.sp - 1 } = .next t := by
  by_cases h0 : s.sp = 0
  · rw [pop_empty h0] at h; cases h; exact .inl rfl
  · cases hv : s.stack[s.sp - 1]? with
    | none => rw [pop_missing h0 hv] at h; cases h
    | some v => rw [pop_occupied h0 hv] at h; exact .inr ⟨h0, v, rfl, h⟩

/-! ### The key operand (45_keys_timers R110) -/

/-- A number above the last key's faults. -/
theorem withKey_invalid {s : State} {x : Reg} (h : s.params.numKeys ≤ s.getV x) (op : Word) (rest : Nat → Result) :
    withKey x op s rest = .next (raiseAt (.invalidKey (s.getV x)) op s) := by
  simp only [withKey, if_pos h]

/-- A key number goes to the rest of the instruction. -/
theorem withKey_valid {s : State} {x : Reg} (h : s.getV x < s.params.numKeys) (op : Word) (rest : Nat → Result) :
    withKey x op s rest = rest (s.getV x) := by
  simp only [withKey, if_neg (Nat.not_le.2 h)]

/-! ### Stores (20_memory R43) -/

/-- A store that passes its checks writes its bytes. -/
theorem storeAt_ok {s : State} {a : Nat} {bytes : List Byte} (h : checkStores s.params a bytes.length = none)
    (op : Word) : storeAt a bytes op s = .next (s.storeBytes a bytes) := by
  simp only [storeAt, h]

/-- A store that fails a check raises that check's fault and writes nothing. -/
theorem storeAt_fault {s : State} {a : Nat} {bytes : List Byte} {k : FaultKind}
    (h : checkStores s.params a bytes.length = some k) (op : Word) : storeAt a bytes op s = .next (raiseAt k op s) := by
  simp only [storeAt, h]

/-! ### Loads of registers (43_memory_index R107) -/

/-- A load of registers changes nothing but the register file. -/
theorem loadList_eq (b : Nat) (ks : List Reg) (s : State) : loadList b ks s = { s with v := (loadList b ks s).v } := by
  induction ks generalizing s with
  | nil => rfl
  | cons k ks ih =>
    simp only [loadList]
    rw [ih]
    rfl

/-- A register that a load of registers does not name. -/
theorem getV_loadList_ne (b : Nat) {ks : List Reg} (s : State) {q : Reg} (h : q ∉ ks) :
    (loadList b ks s).getV q = s.getV q := by
  induction ks generalizing s with
  | nil => rfl
  | cons k ks ih =>
    rw [List.mem_cons, not_or] at h
    simp only [loadList, ih _ h.2, State.getV_setV_ne _ h.1]

/-- A register that it names holds the byte at its address. -/
theorem getV_loadList_mem (b : Nat) {ks : List Reg} (s : State) {q : Reg} (h : q ∈ ks) (hq : q.toNat < s.v.length) :
    (loadList b ks s).getV q = (s.memRead (b + q.toNat)).toNat % 2 ^ s.params.vWidth := by
  induction ks generalizing s with
  | nil => cases h
  | cons k ks ih =>
    have hm : ∀ n a, (s.setV k n).memRead a = s.memRead a := fun _ => State.memRead_congr rfl rfl
    by_cases hk : q ∈ ks
    · rw [loadList, ih _ hk (by rwa [State.length_setV]), hm]; rfl
    · obtain rfl : q = k := (List.mem_cons.1 h).resolve_right hk
      rw [loadList, getV_loadList_ne _ _ hk, State.getV_setV_self _ hq]

/-- The registers `V0..Vx` are those with a number up to `x`. -/
theorem mem_regsUpTo {x q : Reg} : q ∈ regsUpTo x ↔ q.toNat ≤ x.toNat := by
  have hx := x.isLt
  have hq := q.isLt
  simp only [regsUpTo, List.mem_map, List.mem_range]
  constructor
  · rintro ⟨k, hk, rfl⟩
    rw [BitVec.toNat_ofNat]
    exact (Nat.mod_le _ _).trans (by omega)
  · intro h
    exact ⟨q.toNat, by omega, by simp⟩

@[simp] theorem length_regBytes (s : State) (x : Reg) : (s.regBytes x).length = x.toNat + 1 := by
  simp [State.regBytes, regsUpTo]

/-- The byte at a place of `V0..Vx` is that register's. -/
theorem getElem_regBytes (s : State) (x : Reg) {k : Nat} (h : k < (s.regBytes x).length) :
    (s.regBytes x)[k] = s.regByte (BitVec.ofNat 4 k) := by
  simp [State.regBytes, regsUpTo]

/-! ### The random byte (42_alu R101) -/

/-- Taking a random byte changes nothing but the model's own fields for it. -/
theorem randomByte_eq (s : State) :
    (randomByte s).2 = { s with draws := (randomByte s).2.draws, drawCount := (randomByte s).2.drawCount } := by
  unfold randomByte; split <;> rfl

@[simp] theorem getV_randomByte (s : State) (q : Reg) : (randomByte s).2.getV q = s.getV q := by
  unfold randomByte; split <;> rfl

/-! ### The timers (40_cycle R74) -/

/-- The countdown of the delay timer: one less, and never below 0. -/
theorem timerTick_dt_eq (s : State) : (timerTick s).dt = s.dt - 1 := by
  rw [timerTick_dt]; split <;> omega

/-- The countdown of the sound timer: one less, and never below 0. -/
theorem timerTick_st_eq (s : State) : (timerTick s).st = s.st - 1 := by
  rw [timerTick_st]; split <;> omega

/-! ### Register names (60_exceptions R127) -/

/-- A name of two letters that begins with `V` stands for the register of its digit. -/
theorem registerNamed_v (c : Char) : registerNamed ['V', c] = (hexDigit c).map RegName.v := by
  simp [registerNamed]

/-- Every other name but the four of the other registers stands for none. -/
theorem registerNamed_none {name : List Char} (hv : ∀ c d, name = ['V', c] → hexDigit c ≠ some d)
    (h : name ∉ [['I'], ['P', 'C'], ['D', 'T'], ['S', 'T']]) : registerNamed name = none := by
  simp only [List.mem_cons, List.not_mem_nil, not_or] at h
  simp only [registerNamed, h, if_false]
  split
  · rename_i letter digit
    split
    · rename_i hl
      subst hl
      cases hd : hexDigit digit with
      | none => rfl
      | some q => exact absurd hd (hv digit q rfl)
    · rfl
  · rfl

/-! ### The breakpoint set (10_state R32) -/

/-- The order of the breakpoint set is the order of the addresses as numbers. -/
theorem addrBefore_iff {a b : Nat} : addrBefore a b = true ↔ a < b := by simp [addrBefore]

theorem addrBefore_total (a b : Nat) (h : addrBefore a b = false) (hne : a ≠ b) : addrBefore b a = true := by
  rw [← Bool.not_eq_true, addrBefore_iff] at h
  rw [addrBefore_iff]
  omega

theorem addrBefore_trans (a b c : Nat) (h : addrBefore a b = true) (h' : addrBefore b c = true) :
    addrBefore a c = true := by
  rw [addrBefore_iff] at *; omega

theorem addrBefore_asymm (a b : Nat) (h : addrBefore a b = true) : addrBefore b a = false := by
  rw [← Bool.not_eq_true]; rw [addrBefore_iff] at *; omega

/-- Membership after an insertion. -/
theorem mem_insertBreakpoint {l : List Nat} {a b : Nat} : b ∈ insertBreakpoint l a ↔ b = a ∨ b ∈ l :=
  mem_insertRising

/-- Inserting an address that is there changes nothing. -/
theorem insertBreakpoint_of_mem {l : List Nat} (h : l.Pairwise (fun a b => addrBefore a b = true)) {a : Nat}
    (ha : a ∈ l) : insertBreakpoint l a = l := insertRising_of_mem addrBefore_asymm h ha

/-- An insertion keeps the addresses rising. -/
theorem insertBreakpoint_rising {l : List Nat} (h : l.Pairwise (fun a b => addrBefore a b = true)) (a : Nat) :
    (insertBreakpoint l a).Pairwise (fun a b => addrBefore a b = true) :=
  insertRising_rising addrBefore_total addrBefore_trans h a

end Sys2Proof.Machine
end

