-- ==== Sys2Proof/Laws/Fits.lean ====
section
/-!
SUPPORT. A state that has the shape its parameters give it (00_scope R7): what that says of its registers, and which
operations keep it.
-/

namespace Sys2Proof.Machine

variable {s : State}

/-! ### What it says -/

/-- Every register that a 4-bit field names is there. -/
theorem State.Fits.reg (h : s.Fits) (r : Reg) : r.toNat < s.v.length := by
  have := h.valid.1.1
  rw [h.vCount]; exact r.isLt.trans_le this

/-- A register holds a value of its width. -/
theorem State.Fits.getV_lt (h : s.Fits) (r : Reg) : s.getV r < 2 ^ s.params.vWidth := by
  rw [State.getV, List.getElem?_eq_getElem (h.reg r)]
  exact h.v _ (List.getElem_mem _)

/-- A register holds a byte. -/
theorem State.Fits.le_vWidth (h : s.Fits) : 2 ^ 8 ≤ 2 ^ s.params.vWidth :=
  Nat.pow_le_pow_right (by decide) h.valid.1.2.1

/-- `I` and `PC` hold an immediate address. -/
theorem State.Fits.le_iWidth (h : s.Fits) : 2 ^ 12 ≤ 2 ^ s.params.iWidth :=
  Nat.pow_le_pow_right (by decide) h.valid.1.2.2.1

theorem State.Fits.le_pcWidth (h : s.Fits) : 2 ^ 12 ≤ 2 ^ s.params.pcWidth :=
  Nat.pow_le_pow_right (by decide) h.valid.1.2.2.2.1

/-- A stack entry holds `PC`. -/
theorem State.Fits.pcWidth_le (h : s.Fits) : 2 ^ s.params.pcWidth ≤ 2 ^ 16 :=
  Nat.pow_le_pow_right (by decide) h.valid.1.2.2.2.2.1

/-- `SP` counts the stack's entries. -/
theorem State.Fits.stackDepth_lt (h : s.Fits) : s.params.stackDepth < 2 ^ s.params.spWidth := h.valid.1.2.2.2.2.2.1

/-- The grid has cells. -/
theorem State.Fits.fbW_pos (h : s.Fits) : 0 < s.params.fbW := h.valid.2.2.2.2.1

theorem State.Fits.fbH_pos (h : s.Fits) : 0 < s.params.fbH := h.valid.2.2.2.2.2

/-- A byte in a general register is all of it. -/
theorem State.Fits.byte_mod (h : s.Fits) (b : Byte) : b.toNat % 2 ^ s.params.vWidth = b.toNat :=
  Nat.mod_eq_of_lt (b.isLt.trans_le h.le_vWidth)

/-- A flag in a general register is all of it. -/
theorem State.Fits.flag_mod (h : s.Fits) (c : Bool) : flagValue c % 2 ^ s.params.vWidth = flagValue c :=
  Nat.mod_eq_of_lt (Nat.lt_of_lt_of_le (by cases c <;> decide) h.le_vWidth)

/-- The address an instruction recovers from its advanced `PC` is the one it was fetched from (log 12). -/
theorem State.Fits.advance_addr (h : s.Fits) : s.advance.instrAddr = s.pc := by
  rw [State.instrAddr_advance, Nat.mod_eq_of_lt h.pc]

/-! ### What keeps it -/

theorem State.Fits.setV (h : s.Fits) (r : Reg) (n : Nat) : (s.setV r n).Fits :=
  { h with
    vCount := (s.length_setV r n).trans h.vCount
    v := fun m hm => (List.mem_or_eq_of_mem_set hm).elim (h.v m) fun e => e ▸ Nat.mod_lt _ (Nat.two_pow_pos _) }

theorem State.Fits.setFlag (h : s.Fits) (c : Bool) : (s.setFlag c).Fits := State.Fits.setV h VF _

theorem State.Fits.setResult (h : s.Fits) (x : Reg) (n : Nat) (c : Bool) : (s.setResult x n c).Fits :=
  (h.setV x n).setFlag c

theorem State.Fits.setI (h : s.Fits) (n : Nat) : (s.setI n).Fits := { h with i := Nat.mod_lt _ (Nat.two_pow_pos _) }

theorem State.Fits.setPC (h : s.Fits) (n : Nat) : (s.setPC n).Fits := { h with pc := Nat.mod_lt _ (Nat.two_pow_pos _) }

theorem State.Fits.setDT (h : s.Fits) (n : Nat) : (s.setDT n).Fits := { h with dt := Nat.mod_lt _ (Nat.two_pow_pos _) }

theorem State.Fits.setST (h : s.Fits) (n : Nat) : (s.setST n).Fits := { h with st := Nat.mod_lt _ (Nat.two_pow_pos _) }

theorem State.Fits.advance (h : s.Fits) : s.advance.Fits := h.setPC _

theorem State.Fits.skipIf (h : s.Fits) (c : Bool) : (s.skipIf c).Fits := by
  cases c
  · exact h
  · exact h.advance

theorem State.Fits.raiseAt (h : s.Fits) (k : FaultKind) (op : Word) : (raiseAt k op s).Fits := { h with }

theorem State.Fits.storeBytes (h : s.Fits) (a : Nat) (l : List Byte) : (s.storeBytes a l).Fits := { h with }

theorem State.Fits.setKey (h : s.Fits) (k : Nat) (d : Bool) : (s.setKey k d).Fits :=
  { h with keys := List.length_set.trans h.keys }

theorem State.Fits.timerTick (h : s.Fits) : (timerTick s).Fits :=
  { h with
    dt := (timerTick_dt_eq s).trans_lt ((Nat.sub_le _ _).trans_lt h.dt)
    st := (timerTick_st_eq s).trans_lt ((Nat.sub_le _ _).trans_lt h.st) }

theorem State.Fits.randomByte (h : s.Fits) : (randomByte s).2.Fits := by
  rw [randomByte_eq]; exact { h with }

theorem State.Fits.loadList (h : s.Fits) (b : Nat) (ks : List Reg) : (loadList b ks s).Fits := by
  induction ks generalizing s with
  | nil => exact h
  | cons k ks ih => exact ih (h.setV k _)

/-- The state at construction has the shape of its parameters, where these fit together. -/
theorem State.Fits.initial {p : Config.Params} (h : p.Valid) : (State.initial p).Fits where
  valid := h
  vCount := List.length_replicate
  v := fun n hn => by rw [List.eq_of_mem_replicate hn]; exact Nat.two_pow_pos _
  i := Nat.two_pow_pos _
  pc := Nat.mod_lt _ (Nat.two_pow_pos _)
  dt := Nat.two_pow_pos _
  st := Nat.two_pow_pos _
  waitAddr := Nat.two_pow_pos _
  stack := List.length_replicate
  keys := List.length_replicate
  lastKey := fun _ hk => nomatch hk

end Sys2Proof.Machine
end

