-- ==== Sys2Proof/Laws/Display.lean ====
section
/-!
SUPPORT. What `Dxyn` can do: the cells it flips are those a set pixel falls on (44_display R109), no two pixels fall on
one cell, and nothing but the framebuffer and `VF` changes.
-/

namespace Sys2Proof.Machine

/-- The cells of the sprite that `Dxyn` reads, not yet wrapped. -/
def drawnCells (s : State) (x y : Reg) (n : Nibble) : List (Nat × Nat) :=
  spriteCells (s.getV x) (s.getV y) (s.readBytes s.base n.toNat)

/-- A sprite covers a cell of the grid when one of its cells wraps to it. -/
theorem spriteCovers_iff {s : State} {x y : Reg} {n : Nibble} {cx cy : Nat} (hx : cx < s.params.fbW)
    (hy : cy < s.params.fbH) :
    SpriteCovers s x y n cx cy ↔ ∃ c ∈ drawnCells s x y n, sameCell s.params c (cx, cy) := by
  constructor
  · rintro ⟨row, col, hrow, hcol, hbit, hcx, hcy⟩
    refine ⟨(s.getV x + col, s.getV y + row), mem_spriteCells.2 ⟨row, col, _, ?_, hcol, hbit, rfl, rfl⟩, ?_⟩
    · rw [State.getElem?_readBytes, if_pos hrow]; rfl
    · simp only [sameCell, wrapCell, hcx, hcy, Nat.mod_mod]
  · rintro ⟨⟨a, b⟩, hc, hsame⟩
    have h1 : a % s.params.fbW = cx % s.params.fbW := congrArg Prod.fst hsame
    have h2 : b % s.params.fbH = cy % s.params.fbH := congrArg Prod.snd hsame
    obtain ⟨row, col, v, hv, hcol, hbit, rfl, rfl⟩ := mem_spriteCells.1 hc
    rw [State.getElem?_readBytes] at hv
    split at hv
    · cases hv
      refine ⟨row, col, ‹_›, hcol, hbit, ?_, ?_⟩
      · rw [h1]; exact (Nat.mod_eq_of_lt hx).symm
      · rw [h2]; exact (Nat.mod_eq_of_lt hy).symm
    · cases hv

/-- On a grid at least as large as the sprite no two of its pixels fall on one cell. -/
theorem drawnCells_distinct {s : State} {n : Nibble} (hw : 8 ≤ s.params.fbW) (hh : n.toNat ≤ s.params.fbH) (x y : Reg) :
    (drawnCells s x y n).Pairwise (fun c d => ¬sameCell s.params c d) :=
  spriteCells_distinct hw (by rwa [State.length_readBytes])

/-- `Dxyn` always completes: the framebuffer is that of drawing its cells one by one, no register but `VF` is written,
and `VF` holds the collision where the state has the shape its parameters give it. -/
theorem exec_drw (x y : Reg) (n : Nibble) (s : State) :
    ∃ t, exec (.drw x y n) s = .next t ∧ t = { s with v := t.v, fb := t.fb } ∧
      t.fb = (drawCells s.params (drawnCells s x y n) (s.fb, false)).1 ∧
      (s.Fits → t.getV VF = flagValue (drawCells s.params (drawnCells s x y n) (s.fb, false)).2) ∧
      ∀ r, r ≠ VF → t.getV r = s.getV r := by
  refine ⟨_, rfl, rfl, rfl, fun hw => ?_, fun r hr => ?_⟩
  · have hl : VF.toNat < (s.setFlag false).v.length := by rw [State.length_setFlag]; exact hw.reg VF
    exact (State.getV_setFlag_vf _ hl _).trans (hw.flag_mod _)
  · exact (State.getV_setFlag_ne _ hr _).trans (s.getV_setFlag_ne hr false)

end Sys2Proof.Machine
end

