-- ==== Sys2Proof/Laws/Exec.lean ====
section
/-!
SUPPORT. What any instruction can do, said once: it raises a fault at its own address and does nothing else, or it
completes, and then it leaves the host's side of the state, the fault record and the run state (but for `Fx0A`) alone.
-/

namespace Sys2Proof.Machine

/-- The run state an instruction leaves when it completes: `Fx0A` starts its wait, no other changes it (40_cycle R69).
-/
def runAfter (i : Instr) (r : RunState) : RunState :=
  match i with
  | .ldVxK _ => .awaitingKeypress
  | _ => r

/-- What every completed instruction leaves alone or keeps. -/
structure Completed (i : Instr) (s t : State) : Prop where
  params : t.params = s.params
  fault : t.fault = s.fault
  run : t.run = runAfter i s.run
  keys : t.keys = s.keys
  lastKey : t.lastKey = s.lastKey
  breakpoints : t.breakpoints = s.breakpoints
  agenda : t.agenda = s.agenda
  reply : t.reply = s.reply
  mem : s.mem.wf s.params → t.mem.wf s.params
  fb : 0 < s.params.fbW → 0 < s.params.fbH → Framebuffer.wf s.params s.fb → Framebuffer.wf s.params t.fb
  stack : t.stack.length = s.stack.length
  sp : s.stack.length = s.params.stackDepth → s.sp ≤ s.params.stackDepth → s.params.stackDepth < 2 ^ s.params.spWidth →
    t.sp ≤ s.params.stackDepth
  fits : s.Fits → t.Fits

/-- A state that shares all of this with the one before. -/
theorem completed_of_same {i : Instr} {s t : State} (hq : t.params = s.params) (hf : t.fault = s.fault)
    (hr : t.run = runAfter i s.run) (hk : t.keys = s.keys) (hl : t.lastKey = s.lastKey)
    (hb : t.breakpoints = s.breakpoints) (ha : t.agenda = s.agenda) (hp : t.reply = s.reply) (hm : t.mem = s.mem)
    (hg : t.fb = s.fb) (hst : t.stack = s.stack) (hs : t.sp = s.sp) (hw : s.Fits → t.Fits) : Completed i s t :=
  ⟨hq, hf, hr, hk, hl, hb, ha, hp, fun h => hm ▸ h, fun _ _ h => hg ▸ h, by rw [hst], fun _ h _ => hs ▸ h, hw⟩

/-- A store completes or raises. -/
theorem storeAt_outcome {i : Instr} {s t : State} {a : Nat} {bytes : List Byte}
    (hi : runAfter i s.run = s.run) (h : storeAt a bytes (encode i) s = .next t) :
    (∃ k, t = raiseAt k (encode i) s) ∨ Completed i s t := by
  cases hc : checkStores s.params a bytes.length with
  | some k => rw [storeAt_fault hc] at h; cases h; exact .inl ⟨k, rfl⟩
  | none =>
    rw [storeAt_ok hc] at h
    cases h
    exact .inr ⟨rfl, rfl, hi.symm, rfl, rfl, rfl, rfl, rfl, fun hw => Memory.writeBytes_wf hw hc, fun _ _ h => h, rfl,
      fun _ h _ => h, fun hw => hw.storeBytes a bytes⟩

/-- A checked key test completes or raises. -/
theorem withKey_outcome {i : Instr} {s t : State} {x : Reg} {c : Nat → Bool} (hi : runAfter i s.run = s.run)
    (h : withKey x (encode i) s (fun k => .next (s.skipIf (c k))) = .next t) :
    (∃ k, t = raiseAt k (encode i) s) ∨ Completed i s t := by
  by_cases hk : s.params.numKeys ≤ s.getV x
  · rw [withKey_invalid hk] at h; cases h; exact .inl ⟨_, rfl⟩
  · rw [withKey_valid (by omega)] at h
    cases h
    exact .inr (completed_of_same (by simp) (by simp) (by simp [hi]) (by simp) (by simp) (by simp) (by simp) (by simp)
      (by simp) (by simp) (by simp) (by simp) fun hw => hw.skipIf _)

/-- Every instruction raises a fault at its own address, or completes. -/
theorem exec_outcome {i : Instr} {s t : State} (h : exec i s = .next t) :
    (∃ k, t = raiseAt k (encode i) s) ∨ Completed i s t := by
  cases i with
  | ret =>
    simp only [exec, execRet] at h
    rcases pop_next h with rfl | ⟨h0, v, hv, h⟩
    · exact .inl ⟨_, rfl⟩
    · cases h
      refine .inr ⟨rfl, rfl, rfl, rfl, rfl, rfl, rfl, rfl, id, fun _ _ h => h, rfl, fun _ hs _ => (Nat.sub_le _ _).trans hs,
        fun hw => State.Fits.setPC (s := { s with sp := s.sp - 1 }) { hw with } _⟩
  | call nnn =>
    simp only [exec, execCall] at h
    rcases push_next h with rfl | ⟨hf, hlt, h⟩
    · exact .inl ⟨_, rfl⟩
    · cases h
      refine .inr ⟨rfl, rfl, rfl, rfl, rfl, rfl, rfl, rfl, id, fun _ _ h => h, by simp, fun hl hs hd => ?_,
        fun hw => State.Fits.setPC
          (s := { s with sp := (s.sp + 1) % 2 ^ s.params.spWidth, stack := s.stack.set s.sp (BitVec.ofNat 16 s.pc) })
          { hw with stack := List.length_set.trans hw.stack } _⟩
      exact (Nat.mod_le _ _).trans (by omega)
  | ldB x => exact storeAt_outcome rfl h
  | storeRegs x => exact storeAt_outcome rfl h
  | skp x => exact withKey_outcome rfl h
  | sknp x => exact withKey_outcome rfl h
  | rnd x kk =>
    cases h
    have hw : s.Fits → ((randomByte s).2.setV x ((randomByte s).1 &&& kk).toNat).Fits := fun hw => hw.randomByte.setV _ _
    rw [randomByte_eq] at hw ⊢
    exact .inr (completed_of_same rfl rfl rfl rfl rfl rfl rfl rfl rfl rfl rfl rfl hw)
  | loadRegs x =>
    cases h
    have hw : s.Fits → (loadList s.base (regsUpTo x) s).Fits := fun hw => hw.loadList _ _
    rw [loadList_eq] at hw ⊢
    exact .inr (completed_of_same rfl rfl rfl rfl rfl rfl rfl rfl rfl rfl rfl rfl hw)
  | seByte x kk | sneByte x kk | seReg x y | sneReg x y =>
    cases h
    exact .inr (completed_of_same (by simp) (by simp) (by simp [runAfter]) (by simp) (by simp) (by simp) (by simp)
      (by simp) (by simp) (by simp) (by simp) (by simp) fun hw => hw.skipIf _)
  | cls =>
    cases h
    exact .inr ⟨rfl, rfl, rfl, rfl, rfl, rfl, rfl, rfl, id, fun _ _ _ => ⟨.nil, fun _ hc => nomatch hc⟩, rfl, fun _ h _ => h,
      fun hw => { hw with }⟩
  | drw x y n =>
    cases h
    exact .inr ⟨rfl, rfl, rfl, rfl, rfl, rfl, rfl, rfl, id, fun hw hh h => drawCells_wf hw hh h _, rfl, fun _ h _ => h,
      fun hw => State.Fits.setFlag
        (s := { s.setFlag false with fb := (drawSprite x y n s).1 }) { hw.setFlag false with } _⟩
  | jp nnn | jpV0 nnn =>
    cases h
    exact .inr (completed_of_same rfl rfl rfl rfl rfl rfl rfl rfl rfl rfl rfl rfl fun hw => hw.setPC _)
  | ldByte x kk | addByte x kk | ldReg x y | orReg x y | andReg x y | xorReg x y | ldVxDt x =>
    cases h
    exact .inr (completed_of_same rfl rfl rfl rfl rfl rfl rfl rfl rfl rfl rfl rfl fun hw => hw.setV _ _)
  | addReg x y | subReg x y | shr x y | subnReg x y | shl x y =>
    cases h
    exact .inr (completed_of_same rfl rfl rfl rfl rfl rfl rfl rfl rfl rfl rfl rfl fun hw => hw.setResult _ _ _)
  | ldI nnn | addI x | ldF x =>
    cases h
    exact .inr (completed_of_same rfl rfl rfl rfl rfl rfl rfl rfl rfl rfl rfl rfl fun hw => hw.setI _)
  | ldVxK x =>
    cases h
    exact .inr (completed_of_same rfl rfl rfl rfl rfl rfl rfl rfl rfl rfl rfl rfl fun hw =>
      { hw with waitAddr := Nat.mod_lt _ (Nat.two_pow_pos _) })
  | ldDt x =>
    cases h
    exact .inr (completed_of_same rfl rfl rfl rfl rfl rfl rfl rfl rfl rfl rfl rfl fun hw => hw.setDT _)
  | ldSt x =>
    cases h
    exact .inr (completed_of_same rfl rfl rfl rfl rfl rfl rfl rfl rfl rfl rfl rfl fun hw => hw.setST _)

/-- An instruction stops in a fault of the model only where a stack entry does not exist (log 10). -/
theorem exec_fault {i : Instr} {s : State} {r : Fault} (h : exec i s = .fault r) :
    s.stack.length ≠ s.params.stackDepth ∨ s.params.stackDepth < s.sp := by
  by_contra hc
  obtain ⟨hl, hs⟩ : s.stack.length = s.params.stackDepth ∧ s.sp ≤ s.params.stackDepth := by
    constructor <;> by_contra hn <;> simp_all
  cases i with
  | ret =>
    by_cases h0 : s.sp = 0
    · simp only [exec, execRet, pop_empty h0, reduceCtorEq] at h
    · have hv : s.stack[s.sp - 1]? = some _ := List.getElem?_eq_getElem (by omega)
      simp only [exec, execRet, pop_occupied h0 hv, reduceCtorEq] at h
  | call nnn =>
    by_cases hf : s.sp = s.params.stackDepth
    · simp only [exec, execCall, push_full hf, reduceCtorEq] at h
    · simp only [exec, execCall, push_room hf (by omega), reduceCtorEq] at h
  | ldB x | storeRegs x =>
    simp only [exec, execLdB, execStoreRegs, storeAt] at h
    split at h <;> cases h
  | skp x | sknp x =>
    simp only [exec, execSkp, execSknp, withKey] at h
    split at h <;> cases h
  | cls | jp nnn | seByte x kk | sneByte x kk | seReg x y | sneReg x y | ldByte x kk | addByte x kk | ldReg x y
  | orReg x y | andReg x y | xorReg x y | addReg x y | subReg x y | shr x y | subnReg x y | shl x y | ldI nnn
  | jpV0 nnn | rnd x kk | drw x y n | ldVxDt x | ldVxK x | ldDt x | ldSt x | addI x | ldF x | loadRegs x => cases h

/-- No instruction is refused. -/
theorem exec_not_refused (i : Instr) (s : State) (r : Refusal) : exec i s ≠ .refused r := by
  intro h
  cases i with
  | ret => simp only [exec, execRet, pop] at h; (repeat' split at h) <;> cases h
  | call nnn => simp only [exec, execCall, push] at h; (repeat' split at h) <;> cases h
  | ldB x | storeRegs x =>
    simp only [exec, execLdB, execStoreRegs, storeAt] at h
    split at h <;> cases h
  | skp x | sknp x =>
    simp only [exec, execSkp, execSknp, withKey] at h
    split at h <;> cases h
  | cls | jp nnn | seByte x kk | sneByte x kk | seReg x y | sneReg x y | ldByte x kk | addByte x kk | ldReg x y
  | orReg x y | andReg x y | xorReg x y | addReg x y | subReg x y | shr x y | subnReg x y | shl x y | ldI nnn
  | jpV0 nnn | rnd x kk | drw x y n | ldVxDt x | ldVxK x | ldDt x | ldSt x | addI x | ldF x | loadRegs x => cases h

/-! ### Calls and returns -/

/-- `2nnn` with room on the stack: the advanced `PC` is pushed and `PC` is the target (41_control_flow R83). -/
theorem exec_call_room {s : State} (nnn : Addr12) (hf : s.sp ≠ s.params.stackDepth)
    (h : s.sp < s.stack.length) :
    exec (.call nnn) s =
      .next { s with
        pc := nnn.toNat % 2 ^ s.params.pcWidth
        sp := (s.sp + 1) % 2 ^ s.params.spWidth
        stack := s.stack.set s.sp (BitVec.ofNat 16 s.pc) } := by
  simp only [exec, execCall, push_room hf h]; rfl

/-- `2nnn` on a full stack raises `StackOverflow` (10_state R20). -/
theorem exec_call_full {s : State} (nnn : Addr12) (h : s.sp = s.params.stackDepth) :
    exec (.call nnn) s = .next (raiseAt .stackOverflow (encode (.call nnn)) s) := by
  simp only [exec, execCall, push_full h]

/-- `00EE` with an occupied entry: `PC` is the last entry, which is dropped (41_control_flow R81). -/
theorem exec_ret_occupied {s : State} {v : Word} (h0 : s.sp ≠ 0) (h : s.stack[s.sp - 1]? = some v) :
    exec .ret s = .next { s with pc := v.toNat % 2 ^ s.params.pcWidth, sp := s.sp - 1 } := by
  simp only [exec, execRet, pop_occupied h0 h]; rfl

/-- `00EE` on an empty stack raises `StackUnderflow` (10_state R21). -/
theorem exec_ret_empty {s : State} (h : s.sp = 0) :
    exec .ret s = .next (raiseAt .stackUnderflow (encode .ret) s) := by
  simp only [exec, execRet, pop_empty h]

end Sys2Proof.Machine
end

