-- ==== Sys2Proof/Laws/PerInstr.lean ====
section
/-!
SUPPORT. For every instruction as syntax: its word is a word of its own row of the opcode table, that row is in the
table, and its operands fit its format (30_encoding R58 to R60).
-/

namespace Sys2Proof.Laws.RowFits

/-! ### The masks of the table over words written as digits -/

theorem zeros_xkk : ∀ t : Nibble, t ++ 0x0#4 ++ 0x00#8 = t ++ 0x000#12 := by decide

theorem zeros_xyn : ∀ t : Nibble, t ++ 0x0#4 ++ 0x0#4 ++ 0x0#4 = t ++ 0x000#12 := by decide

theorem mask_nnn (t : Nibble) (nnn : Addr12) : (t ++ nnn) &&& 0xF000#16 = t ++ 0x000#12 :=
  (BitVec.and_append (x₂ := 0xF#4) (y₂ := 0x000#12)).trans (congrArg₂ _ BitVec.and_allOnes BitVec.and_zero)

theorem mask_xkk (t : Nibble) (x : Reg) (kk : Byte) : (t ++ x ++ kk) &&& 0xF000#16 = t ++ 0x000#12 := by
  have h : (t ++ x) &&& 0xF0#8 = t ++ 0x0#4 :=
    (BitVec.and_append (x₂ := 0xF#4) (y₂ := 0x0#4)).trans (congrArg₂ _ BitVec.and_allOnes BitVec.and_zero)
  have h' : (t ++ x ++ kk) &&& 0xF000#16 = t ++ 0x0#4 ++ 0x00#8 :=
    (BitVec.and_append (x₂ := 0xF0#8) (y₂ := 0x00#8)).trans (congrArg₂ _ h BitVec.and_zero)
  exact h'.trans (zeros_xkk t)

theorem mask_x (t : Nibble) (x : Reg) (kk : Byte) : (t ++ x ++ kk) &&& 0xF0FF#16 = t ++ 0x0#4 ++ kk := by
  have h : (t ++ x) &&& 0xF0#8 = t ++ 0x0#4 :=
    (BitVec.and_append (x₂ := 0xF#4) (y₂ := 0x0#4)).trans (congrArg₂ _ BitVec.and_allOnes BitVec.and_zero)
  exact (BitVec.and_append (x₂ := 0xF0#8) (y₂ := 0xFF#8)).trans (congrArg₂ _ h BitVec.and_allOnes)

theorem mask_xy (t : Nibble) (x y : Reg) (n : Nibble) :
    (t ++ x ++ y ++ n) &&& 0xF00F#16 = t ++ 0x0#4 ++ 0x0#4 ++ n := by
  have h : (t ++ x) &&& 0xF0#8 = t ++ 0x0#4 :=
    (BitVec.and_append (x₂ := 0xF#4) (y₂ := 0x0#4)).trans (congrArg₂ _ BitVec.and_allOnes BitVec.and_zero)
  have h' : (t ++ x ++ y) &&& 0xF00#12 = t ++ 0x0#4 ++ 0x0#4 :=
    (BitVec.and_append (x₂ := 0xF0#8) (y₂ := 0x0#4)).trans (congrArg₂ _ h BitVec.and_zero)
  exact (BitVec.and_append (x₂ := 0xF00#12) (y₂ := 0xF#4)).trans (congrArg₂ _ h' BitVec.and_allOnes)

theorem mask_xyn (t : Nibble) (x y : Reg) (n : Nibble) : (t ++ x ++ y ++ n) &&& 0xF000#16 = t ++ 0x000#12 := by
  have h : (t ++ x) &&& 0xF0#8 = t ++ 0x0#4 :=
    (BitVec.and_append (x₂ := 0xF#4) (y₂ := 0x0#4)).trans (congrArg₂ _ BitVec.and_allOnes BitVec.and_zero)
  have h' : (t ++ x ++ y) &&& 0xF00#12 = t ++ 0x0#4 ++ 0x0#4 :=
    (BitVec.and_append (x₂ := 0xF0#8) (y₂ := 0x0#4)).trans (congrArg₂ _ h BitVec.and_zero)
  have h'' : (t ++ x ++ y ++ n) &&& 0xF000#16 = t ++ 0x0#4 ++ 0x0#4 ++ 0x0#4 :=
    (BitVec.and_append (x₂ := 0xF00#12) (y₂ := 0x0#4)).trans (congrArg₂ _ h' BitVec.and_zero)
  exact h''.trans (zeros_xyn t)

/-! ### The family -/

/-- The statement of the family. -/
def Statement (i : Instr) : Prop :=
  i.row.matchesWord (encode i) = true ∧ i.row ∈ opcodeTable ∧ i.WellFormed = true

/-- The operands of an instruction fit: each comes in the type of its field. -/
theorem wellFormed (i : Instr) : i.WellFormed = true := by
  have fit : ∀ (w : Nat) (v : BitVec w), decide (v.toNat < 2 ^ w) = true := fun _ v => decide_eq_true v.isLt
  cases i <;> simp only [Instr.WellFormed, operandsFit, Instr.row, Format.widths, Instr.operands, List.zip_cons_cons,
    List.zip_nil_right, List.all_cons, List.all_nil, fit] <;> rfl

/-- The row of an instruction does not depend on its operands, and is in the table. -/
theorem row_mem (i : Instr) : i.row ∈ opcodeTable := by
  cases i <;> simp [opcodeTable, Instr.row]

theorem cls : Statement .cls :=
  ⟨rfl, row_mem _, wellFormed _⟩

theorem ret : Statement .ret :=
  ⟨rfl, row_mem _, wellFormed _⟩

theorem jp (nnn : Addr12) : Statement (.jp nnn) :=
  ⟨by simp only [OpcodeRow.matchesWord, Instr.row, encode, mask_nnn]; rfl, row_mem _, wellFormed _⟩

theorem call (nnn : Addr12) : Statement (.call nnn) :=
  ⟨by simp only [OpcodeRow.matchesWord, Instr.row, encode, mask_nnn]; rfl, row_mem _, wellFormed _⟩

theorem seByte (x : Reg) (kk : Byte) : Statement (.seByte x kk) :=
  ⟨by simp only [OpcodeRow.matchesWord, Instr.row, encode, mask_xkk]; rfl, row_mem _, wellFormed _⟩

theorem sneByte (x : Reg) (kk : Byte) : Statement (.sneByte x kk) :=
  ⟨by simp only [OpcodeRow.matchesWord, Instr.row, encode, mask_xkk]; rfl, row_mem _, wellFormed _⟩

theorem seReg (x y : Reg) : Statement (.seReg x y) :=
  ⟨by simp only [OpcodeRow.matchesWord, Instr.row, encode, mask_xy]; rfl, row_mem _, wellFormed _⟩

theorem ldByte (x : Reg) (kk : Byte) : Statement (.ldByte x kk) :=
  ⟨by simp only [OpcodeRow.matchesWord, Instr.row, encode, mask_xkk]; rfl, row_mem _, wellFormed _⟩

theorem addByte (x : Reg) (kk : Byte) : Statement (.addByte x kk) :=
  ⟨by simp only [OpcodeRow.matchesWord, Instr.row, encode, mask_xkk]; rfl, row_mem _, wellFormed _⟩

theorem ldReg (x y : Reg) : Statement (.ldReg x y) :=
  ⟨by simp only [OpcodeRow.matchesWord, Instr.row, encode, mask_xy]; rfl, row_mem _, wellFormed _⟩

theorem orReg (x y : Reg) : Statement (.orReg x y) :=
  ⟨by simp only [OpcodeRow.matchesWord, Instr.row, encode, mask_xy]; rfl, row_mem _, wellFormed _⟩

theorem andReg (x y : Reg) : Statement (.andReg x y) :=
  ⟨by simp only [OpcodeRow.matchesWord, Instr.row, encode, mask_xy]; rfl, row_mem _, wellFormed _⟩

theorem xorReg (x y : Reg) : Statement (.xorReg x y) :=
  ⟨by simp only [OpcodeRow.matchesWord, Instr.row, encode, mask_xy]; rfl, row_mem _, wellFormed _⟩

theorem addReg (x y : Reg) : Statement (.addReg x y) :=
  ⟨by simp only [OpcodeRow.matchesWord, Instr.row, encode, mask_xy]; rfl, row_mem _, wellFormed _⟩

theorem subReg (x y : Reg) : Statement (.subReg x y) :=
  ⟨by simp only [OpcodeRow.matchesWord, Instr.row, encode, mask_xy]; rfl, row_mem _, wellFormed _⟩

theorem shr (x y : Reg) : Statement (.shr x y) :=
  ⟨by simp only [OpcodeRow.matchesWord, Instr.row, encode, mask_xy]; rfl, row_mem _, wellFormed _⟩

theorem subnReg (x y : Reg) : Statement (.subnReg x y) :=
  ⟨by simp only [OpcodeRow.matchesWord, Instr.row, encode, mask_xy]; rfl, row_mem _, wellFormed _⟩

theorem shl (x y : Reg) : Statement (.shl x y) :=
  ⟨by simp only [OpcodeRow.matchesWord, Instr.row, encode, mask_xy]; rfl, row_mem _, wellFormed _⟩

theorem sneReg (x y : Reg) : Statement (.sneReg x y) :=
  ⟨by simp only [OpcodeRow.matchesWord, Instr.row, encode, mask_xy]; rfl, row_mem _, wellFormed _⟩

theorem ldI (nnn : Addr12) : Statement (.ldI nnn) :=
  ⟨by simp only [OpcodeRow.matchesWord, Instr.row, encode, mask_nnn]; rfl, row_mem _, wellFormed _⟩

theorem jpV0 (nnn : Addr12) : Statement (.jpV0 nnn) :=
  ⟨by simp only [OpcodeRow.matchesWord, Instr.row, encode, mask_nnn]; rfl, row_mem _, wellFormed _⟩

theorem rnd (x : Reg) (kk : Byte) : Statement (.rnd x kk) :=
  ⟨by simp only [OpcodeRow.matchesWord, Instr.row, encode, mask_xkk]; rfl, row_mem _, wellFormed _⟩

theorem drw (x y : Reg) (n : Nibble) : Statement (.drw x y n) :=
  ⟨by simp only [OpcodeRow.matchesWord, Instr.row, encode, mask_xyn]; rfl, row_mem _, wellFormed _⟩

theorem skp (x : Reg) : Statement (.skp x) :=
  ⟨by simp only [OpcodeRow.matchesWord, Instr.row, encode, mask_x]; rfl, row_mem _, wellFormed _⟩

theorem sknp (x : Reg) : Statement (.sknp x) :=
  ⟨by simp only [OpcodeRow.matchesWord, Instr.row, encode, mask_x]; rfl, row_mem _, wellFormed _⟩

theorem ldVxDt (x : Reg) : Statement (.ldVxDt x) :=
  ⟨by simp only [OpcodeRow.matchesWord, Instr.row, encode, mask_x]; rfl, row_mem _, wellFormed _⟩

theorem ldVxK (x : Reg) : Statement (.ldVxK x) :=
  ⟨by simp only [OpcodeRow.matchesWord, Instr.row, encode, mask_x]; rfl, row_mem _, wellFormed _⟩

theorem ldDt (x : Reg) : Statement (.ldDt x) :=
  ⟨by simp only [OpcodeRow.matchesWord, Instr.row, encode, mask_x]; rfl, row_mem _, wellFormed _⟩

theorem ldSt (x : Reg) : Statement (.ldSt x) :=
  ⟨by simp only [OpcodeRow.matchesWord, Instr.row, encode, mask_x]; rfl, row_mem _, wellFormed _⟩

theorem addI (x : Reg) : Statement (.addI x) :=
  ⟨by simp only [OpcodeRow.matchesWord, Instr.row, encode, mask_x]; rfl, row_mem _, wellFormed _⟩

theorem ldF (x : Reg) : Statement (.ldF x) :=
  ⟨by simp only [OpcodeRow.matchesWord, Instr.row, encode, mask_x]; rfl, row_mem _, wellFormed _⟩

theorem ldB (x : Reg) : Statement (.ldB x) :=
  ⟨by simp only [OpcodeRow.matchesWord, Instr.row, encode, mask_x]; rfl, row_mem _, wellFormed _⟩

theorem storeRegs (x : Reg) : Statement (.storeRegs x) :=
  ⟨by simp only [OpcodeRow.matchesWord, Instr.row, encode, mask_x]; rfl, row_mem _, wellFormed _⟩

theorem loadRegs (x : Reg) : Statement (.loadRegs x) :=
  ⟨by simp only [OpcodeRow.matchesWord, Instr.row, encode, mask_x]; rfl, row_mem _, wellFormed _⟩

end Sys2Proof.Laws.RowFits
end

