-- ==== Sys2Proof/Laws/Step.lean ====
section
/-!
SUPPORT. What a step can do, said once: serve the host's next request, let a core that is not `Running` wait, or run one
cycle; and what a cycle can do (40_cycle R70 to R76).
-/

namespace Sys2Proof.Machine

/-! ### The step -/

/-- With a request at the head of the agenda the step serves it. -/
theorem step_request {s : State} {r : HostRequest} {rest : List HostEvent} (h : s.agenda = .request r :: rest) :
    step s = .next (serve r { s with agenda := rest }) := by
  simp only [step, nextMove, h]

/-- With a driven cycle at the head of the agenda the step is the core's move. -/
theorem step_driven {s : State} {rest : List HostEvent} (h : s.agenda = .cycle :: rest) :
    step s = coreMove { s with agenda := rest } := by
  simp only [step, nextMove, h]

/-- With an empty agenda the step is the core's move. -/
theorem step_free {s : State} (h : s.agenda = []) : step s = coreMove s := by
  simp only [step, nextMove, h]

/-- In `Running` the core's move is a cycle. -/
theorem coreMove_running {s : State} (h : s.run = .running) : coreMove s = cycle s := by
  simp only [coreMove, h, if_true]

/-- In every other run state the core does not move (40_cycle R77, R78). -/
theorem coreMove_idle {s : State} (h : s.run ≠ .running) : coreMove s = .next s := by
  simp only [coreMove, if_neg h]

/-- What a step that answers a next state has done: served the request at the head of the agenda, or made the core's
move after taking the driven cycle off the agenda. -/
theorem step_next {s t : State} (h : step s = .next t) :
    (∃ r rest, s.agenda = .request r :: rest ∧ t = serve r { s with agenda := rest }) ∨
    (∃ rest, (s.agenda = .cycle :: rest ∨ s.agenda = [] ∧ rest = []) ∧ coreMove { s with agenda := rest } = .next t) := by
  cases ha : s.agenda with
  | nil =>
    rw [step_free ha] at h
    exact .inr ⟨[], .inr ⟨rfl, rfl⟩, by rw [← h, ← ha]⟩
  | cons e rest =>
    cases e with
    | request r => rw [step_request ha] at h; cases h; exact .inl ⟨r, rest, rfl, rfl⟩
    | cycle => rw [step_driven ha] at h; exact .inr ⟨rest, .inl rfl, h⟩

/-- When the host asks for nothing first, the step is the core's move after taking a driven cycle off the agenda. -/
theorem step_asksNothing {s : State} (h : AsksNothing s) : step s = coreMove { s with agenda := s.agenda.tail } := by
  cases ha : s.agenda with
  | nil => rw [step_free ha, List.tail_nil, ← ha]
  | cons e rest =>
    cases e with
    | request r => exact absurd ha (h r rest)
    | cycle => rw [step_driven ha, List.tail_cons]

/-- Either the host asks for something first or it does not. -/
theorem asks_or_asksNothing (s : State) : (∃ r rest, Asks s r rest) ∨ AsksNothing s := by
  by_cases h : ∃ r rest, Asks s r rest
  · exact .inl h
  · exact .inr fun r rest hr => h ⟨r, rest, hr⟩

/-- Membership in the breakpoint set as the cycle tests it. -/
theorem isBreakpoint_iff {s : State} {a : Nat} : s.isBreakpoint a = true ↔ a ∈ s.breakpoints := by
  simp [State.isBreakpoint]

/-! ### The invariant -/

/-- A state of the right shape that shares with the one before everything else the invariant speaks of, but for the
fault and the run state, meets it when its fault goes with its run state. -/
theorem State.Inv.transfer {s t : State} (h : s.Inv) (hw : t.Fits) (hq : t.params = s.params) (hm : t.mem = s.mem)
    (hg : t.fb = s.fb) (hsp : t.sp = s.sp) (hb : t.breakpoints = s.breakpoints)
    (hf : t.fault ≠ none → t.run = .halted ∨ t.run = .stopped) : t.Inv :=
  ⟨hw, by rw [hm, hq]; exact h.mem, by rw [hg, hq]; exact h.fb, by rw [hsp, hq]; exact h.sp, hf,
    by rw [hb]; exact h.breakpoints⟩

/-! ### The cycle -/

/-- A breakpoint at `PC` halts the core (R70). -/
theorem cycle_breakpoint {s : State} (h : s.isBreakpoint s.pc = true) : cycle s = .next { s with run := .halted } := by
  simp only [cycle, h, if_true]

/-- A fetch outside memory faults (R71). -/
theorem cycle_outside {s : State} (hb : s.isBreakpoint s.pc = false) (h : s.params.memCapacity ≤ s.pc + 1) :
    cycle s = .next (raise (.pcOutOfBounds s.pc) s.pc none s) := by
  simp only [cycle, hb, Bool.false_eq_true, if_false, if_pos h]

/-- Otherwise the fetched word is executed with `PC` advanced, and the cycle finished (R72 to R76). -/
theorem cycle_fetch {s : State} (hb : s.isBreakpoint s.pc = false) (h : s.pc + 1 < s.params.memCapacity) :
    cycle s = finishCycle (executeWord (fetchWord s s.pc) s.advance) := by
  simp only [cycle, hb, Bool.false_eq_true, if_false, if_neg (Nat.not_le.2 h)]

/-- Executing a word of the table is executing its instruction. -/
theorem executeWord_ok {op : Word} {i : Instr} (h : decodeWord op = .ok i) (s : State) : executeWord op s = exec i s := by
  simp only [executeWord, h]

/-- Executing any other word raises `UnsupportedOpcode` (R73). -/
theorem executeWord_error {op : Word} {e : DecodeError} (h : decodeWord op = .error e) (s : State) :
    executeWord op s = .next (raiseAt (.unsupportedOpcode op) op s) := by
  simp only [executeWord, h]

/-- A finished cycle that answers a next state: the state after the instruction, with the countdown if the core is
still `Running` (R75). -/
theorem finishCycle_next {r : Result} {t : State} (h : finishCycle r = .next t) :
    ∃ u, r = .next u ∧ t = if u.run = .running then timerTick u else u := by
  cases r with
  | next u => cases h; exact ⟨u, rfl, rfl⟩
  | fault f => cases h
  | refused f => cases h

/-- A word the next step fetches, as the cycle executes it. -/
theorem step_fetches {s : State} {op : Word} (h : Fetches s op) :
    step s = finishCycle (executeWord op { s with pc := (s.pc + 2) % 2 ^ s.params.pcWidth, agenda := s.agenda.tail }) := by
  obtain ⟨hr, ha, hb, hp, hf⟩ := h
  rw [step_asksNothing ha, coreMove_running (by exact hr)]
  have hb' : State.isBreakpoint { s with agenda := s.agenda.tail } s.pc = false := by
    rw [← Bool.not_eq_true, isBreakpoint_iff]; exact hb
  exact (cycle_fetch hb' hp).trans (by subst hf; rfl)

end Sys2Proof.Machine
end

