-- ==== Sys2Proof/Tests/Slice0.lean ====
section
/-!
SUPPORT. The model's own tests: ill-formed operands and unsupported words are refused, words written out from
30_encoding R60 decode as the table says, one step on small states gives the end state of 95_test_vectors (the vector's
number stands in each comment), and every statement with hypotheses has a state and operands that meet them.
-/

namespace Sys2Proof.Tests

open Sys2Proof.Machine

/-- A next state with a property. -/
def sat (r : Result) (p : State → Bool) : Bool :=
  match r with
  | .next t => p t
  | .fault _ => false
  | .refused _ => false

/-- The step that fetches a word from a state. -/
def ran (op : Nat) (s : State) : Result := step (s.withFetchWord 16 op)

/-- A state with a byte of memory written. -/
def poke (a : Nat) (b : Byte) (s : State) : State := s.storeBytes a [b]

/-- A state whose next host action is a request. -/
def asking (r : HostRequest) (s : State) : State := { s with agenda := [.request r] }

/-! ### Well-formedness -/

/-- 30_encoding R58: operands that do not fit the fields of a format are refused. -/
theorem test_operands_ill_formed :
    operandsFit .none [0] = false ∧
    operandsFit .nnn [] = false ∧ operandsFit .nnn [4096] = false ∧
    operandsFit .xkk [16, 0] = false ∧ operandsFit .xkk [0, 256] = false ∧ operandsFit .xkk [0] = false ∧
    operandsFit .xy [16, 0] = false ∧ operandsFit .xy [0, 16] = false ∧ operandsFit .xy [0, 0, 0] = false ∧
    operandsFit .xyn [0, 0, 16] = false ∧ operandsFit .xyn [0, 16, 0] = false ∧ operandsFit .xyn [16, 0, 0] = false ∧
    operandsFit .x [16] = false ∧ operandsFit .x [] = false := by decide

/-- The greatest operands of each format fit. -/
theorem test_operands_well_formed :
    operandsFit .none [] = true ∧ operandsFit .nnn [4095] = true ∧ operandsFit .xkk [15, 255] = true ∧
    operandsFit .xy [15, 15] = true ∧ operandsFit .xyn [15, 15, 15] = true ∧ operandsFit .x [15] = true := by decide

/-- 30_encoding R62 (vectors A28, A29, Y1 to Y6): a word of each unsupported class belongs to no row. -/
theorem test_unsupported_words_no_row :
    supportedWord 0x0123#16 = false ∧ supportedWord 0x0000#16 = false ∧ supportedWord 0x5121#16 = false ∧
    supportedWord 0x9121#16 = false ∧ supportedWord 0x8008#16 = false ∧ supportedWord 0x800F#16 = false ∧
    supportedWord 0xE000#16 = false ∧ supportedWord 0xF000#16 = false ∧ supportedWord 0xF0FF#16 = false := by decide

/-- 30_encoding R62: the decoder refuses the same words, by name. -/
theorem test_unsupported_words_refused :
    decodeWord 0x0123#16 = .error (.unsupportedOpcode 0x0123#16) ∧
    decodeWord 0x5121#16 = .error (.unsupportedOpcode 0x5121#16) ∧
    decodeWord 0x9121#16 = .error (.unsupportedOpcode 0x9121#16) ∧
    decodeWord 0x8008#16 = .error (.unsupportedOpcode 0x8008#16) ∧
    decodeWord 0x800F#16 = .error (.unsupportedOpcode 0x800F#16) ∧
    decodeWord 0xE000#16 = .error (.unsupportedOpcode 0xE000#16) ∧
    decodeWord 0xF000#16 = .error (.unsupportedOpcode 0xF000#16) ∧
    decodeWord 0xF0FF#16 = .error (.unsupportedOpcode 0xF0FF#16) := by decide

/-- 30_encoding R57: fewer than two bytes are no instruction. -/
theorem test_truncated : decodeBytes [] = .error .truncated ∧ decodeBytes [0x60#8] = .error .truncated := by decide

/-! ### Decoding: a word of every row, written out from 30_encoding R60 -/

theorem test_decode_screen_and_return :
    decodeWord 0b0000000011100000#16 = .ok .cls ∧ decodeWord 0b0000000011101110#16 = .ok .ret := by decide

theorem test_decode_addresses :
    decodeWord 0b0001001000110100#16 = .ok (.jp 0x234#12) ∧
    decodeWord 0b0010001100000000#16 = .ok (.call 0x300#12) ∧
    decodeWord 0b1010001100000001#16 = .ok (.ldI 0x301#12) ∧
    decodeWord 0b1011111100000000#16 = .ok (.jpV0 0xF00#12) := by decide

theorem test_decode_immediates :
    decodeWord 0b0011001101000010#16 = .ok (.seByte 0x3#4 0x42#8) ∧
    decodeWord 0b0100001101000010#16 = .ok (.sneByte 0x3#4 0x42#8) ∧
    decodeWord 0b0110101010011101#16 = .ok (.ldByte 0xA#4 0x9D#8) ∧
    decodeWord 0b0111111100000001#16 = .ok (.addByte 0xF#4 0x01#8) ∧
    decodeWord 0b1100001100001111#16 = .ok (.rnd 0x3#4 0x0F#8) := by decide

theorem test_decode_register_skips :
    decodeWord 0b0101000100100000#16 = .ok (.seReg 0x1#4 0x2#4) ∧
    decodeWord 0b1001000100100000#16 = .ok (.sneReg 0x1#4 0x2#4) := by decide

theorem test_decode_alu :
    decodeWord 0b1000000100100000#16 = .ok (.ldReg 0x1#4 0x2#4) ∧
    decodeWord 0b1000000100100001#16 = .ok (.orReg 0x1#4 0x2#4) ∧
    decodeWord 0b1000000100100010#16 = .ok (.andReg 0x1#4 0x2#4) ∧
    decodeWord 0b1000000100100011#16 = .ok (.xorReg 0x1#4 0x2#4) ∧
    decodeWord 0b1000000100100100#16 = .ok (.addReg 0x1#4 0x2#4) ∧
    decodeWord 0b1000000100100101#16 = .ok (.subReg 0x1#4 0x2#4) ∧
    decodeWord 0b1000000100100110#16 = .ok (.shr 0x1#4 0x2#4) ∧
    decodeWord 0b1000000100100111#16 = .ok (.subnReg 0x1#4 0x2#4) ∧
    decodeWord 0b1000000100101110#16 = .ok (.shl 0x1#4 0x2#4) := by decide

theorem test_decode_draw : decodeWord 0b1101000100100101#16 = .ok (.drw 0x1#4 0x2#4 0x5#4) := by decide

theorem test_decode_keys :
    decodeWord 0b1110001010011110#16 = .ok (.skp 0x2#4) ∧ decodeWord 0b1110001010100001#16 = .ok (.sknp 0x2#4) := by
  decide

theorem test_decode_misc :
    decodeWord 0b1111001100000111#16 = .ok (.ldVxDt 0x3#4) ∧
    decodeWord 0b1111010000001010#16 = .ok (.ldVxK 0x4#4) ∧
    decodeWord 0b1111000100010101#16 = .ok (.ldDt 0x1#4) ∧
    decodeWord 0b1111000100011000#16 = .ok (.ldSt 0x1#4) ∧
    decodeWord 0b1111001000011110#16 = .ok (.addI 0x2#4) ∧
    decodeWord 0b1111000000101001#16 = .ok (.ldF 0x0#4) ∧
    decodeWord 0b1111000100110011#16 = .ok (.ldB 0x1#4) ∧
    decodeWord 0b1111001001010101#16 = .ok (.storeRegs 0x2#4) ∧
    decodeWord 0b1111111101100101#16 = .ok (.loadRegs 0xF#4) := by decide

/-- 20_memory R47: the first byte of an instruction is its upper half. -/
theorem test_decode_bytes : decodeBytes [0xA3#8, 0x01#8, 0x55#8] = .ok (.ldI 0x301#12, [0x55#8]) := by decide

/-- spec/opcode_table.json's words reach the decoder as they are numbered. -/
theorem test_decode_table_word :
    decodeTableWord 16 0x8004 = some (.addReg 0x0#4 0x0#4) ∧ decodeTableWord 16 0xE09E = some (.skp 0x0#4) ∧
    decodeTableWord 16 0x0000 = none := by decide

/-! ### Control transfer -/

/-- T1. -/
theorem test_ret : sat (ran 0x00EE { State.reset with sp := 1, stack := State.reset.stack.set 0 0x0206#16 })
    (fun t => t.pc = 0x206 ∧ t.sp = 0) = true := by decide

/-- T2: the delay timer is not counted. -/
theorem test_ret_underflow : sat (ran 0x00EE { State.reset with dt := 9 })
    (fun t => t.pc = 0x202 ∧ t.sp = 0 ∧ t.run = .halted ∧ t.dt = 9 ∧
      t.fault = some ⟨.stackUnderflow, 0x200, some 0x00EE#16⟩) = true := by decide

/-- T3. -/
theorem test_jp : sat (ran 0x1234 State.reset) (fun t => t.pc = 0x234) = true := by decide

/-- T4. -/
theorem test_call : sat (ran 0x2300 State.reset)
    (fun t => t.pc = 0x300 ∧ t.sp = 1 ∧ t.stack[0]? = some 0x202#16 ∧ t.stack[1]? = some 0#16) = true := by decide

/-- T5. -/
theorem test_call_overflow : sat (ran 0x2300 { State.reset with sp := 16 })
    (fun t => t.pc = 0x202 ∧ t.sp = 16 ∧ t.stack = State.reset.stack ∧ t.run = .halted ∧
      t.fault = some ⟨.stackOverflow, 0x200, some 0x2300#16⟩) = true := by decide

/-- T6, T7. -/
theorem test_seByte :
    sat (ran 0x3342 (State.reset.setV 0x3#4 0x42)) (fun t => t.pc = 0x204) = true ∧
    sat (ran 0x3342 (State.reset.setV 0x3#4 0x41)) (fun t => t.pc = 0x202) = true := by decide

/-- T8. -/
theorem test_sneByte : sat (ran 0x4342 (State.reset.setV 0x3#4 0x41)) (fun t => t.pc = 0x204) = true := by decide

/-- T9, T10. -/
theorem test_seReg :
    sat (ran 0x5120 ((State.reset.setV 0x1#4 0x07).setV 0x2#4 0x07)) (fun t => t.pc = 0x204) = true ∧
    sat (ran 0x5110 (State.reset.setV 0x1#4 0x09)) (fun t => t.pc = 0x204) = true := by decide

/-- T11, T12. -/
theorem test_sneReg :
    sat (ran 0x9120 ((State.reset.setV 0x1#4 0x07).setV 0x2#4 0x08)) (fun t => t.pc = 0x204) = true ∧
    sat (ran 0x9120 ((State.reset.setV 0x1#4 0x07).setV 0x2#4 0x07)) (fun t => t.pc = 0x202) = true := by decide

/-- T13, T14: no 12-bit mask. -/
theorem test_jpV0 :
    sat (ran 0xB300 (State.reset.setV 0x0#4 0x10)) (fun t => t.pc = 0x310) = true ∧
    sat (ran 0xBF00 (State.reset.setV 0x0#4 0xFF)) (fun t => t.pc = 0xFFF) = true := by decide

/-! ### ALU -/

/-- A1, by the whole state. -/
theorem test_ldByte : sat (ran 0x6A9D State.reset)
    (fun t => t = { State.reset.setV 0xA#4 0x9D with
      pc := 0x202, run := .running, mem := ⟨.initial, [(0x200, 0x6A#8), (0x201, 0x9D#8)]⟩ }) = true := by decide

/-- A2, A3. -/
theorem test_addByte :
    sat (ran 0x7001 ((State.reset.setV 0x0#4 0xFF).setV VF 0x55))
      (fun t => t.getV 0x0#4 = 0x00 ∧ t.getV VF = 0x55) = true ∧
    sat (ran 0x7F01 (State.reset.setV VF 0x01)) (fun t => t.getV VF = 0x02) = true := by decide

/-- A4. -/
theorem test_ldReg : sat (ran 0x8120 (State.reset.setV 0x2#4 0x37)) (fun t => t.getV 0x1#4 = 0x37) = true := by
  decide

/-- A5. -/
theorem test_orReg : sat (ran 0x8121 (((State.reset.setV 0x1#4 0xF0).setV 0x2#4 0x0F).setV VF 0x07))
    (fun t => t.getV 0x1#4 = 0xFF ∧ t.getV VF = 0x07) = true := by decide

/-- A6. -/
theorem test_andReg : sat (ran 0x8122 (((State.reset.setV 0x1#4 0xF3).setV 0x2#4 0x3F).setV VF 0x07))
    (fun t => t.getV 0x1#4 = 0x33 ∧ t.getV VF = 0x07) = true := by decide

/-- A7, A8. -/
theorem test_xorReg :
    sat (ran 0x8123 (((State.reset.setV 0x1#4 0xF3).setV 0x2#4 0x3F).setV VF 0x07))
      (fun t => t.getV 0x1#4 = 0xCC ∧ t.getV VF = 0x07) = true ∧
    sat (ran 0x8113 (State.reset.setV 0x1#4 0xF3)) (fun t => t.getV 0x1#4 = 0x00) = true := by decide

/-- A9, A10: the carry begins at 256. -/
theorem test_addReg :
    sat (ran 0x8124 ((State.reset.setV 0x1#4 0xFF).setV VF 0x01))
      (fun t => t.getV 0x1#4 = 0xFF ∧ t.getV VF = 0x00) = true ∧
    sat (ran 0x8124 ((State.reset.setV 0x1#4 0xFF).setV 0x2#4 0x01))
      (fun t => t.getV 0x1#4 = 0x00 ∧ t.getV VF = 0x01) = true := by decide

/-- A12, A13: `VF` as an operand. -/
theorem test_addReg_flag_operand :
    sat (ran 0x8F14 ((State.reset.setV 0x1#4 0x01).setV VF 0xFF)) (fun t => t.getV VF = 0x01) = true ∧
    sat (ran 0x81F4 ((State.reset.setV 0x1#4 0x10).setV VF 0x05))
      (fun t => t.getV 0x1#4 = 0x15 ∧ t.getV VF = 0x00) = true := by decide

/-- A14, A15: the comparison is strict. -/
theorem test_subReg :
    sat (ran 0x8125 ((State.reset.setV 0x1#4 0x0A).setV 0x2#4 0x03))
      (fun t => t.getV 0x1#4 = 0x07 ∧ t.getV VF = 0x01) = true ∧
    sat (ran 0x8125 (((State.reset.setV 0x1#4 0x05).setV 0x2#4 0x05).setV VF 0x01))
      (fun t => t.getV 0x1#4 = 0x00 ∧ t.getV VF = 0x00) = true := by decide

/-- A16, A17. -/
theorem test_subReg_borrow :
    sat (ran 0x8125 ((State.reset.setV 0x2#4 0x01).setV VF 0x01))
      (fun t => t.getV 0x1#4 = 0xFF ∧ t.getV VF = 0x00) = true ∧
    sat (ran 0x8F15 ((State.reset.setV 0x1#4 0x01).setV VF 0x05)) (fun t => t.getV VF = 0x01) = true := by decide

/-- A19, A20: `Vy` is ignored. -/
theorem test_shr :
    sat (ran 0x8126 (((State.reset.setV 0x1#4 0x04).setV 0x2#4 0xFF).setV VF 0x01))
      (fun t => t.getV 0x1#4 = 0x02 ∧ t.getV VF = 0x00) = true ∧
    sat (ran 0x8F06 (State.reset.setV VF 0x03)) (fun t => t.getV VF = 0x01) = true := by decide

/-- A22, A23. -/
theorem test_subnReg :
    sat (ran 0x8127 (((State.reset.setV 0x1#4 0x03).setV 0x2#4 0x03).setV VF 0x01))
      (fun t => t.getV 0x1#4 = 0x00 ∧ t.getV VF = 0x00) = true ∧
    sat (ran 0x8127 ((State.reset.setV 0x1#4 0x0A).setV 0x2#4 0x03))
      (fun t => t.getV 0x1#4 = 0xF9 ∧ t.getV VF = 0x00) = true := by decide

/-- A24, A25: the flag is one bit, 0 or 1. -/
theorem test_shl :
    sat (ran 0x810E (State.reset.setV 0x1#4 0x81)) (fun t => t.getV 0x1#4 = 0x02 ∧ t.getV VF = 0x01) = true ∧
    sat (ran 0x810E ((State.reset.setV 0x1#4 0x7F).setV VF 0x01))
      (fun t => t.getV 0x1#4 = 0xFE ∧ t.getV VF = 0x00) = true := by decide

/-- A26, A27, with the draw supplied by the host. -/
theorem test_rnd :
    sat (ran 0xC300 { State.reset.setV 0x3#4 0x09 with draws := [0xFF#8] })
      (fun t => t.getV 0x3#4 = 0x00 ∧ t.draws = []) = true ∧
    sat (ran 0xC30F { State.reset with draws := [0xB7#8, 0x11#8] })
      (fun t => t.getV 0x3#4 = 0x07 ∧ t.draws = [0x11#8]) = true := by decide

/-! ### Index register and memory -/

/-- M1. -/
theorem test_ldI : sat (ran 0xA300 State.reset) (fun t => t.i = 0x300) = true := by decide

/-- M3, M4: no mask. -/
theorem test_ldF :
    sat (ran 0xF029 (State.reset.setV 0x0#4 0x10)) (fun t => t.i = 0x050) = true ∧
    sat (ran 0xF029 (State.reset.setV 0x0#4 0xFF)) (fun t => t.i = 0x4FB) = true := by decide

/-- M14, M15. -/
theorem test_addI :
    sat (ran 0xF21E ((State.reset.setI 0x300).setV 0x2#4 0x20)) (fun t => t.i = 0x320) = true ∧
    sat (ran 0xF21E ((State.reset.setI 0xFFFF).setV 0x2#4 0x01))
      (fun t => t.i = 0x0000 ∧ t.getV VF = 0x00) = true := by decide

/-- M5. -/
theorem test_ldB : sat (ran 0xF133 ((State.reset.setI 0x300).setV 0x1#4 0x9D))
    (fun t => t.memRead 0x300 = 1#8 ∧ t.memRead 0x301 = 5#8 ∧ t.memRead 0x302 = 7#8 ∧ t.i = 0x300) = true := by
  decide

/-- M8, M9: the first failing target, and nothing written. -/
theorem test_ldB_faults :
    sat (ran 0xF133 (poke 0xFFD 0xAA#8 ((State.reset.setI 0xFFD).setV 0x1#4 0x9D)))
      (fun t => t.memRead 0xFFD = 0xAA#8 ∧ t.run = .halted ∧
        t.fault = some ⟨.memWriteOutOfBounds 0xFFF, 0x200, some 0xF133#16⟩) = true ∧
    sat (ran 0xF133 (poke 0x050 0xAA#8 ((State.reset.setI 0x04E).setV 0x1#4 0x9D)))
      (fun t => t.memRead 0x050 = 0xAA#8 ∧ t.run = .halted ∧
        t.fault = some ⟨.fontWrite 0x04E, 0x200, some 0xF133#16⟩) = true := by decide

/-- M11. -/
theorem test_storeRegs : sat
    (ran 0xF255 ((((State.reset.setI 0x300).setV 0x0#4 0x11).setV 0x1#4 0x22).setV 0x2#4 0x33))
    (fun t => t.memRead 0x300 = 0x11#8 ∧ t.memRead 0x301 = 0x22#8 ∧ t.memRead 0x302 = 0x33#8 ∧
      t.i = 0x300) = true := by decide

/-- M10. -/
theorem test_storeRegs_fault : sat (ran 0xF255 (poke 0xFFD 0xAA#8 ((State.reset.setI 0xFFD).setV 0x0#4 0x01)))
    (fun t => t.memRead 0xFFD = 0xAA#8 ∧
      t.fault = some ⟨.memWriteOutOfBounds 0xFFF, 0x200, some 0xF255#16⟩) = true := by decide

/-- M12, M16: out of range reads 0; the font reads. -/
theorem test_loadRegs :
    sat (ran 0xF165 (poke 0xFFE 0xAB#8 ((State.reset.setI 0xFFE).setV 0x1#4 0x77)))
      (fun t => t.getV 0x0#4 = 0xAB ∧ t.getV 0x1#4 = 0x00 ∧ t.i = 0xFFE) = true ∧
    sat (ran 0xF065 State.reset) (fun t => t.getV 0x0#4 = 0xF0) = true := by decide

/-! ### Display -/

/-- X1. -/
theorem test_cls : sat
    (ran 0x00E0 { State.reset.setV VF 0x03 with fb := [(1, 1), (63, 31)] })
    (fun t => t.fb = [] ∧ t.getV VF = 0x03) = true := by decide

/-- The start of X3. -/
def spriteState : State :=
  poke 0x300 0xC0#8 (((State.reset.setI 0x300).setV 0x1#4 0x3F).setV 0x2#4 0x1F)

/-- X3, X4: the sprite wraps; drawn again it is gone, with a collision. -/
theorem test_drw :
    sat (ran 0xD121 spriteState)
      (fun t => t.fb = [(0, 31), (63, 31)] ∧ t.getV VF = 0x00) = true ∧
    sat (ran 0xD121 { spriteState with fb := [(0, 31), (63, 31)] })
      (fun t => t.fb = [] ∧ t.getV VF = 0x01) = true := by decide

/-- X2, X5: no rows; the old `VF` as a coordinate. -/
theorem test_drw_flag_operand :
    sat (ran 0xD120 (State.reset.setV VF 0x01)) (fun t => t.fb = [] ∧ t.getV VF = 0x00) = true ∧
    sat (ran 0xDF01 (poke 0x300 0x80#8 ((State.reset.setI 0x300).setV VF 0x05)))
      (fun t => t.fb = [(5, 0)] ∧ t.getV VF = 0x00) = true := by decide

/-! ### Keys and timers -/

/-- K2, K3. -/
theorem test_skp :
    sat (ran 0xE29E ((State.reset.setV 0x2#4 0x05).setKey 0x5 true)) (fun t => t.pc = 0x204) = true ∧
    sat (ran 0xE29E (State.reset.setV 0x2#4 0x05)) (fun t => t.pc = 0x202) = true := by decide

/-- K4. -/
theorem test_sknp : sat (ran 0xE2A1 (State.reset.setV 0x2#4 0x05)) (fun t => t.pc = 0x204) = true := by decide

/-- K5. -/
theorem test_skp_invalid_key : sat (ran 0xE29E (State.reset.setV 0x2#4 0x10))
    (fun t => t.pc = 0x202 ∧ t.run = .halted ∧
      t.fault = some ⟨.invalidKey 0x10, 0x200, some 0xE29E#16⟩) = true := by decide

/-- K6. -/
theorem test_ldVxDt : sat (ran 0xF307 { State.reset with dt := 0x10 })
    (fun t => t.getV 0x3#4 = 0x10 ∧ t.dt = 0x0F) = true := by decide

/-- K7, K8. -/
theorem test_ldDt :
    sat (ran 0xF115 (State.reset.setV 0x1#4 0x05)) (fun t => t.dt = 0x04) = true ∧
    sat (ran 0xF115 { State.reset with dt := 0x09 }) (fun t => t.dt = 0x00) = true := by decide

/-- K9, K10. -/
theorem test_ldSt :
    sat (ran 0xF118 (State.reset.setV 0x1#4 0x03)) (fun t => t.st = 0x02) = true ∧
    sat (ran 0xF118 (State.reset.setV 0x1#4 0x01)) (fun t => t.st = 0x00) = true := by decide

/-- K11. -/
theorem test_countdown : sat (ran 0x6000 { State.reset with dt := 1, st := 2 })
    (fun t => t.dt = 0 ∧ t.st = 1) = true := by decide

/-- K12. -/
theorem test_ldVxK : sat (ran 0xF40A { State.reset with dt := 3 })
    (fun t => t.run = .awaitingKeypress ∧ t.pc = 0x202 ∧ t.waitReg = 0x4#4 ∧ t.waitAddr = 0x200 ∧
      t.dt = 3) = true := by decide

/-- The state after K12. -/
def waiting : State :=
  { State.reset with run := .awaitingKeypress, pc := 0x202, waitReg := 0x4#4, waitAddr := 0x200, dt := 3 }

/-- K13. -/
theorem test_wait_ends_by_key_down : sat (step (asking (.setDown 0xB) waiting))
    (fun t => t.getV 0x4#4 = 0x0B ∧ t.run = .running ∧ t.dt = 2 ∧ t.keyIsDown 0xB = true ∧
      t.lastKey = some 0xB ∧ t.pc = 0x202) = true := by decide

/-- K14, K15. -/
theorem test_wait_stopped_or_key_up :
    sat (step (asking .stop waiting))
      (fun t => t.run = .stopped ∧ t.pc = 0x200 ∧ t.getV 0x4#4 = 0 ∧ t.dt = 3) = true ∧
    sat (step (asking (.setUp 3) (waiting.setKey 0x3 true)))
      (fun t => t.run = .awaitingKeypress ∧ t.keyIsUp 0x3 = true) = true := by decide

/-! ### Cycle -/

/-- K1: a breakpoint halts before the fetch; only the run state changes. -/
theorem test_breakpoint :
    sat (step { State.reset with run := .running, breakpoints := [0x200] })
      (fun t => t = { State.reset with run := .halted, breakpoints := [0x200] }) = true := by decide

/-- Y1: an unsupported word faults with `PC` advanced. -/
theorem test_unsupported_word : sat (ran 0x5121 { State.reset with dt := 7 })
    (fun t => t.pc = 0x202 ∧ t.run = .halted ∧ t.dt = 7 ∧
      t.fault = some ⟨.unsupportedOpcode 0x5121#16, 0x200, some 0x5121#16⟩) = true := by decide

/-- Y7, Y9: the last word of memory is fetched; so is one at an odd address. -/
theorem test_fetch_edges :
    sat (ran 0x6001 { State.reset with pc := 0xFFD }) (fun t => t.getV 0x0#4 = 1 ∧ t.pc = 0xFFF) = true ∧
    sat (ran 0x6001 { State.reset with pc := 0x201 }) (fun t => t.getV 0x0#4 = 1 ∧ t.pc = 0x203) = true := by
  decide

/-- Y8: a word not wholly in memory is not fetched. -/
theorem test_fetch_outside : sat (step { State.reset with pc := 0xFFE, run := .running })
    (fun t => t.pc = 0xFFE ∧ t.run = .halted ∧
      t.fault = some ⟨.pcOutOfBounds 0xFFE, 0xFFE, none⟩) = true := by decide

/-! ### Host operations -/

/-- The state after Y1. -/
def faulted : State :=
  { State.reset with
    pc := 0x202, run := .halted, fault := some ⟨.unsupportedOpcode 0x5121#16, 0x200, some 0x5121#16⟩ }

/-- Y10, Y11: `run()` is refused until `reset()`. -/
theorem test_run_after_fault :
    sat (step (asking .run faulted)) (fun t => t.run = .halted ∧ t.reply = some (.failed .faultRecorded)) = true ∧
    sat (step (asking .reset faulted)) (fun t => t.fault = none ∧ t.pc = 0x200 ∧ t.run = .stopped) = true := by
  decide

/-- H1, H2: the greatest image that fits, and one byte more. -/
theorem test_load_capacity :
    (hostLoad 0x200 (List.replicate 3583 0#8) State.reset).2 = .ok ∧
    hostLoad 0x200 (List.replicate 3584 0#8) State.reset = (State.reset, .failed .capacityExceeded) := by
  simp only [hostLoad, List.length_replicate]
  exact ⟨rfl, rfl⟩

/-- H3, H4. -/
theorem test_load_font :
    sat (step (asking (.load 0x04F [0xAA#8]) State.reset))
      (fun t => t.mem = State.reset.mem ∧ t.reply = some (.failed .fontOverlap)) = true ∧
    sat (step (asking (.load 0x050 [0xAA#8]) State.reset))
      (fun t => t.memRead 0x050 = 0xAA#8 ∧ t.reply = some .ok) = true := by decide

/-- H5: nothing to write is no overlap. -/
theorem test_load_nothing : sat (step (asking (.load 0 []) State.reset))
    (fun t => t.mem = State.reset.mem ∧ t.reply = some .ok) = true := by decide

/-- H6, H10. -/
theorem test_set_register :
    sat (step (asking (.setRegister ['v', 'a'] 0x12) State.reset)) (fun t => t.getV 0xA#4 = 0x12) = true ∧
    sat (step (asking (.setRegister ['p', 'c'] 0xFFFF) State.reset)) (fun t => t.pc = 0xFFFF) = true := by decide

/-- H7, H8, H9. -/
theorem test_set_register_fails :
    sat (step (asking (.setRegister ['S', 'P'] 1) State.reset))
      (fun t => t.sp = 0 ∧ t.reply = some (.failed .unknownRegister)) = true ∧
    sat (step (asking (.setRegister ['V', '1', '0'] 1) State.reset))
      (fun t => t.v = State.reset.v ∧ t.reply = some (.failed .unknownRegister)) = true ∧
    sat (step (asking (.setRegister ['D', 'T'] 0x100) State.reset))
      (fun t => t.dt = 0 ∧ t.reply = some (.failed .valueTooWide)) = true := by decide

/-- The digits of register names. -/
theorem test_hex_digits : "0123456789ABCDEF".toList.map hexDigit =
    (List.range 16).map (fun k => some (BitVec.ofNat 4 k)) ∧ hexDigit 'G' = none ∧ hexDigit '/' = none := by decide

/-- H11, H12. -/
theorem test_read_memory :
    sat (step (asking (.readMemory 0xFFF) State.reset)) (fun t => t.reply = some (.byte 0#8)) = true ∧
    sat (step (asking (.readMemory 0x000) State.reset)) (fun t => t.reply = some (.byte 0xF0#8)) = true := by decide

/-- H13. -/
theorem test_set_down_invalid : sat (step (asking (.setDown 0x10) State.reset))
    (fun t => t.keys = State.reset.keys ∧ t.reply = some (.failed .invalidKey)) = true := by decide

/-- H14, H15. -/
theorem test_breakpoints_kept :
    sat (step (asking (.setBreakpoint 0x200#16) { State.reset with breakpoints := [0x200] }))
      (fun t => t.breakpoints = [0x200] ∧ t.reply = some .ok) = true ∧
    sat (step (asking .reset { State.reset with breakpoints := [0x204] }))
      (fun t => t.breakpoints = [0x204]) = true := by decide

/-! ### Other parameters (00_scope R7) -/

/-- A small machine: 17 registers of 9 bits, an `I` of 12 bits, a `PC` of 13, an `SP` of 2, timers of 4, 2 stack
entries, 600 bytes of memory, a one-glyph font of two bytes at address 3, programs at 16, a grid of 10 by 6 cells and 5
keys. -/
def smallParams : Config.Params where
  numV := 17
  vWidth := 9
  iWidth := 12
  pcWidth := 13
  spWidth := 2
  timerWidth := 4
  stackDepth := 2
  memCapacity := 600
  fontBase := 3
  fontGlyphs := 1
  fontGlyphBytes := 2
  font := [0x12#8, 0x34#8]
  programStart := 16
  fbW := 10
  fbH := 6
  numKeys := 5

/-- The small machine right after construction. -/
def small : State := State.initial smallParams

/-- The machine starts at its own load offset, reads its own font and its own end of memory, and refuses stores there
(20_memory R42, R43). -/
theorem test_small_memory :
    small.pc = 16 ∧ small.memRead 4 = 0x34#8 ∧ small.memRead 600 = 0#8 ∧
    checkStore smallParams 4 = some (.fontWrite 4) ∧ checkStore smallParams 5 = none ∧
    checkStore smallParams 599 = none ∧ checkStore smallParams 600 = some (.memWriteOutOfBounds 600) := by decide

/-- Its stack is full with two entries (10_state R20), and its grid wraps at its own edges (10_state R25). -/
theorem test_small_stack_and_grid :
    sat (ran 0x2020 { small with sp := 1 }) (fun t => t.sp = 2 ∧ t.fault = none) = true ∧
    sat (ran 0x2020 { small with sp := 2 })
      (fun t => t.fault = some ⟨.stackOverflow, 16, some 0x2020#16⟩) = true ∧
    sat (ran 0xD121 (poke 100 0xC0#8 ((small.setI 100).setV 0x1#4 0x09)))
      (fun t => t.fb = [(0, 0), (9, 0)]) = true := by decide

/-- Its registers carry out of bit 8 and shift bit 8 out (42_alu R96, R100 with the width of R7). -/
theorem test_small_alu :
    sat (ran 0x8124 ((small.setV 0x1#4 0xFF).setV 0x2#4 1)) (fun t => t.getV 0x1#4 = 0x100 ∧ t.getV VF = 0) = true ∧
    sat (ran 0x8124 ((small.setV 0x1#4 0x1FF).setV 0x2#4 1)) (fun t => t.getV 0x1#4 = 0 ∧ t.getV VF = 1) = true ∧
    sat (ran 0x8125 (small.setV 0x2#4 1)) (fun t => t.getV 0x1#4 = 0x1FF ∧ t.getV VF = 0) = true ∧
    sat (ran 0x810E (small.setV 0x1#4 0x101)) (fun t => t.getV 0x1#4 = 2 ∧ t.getV VF = 1) = true := by decide

/-- Its `I` wraps at 12 bits, its `PC` at 13, a timer keeps 4 bits, and key 5 is no key of it (43_memory_index R103,
40_cycle R72, 10_state R23, R26 with the parameters of R7). -/
theorem test_small_widths :
    sat (ran 0xF11E ((small.setI 0xFFF).setV 0x1#4 2)) (fun t => t.i = 1) = true ∧
    small.advance.pc = 18 ∧ ({ small with pc := 0x1FFF } : State).advance.pc = 1 ∧
    sat (ran 0xF115 (small.setV 0x1#4 0x1A)) (fun t => t.dt = 9) = true ∧
    sat (ran 0xE19E ((small.setV 0x1#4 4).setKey 4 true)) (fun t => t.pc = 20) = true ∧
    sat (ran 0xE19E (small.setV 0x1#4 5)) (fun t => t.fault = some ⟨.invalidKey 5, 16, some 0xE19E#16⟩) = true := by
  decide

/-- `setRegister` takes a value of the parameter's width and no greater one (60_exceptions R127). -/
theorem test_small_set_register :
    sat (step (asking (.setRegister ['V', '1'] 0x1FF) small)) (fun t => t.getV 0x1#4 = 0x1FF) = true ∧
    sat (step (asking (.setRegister ['D', 'T'] 0x10) small))
      (fun t => t.dt = 0 ∧ t.reply = some (.failed .valueTooWide)) = true := by decide

/-- A machine of 8 registers has no `V8`: a write of it changes nothing, and its name is unknown (log 27). -/
theorem test_absent_register :
    (State.initial { smallParams with numV := 8 }).setV 0x8#4 1 = State.initial { smallParams with numV := 8 } ∧
    sat (step (asking (.setRegister ['V', '8'] 1) (State.initial { smallParams with numV := 8 })))
      (fun t => t.v = List.replicate 8 0 ∧ t.reply = some (.failed .unknownRegister)) = true ∧
    sat (step (asking (.setRegister ['V', '7'] 1) (State.initial { smallParams with numV := 8 })))
      (fun t => t.getV 0x7#4 = 1 ∧ t.reply = some .ok) = true := by decide

/-! ### Witnesses: states and operands that meet the hypotheses of each statement -/

/-- A core about to run the word placed at `PC`. -/
def ready (op : Nat) (s : State) : State := s.withFetchWord 16 op

/-- An agenda that does not begin with a request asks for nothing. -/
theorem asksNothing_nil {s : State} (h : s.agenda = []) : AsksNothing s := fun r rest ha => by
  rw [Asks, h] at ha; cases ha

/-- So does one that begins by driving a cycle. -/
theorem asksNothing_cycle {s : State} {rest : List HostEvent} (h : s.agenda = .cycle :: rest) : AsksNothing s :=
  fun r rest' ha => by rw [Asks, h] at ha; cases ha

/-- What the model's own placing of a word gives is a fetch of it. -/
theorem fetches_of {s : State} {op : Word} (hr : s.run = .running) (ha : s.agenda = [])
    (h : s.breakpoints = [] ∧ s.pc + 1 < s.params.memCapacity ∧ fetchWord s s.pc = op) : Fetches s op :=
  ⟨hr, asksNothing_nil ha, by rw [h.1]; exact List.not_mem_nil, h.2.1, h.2.2⟩

/-- DecodeFollowsTheOpcodeTable: a word that is read, and a row that a word meets. -/
theorem witness_decode_table :
    (∃ i, decodeWord 0xF065#16 = .ok i) ∧
    (∃ r ∈ opcodeTable, 0x8F14#16 &&& r.mask = r.bits) ∧ decodeWord 0xF0FF#16 = .error (.unsupportedOpcode 0xF0FF#16) := by
  refine ⟨⟨.loadRegs 0x0#4, by decide⟩, by decide, by decide⟩

/-- The shape of a state from its parts, so that it can be decided. -/
theorem fits_of {s : State} (h : s.params.Valid ∧ s.v.length = s.params.numV ∧ (∀ n ∈ s.v, n < 2 ^ s.params.vWidth) ∧
    s.i < 2 ^ s.params.iWidth ∧ s.pc < 2 ^ s.params.pcWidth ∧ s.dt < 2 ^ s.params.timerWidth ∧
    s.st < 2 ^ s.params.timerWidth ∧ s.waitAddr < 2 ^ s.params.pcWidth ∧ s.stack.length = s.params.stackDepth ∧
    s.keys.length = s.params.numKeys ∧ ∀ k ∈ s.lastKey, k < s.params.numKeys) : s.Fits :=
  ⟨h.1, h.2.1, h.2.2.1, h.2.2.2.1, h.2.2.2.2.1, h.2.2.2.2.2.1, h.2.2.2.2.2.2.1, h.2.2.2.2.2.2.2.1,
    h.2.2.2.2.2.2.2.2.1, h.2.2.2.2.2.2.2.2.2.1, h.2.2.2.2.2.2.2.2.2.2⟩

/-- The invariant from its parts, so that it can be decided. -/
theorem inv_of {s : State} (hw : s.Fits) (h : s.mem.wf s.params ∧ Framebuffer.wf s.params s.fb ∧
    s.sp ≤ s.params.stackDepth ∧ (s.fault ≠ none → s.run = .halted ∨ s.run = .stopped) ∧
    s.breakpoints.Pairwise (fun a b => addrBefore a b = true)) : s.Inv :=
  ⟨hw, h.1, h.2.1, h.2.2.1, h.2.2.2.1, h.2.2.2.2⟩

/-- The shape that many statements ask of a state: at the document's parameters with every register at its greatest
value or any other, and at others, where the widths differ as the statements' premises on them say and as they do not.
-/
theorem witness_fits :
    State.Fits { State.reset with
      v := List.replicate 16 255, i := 0xFFFF, pc := 0xFFFF, dt := 255, st := 255, lastKey := some 15 } ∧
    State.Fits { small with v := List.replicate 17 0x1FF, i := 0xFFF, pc := 0x1FFF, dt := 15, st := 15, lastKey := some 4 } ∧
    (12 ≤ documentParams.iWidth ∧ 12 < documentParams.pcWidth ∧ documentParams.vWidth < documentParams.pcWidth ∧
      documentParams.vWidth + 3 ≤ documentParams.iWidth ∧ documentParams.timerWidth ≤ documentParams.vWidth ∧
      documentParams.vWidth ≤ documentParams.timerWidth ∧ documentParams.numKeys ≤ 2 ^ documentParams.vWidth) ∧
    ¬smallParams.vWidth ≤ smallParams.timerWidth :=
  ⟨fits_of (by decide), fits_of (by decide), by decide, by decide⟩

/-- RegistersReadBackNarrowedToTheirWidth: a register that a machine of 8 does not have, and one it has. -/
theorem witness_registers :
    small.Fits ∧ (State.initial { smallParams with numV := 8 }).v.length ≤ (0x8#4).toNat ∧ (0x7#4 : Reg) ≠ 0x8#4 :=
  ⟨fits_of (by decide), by decide, by decide⟩

/-- ConstructionState: bytes on both sides of the end of the font, and the last byte of memory. -/
theorem witness_construction :
    State.reset.memRead 79 = 0x80#8 ∧ State.reset.memRead 80 = Config.memInit 80 ∧
    State.reset.memRead 4094 = Config.memInit 4094 ∧ State.reset.memRead 4095 = 0#8 ∧
    documentParams.inFont 79 ∧ documentParams.font[79 - documentParams.fontBase]? = some 0x80#8 ∧
    (0xF#4 : Reg).toNat < documentParams.numV :=
  ⟨rfl, rfl, rfl, rfl, by decide, by decide, by decide⟩

/-- HostResetLeavesTheResetState: a reset asked for, and one of the two values of the parameter holds. -/
theorem witness_host_reset :
    Asks (asking .reset faulted) .reset [] ∧ (Config.resetMemory = .keep ∨ Config.resetMemory = .clear) :=
  ⟨rfl, by cases Config.resetMemory <;> simp⟩

/-- StepKeepsTheInvariant, InvariantStatesHaveANextState: a cycle, and a request. -/
theorem witness_step_invariant :
    ((ready 0x2300 State.reset).Inv ∧ ∃ t, step (ready 0x2300 State.reset) = .next t) ∧
    ((asking (.setDown 0xF) waiting).Inv ∧ ∃ t, step (asking (.setDown 0xF) waiting) = .next t) :=
  ⟨⟨inv_of (fits_of (by decide)) (by decide), _, rfl⟩, inv_of (fits_of (by decide)) (by decide), _, rfl⟩

/-- ResetMeetsTheInvariant: other parameters that fit together. -/
theorem witness_valid : smallParams.Valid ∧ documentParams.Valid := by decide

/-- FontTableNeverChanges: the ends of the font. -/
theorem witness_font : (∃ t, step (ready 0xF133 State.reset) = .next t) ∧
    State.reset.params.inFont 0 ∧ State.reset.params.inFont 79 ∧ 79 < State.reset.params.memCapacity ∧
    State.reset.params.font[79 - State.reset.params.fontBase]? = some 0x80#8 :=
  ⟨⟨_, rfl⟩, by decide, by decide, by decide, by decide⟩

/-- MemoryReadsWhatWasWritten, FetchIsBigEndian: the ends of the writable range. -/
theorem witness_memory :
    State.reset.mem.wf documentParams ∧ (documentParams.fontEnd ≤ 80 ∧ 80 < documentParams.memCapacity) ∧
    (documentParams.fontEnd ≤ 4094 ∧ 4094 < documentParams.memCapacity) ∧ documentParams.memCapacity ≤ 4095 ∧
    State.reset.params.fontEnd ≤ 4093 ∧ 4093 + 1 < State.reset.params.memCapacity ∧
    (State.reset.mem.write documentParams 4094 0xBB#8).read documentParams 4094 = 0xBB#8 ∧
    (State.reset.mem.write documentParams 80 0xAA#8).read documentParams 80 = 0xAA#8 ∧
    fetchWord (State.reset.storeBytes 4093 (bytesOfWord 0x1234#16)) 4093 = 0x1234#16 := by decide

/-- StepRunsTheDecodedInstruction, at the first and the last word of a program. -/
theorem witness_fetches :
    Fetches (ready 0x8124 State.reset) 0x8124#16 ∧
    Fetches (ready 0x8124 { State.reset with pc := 0xFFD }) 0x8124#16 ∧
    decodeWord 0x8124#16 = .ok (.addReg 0x1#4 0x2#4) :=
  ⟨fetches_of rfl rfl (by decide), fetches_of rfl rfl (by decide), by decide⟩

/-- A running core at a breakpoint. -/
def atBreakpoint : State := { State.reset with run := .running, breakpoints := [0x200] }

/-- BreakpointHaltsBeforeTheFetch: with an empty agenda, with a driven cycle, and in a core that does not run. -/
theorem witness_breakpoint :
    (AsksNothing atBreakpoint ∧ atBreakpoint.run = .running ∧ atBreakpoint.pc ∈ atBreakpoint.breakpoints) ∧
    AsksNothing { atBreakpoint with agenda := [.cycle] } ∧ AsksNothing State.reset ∧ State.reset.run ≠ .running :=
  ⟨⟨asksNothing_nil rfl, rfl, by decide⟩, asksNothing_cycle rfl, asksNothing_nil rfl, by decide⟩

/-- FetchAndDecodeFaults: the first address with no whole word, the last address there is, and an unsupported word. -/
theorem witness_fetch_faults :
    (∀ a : Nat, a = 0xFFE ∨ a = 0xFFFF →
      AsksNothing { State.reset with run := .running, pc := a } ∧ a ∉ State.reset.breakpoints ∧
        State.reset.params.memCapacity ≤ a + 1) ∧
    (ready 0x5121 State.reset).pc < 2 ^ State.reset.params.pcWidth ∧
    Fetches (ready 0x5121 State.reset) 0x5121#16 ∧ supportedWord 0x5121#16 = false :=
  ⟨fun a ha => ⟨asksNothing_nil rfl, List.not_mem_nil, by rcases ha with rfl | rfl <;> decide⟩,
    by decide, fetches_of rfl rfl (by decide), by decide⟩

/-- TimersCountDownAfterTheInstruction, TimersAreSetFromRegisters, DelayTimerIsReadBeforeTheCountdown,
KeyWaitSuspendsTheCore: the four words fetched. -/
theorem witness_timer_words :
    Fetches (ready 0xF115 State.reset) (encode (.ldDt 0x1#4)) ∧ Fetches (ready 0xF118 State.reset) (encode (.ldSt 0x1#4)) ∧
    Fetches (ready 0xF307 State.reset) (encode (.ldVxDt 0x3#4)) ∧ Fetches (ready 0xF40A State.reset) (encode (.ldVxK 0x4#4)) :=
  ⟨fetches_of rfl rfl (by decide), fetches_of rfl rfl (by decide), fetches_of rfl rfl (by decide),
    fetches_of rfl rfl (by decide)⟩

/-- CountdownRunsExactlyOnCompletion, RunStateChangesOnlyAsTabled: a cycle that leaves the core running, two that do
not, a stop, and a core that waits. -/
theorem witness_cycles :
    (∀ op, (ready op State.reset).run = .running ∧ AsksNothing (ready op State.reset)) ∧
    (∃ t, step (ready 0x6000 State.reset) = .next t ∧ t.run = .running) ∧
    (∃ t, step (ready 0xF40A State.reset) = .next t ∧ t.run = .awaitingKeypress) ∧
    (∃ t, step (ready 0x00EE State.reset) = .next t ∧ t.run = .halted) ∧
    (Asks (asking .stop waiting) .stop [] ∧ ∃ t, step (asking .stop waiting) = .next t) ∧
    (AsksNothing waiting ∧ waiting.run ≠ .running ∧ ∃ t, step waiting = .next t) :=
  ⟨fun _ => ⟨rfl, asksNothing_nil rfl⟩, ⟨_, rfl, rfl⟩, ⟨_, rfl, rfl⟩, ⟨_, rfl, rfl⟩, ⟨rfl, _, rfl⟩,
    asksNothing_nil rfl, by decide, _, rfl⟩

/-- FaultsArePrecise: an instruction's fault and a fetch's. -/
theorem witness_precise_faults :
    ((ready 0x00EE State.reset).pc < 2 ^ State.reset.params.pcWidth ∧
      (ready 0x00EE State.reset).run = .running ∧ AsksNothing (ready 0x00EE State.reset) ∧
      (ready 0x00EE State.reset).fault = none ∧ ∃ t, step (ready 0x00EE State.reset) = .next t ∧ t.fault ≠ none) ∧
    (AsksNothing { State.reset with run := .running, pc := 0xFFE } ∧
      ∃ t, step { State.reset with run := .running, pc := 0xFFE } = .next t ∧ t.fault ≠ none) :=
  ⟨⟨by decide, rfl, asksNothing_nil rfl, rfl, _, rfl, by decide⟩, asksNothing_nil rfl, _, rfl, by decide⟩

/-- RecordedFaultIsKeptUntilReset. -/
theorem witness_recorded_fault :
    (asking .run faulted).Inv ∧ (∃ f, (asking .run faulted).fault = some f) ∧
    (∃ t, step (asking .run faulted) = .next t) ∧ ∀ rest, ¬Asks (asking .run faulted) .reset rest :=
  ⟨inv_of (fits_of (by decide)) (by decide), ⟨_, rfl⟩, ⟨_, rfl⟩, fun rest h => by simp [Asks, asking] at h⟩

/-- BreakpointSetOnlyGrows: an address set anew, one set again, and a query. -/
theorem witness_breakpoint_set :
    Asks (asking (.setBreakpoint 0x204#16) State.reset) (.setBreakpoint 0x204#16) [] ∧
    State.Inv { State.reset with breakpoints := [0x200, 0x204] } ∧
    (0x204#16 : Word).toNat ∈ [0x200, 0x204] ∧
    Asks (asking (.hasBreakpoint 0x204#16) State.reset) (.hasBreakpoint 0x204#16) [] :=
  ⟨rfl, inv_of (fits_of (by decide)) (by decide), by decide, rfl⟩

/-- InstructionsWriteOnlyWhatTheTableLists, OnlySixInstructionsWriteTheFlag: each kind of state changed by an
instruction that may. -/
theorem witness_writes :
    sat (exec (.ldI 0x300#12) State.reset) (fun t => t.i ≠ State.reset.i) = true ∧
    sat (exec (.call 0x300#12) State.reset) (fun t => t.sp ≠ State.reset.sp ∧ t.stack[0]? ≠ State.reset.stack[0]?) = true ∧
    sat (exec (.ldDt 0x1#4) (State.reset.setV 0x1#4 9)) (fun t => t.dt ≠ 0) = true ∧
    sat (exec (.ldSt 0x1#4) (State.reset.setV 0x1#4 9)) (fun t => t.st ≠ 0) = true ∧
    sat (exec (.drw 0x1#4 0x2#4 0x1#4) State.reset) (fun t => t.fb ≠ State.reset.fb) = true ∧
    sat (exec (.ldB 0x1#4) (poke 0x300 0xAA#8 (State.reset.setI 0x300))) (fun t => t.memRead 0x300 ≠ 0xAA#8) = true ∧
    sat (exec (.storeRegs 0x1#4) (poke 0x301 0xAA#8 (State.reset.setI 0x300))) (fun t => t.memRead 0x301 ≠ 0xAA#8) =
      true ∧
    sat (exec (.ldVxK 0x4#4) State.reset) (fun t => t.waitReg ≠ State.reset.waitReg) = true ∧
    sat (exec (.rnd 0x1#4 0xFF#8) State.reset) (fun t => t.drawCount ≠ State.reset.drawCount) = true ∧
    writesFlag (.shl 0xF#4 0x0#4) = true ∧ writesFlag (.addByte 0x1#4 0xFF#8) = false ∧
    VF ∉ destinations (.addByte 0x1#4 0xFF#8) ∧ 0x2#4 ∉ destinations (.addByte 0x1#4 0xFF#8) := by decide

/-- The results of the ALU: a destination other than `VF`, and a random byte with and without a supply. -/
theorem witness_alu : (0xE#4 : Reg) ≠ VF ∧ ({ State.reset with draws := [0xB7#8] } : State).draws = 0xB7#8 :: [] ∧
    State.reset.draws = [] := by decide

/-- JumpTakesTheAddress: the first and the last address whose fetch faults, and a jump to itself. -/
theorem witness_jump :
    12 ≤ State.reset.params.pcWidth ∧ State.reset.params.memCapacity ≤ (0xFFE#12).toNat + 1 ∧
    sat (exec (.jp 0xFFE#12) { State.reset with run := .running })
      (fun t => t.run = .running ∧ t.agenda = [] ∧ t.pc ∉ t.breakpoints ∧ t.params.memCapacity ≤ t.pc + 1) = true ∧
    Fetches (ready 0x1200 State.reset) (0x1#4 ++ 0x200#12) ∧
    (ready 0x1200 State.reset).pc = (0x200#12).toNat % 2 ^ State.reset.params.pcWidth :=
  ⟨by decide, by decide, by decide, fetches_of rfl rfl (by decide), by decide⟩

/-- CallPushesOrOverflows, ReturnPopsOrUnderflows, SixteenCallsFitTheStack: the ends of the stack. -/
theorem witness_stack :
    State.Fits { State.reset with sp := 15 } ∧ State.Fits State.reset ∧ State.reset.sp = 0 ∧
    ({ State.reset with sp := 15 } : State).sp < State.reset.params.stackDepth ∧
    ({ State.reset with sp := 16 } : State).sp = State.reset.params.stackDepth ∧
    (({ State.reset with sp := 1 } : State).sp = 0 + 1 ∧ State.reset.stack[0]? = some 0#16) ∧
    (({ State.reset with sp := 16 } : State).sp = 15 + 1 ∧ State.reset.stack[15]? = some 0#16) ∧
    (0#16).toNat < 2 ^ State.reset.params.pcWidth :=
  ⟨fits_of (by decide), fits_of (by decide), rfl, by decide, by decide, by decide, by decide, by decide⟩

/-- ReturnAfterCallResumes: a call that fills the stack, and a call whose body called and returned, which leaves the
entry above as that inner call wrote it. -/
theorem witness_return_after_call :
    (State.Fits { State.reset with sp := 15 } ∧ ({ State.reset with sp := 15 } : State).sp < State.reset.params.stackDepth ∧
      ∃ t, exec (.call 0x300#12) { State.reset with sp := 15 } = .next t ∧
        (t.setV 0x3#4 0x55).params = t.params ∧
        (t.setV 0x3#4 0x55).sp = t.sp ∧ (t.setV 0x3#4 0x55).stack[15]? = t.stack[15]?) ∧
    (∃ t b u, exec (.call 0x300#12) State.reset = .next t ∧ exec (.call 0x400#12) t = .next b ∧ exec .ret b = .next u ∧
      u.params = State.reset.params ∧ u.sp = t.sp ∧ u.stack[0]? = t.stack[0]? ∧ u.stack ≠ t.stack) :=
  ⟨⟨fits_of (by decide), by decide, _, rfl, rfl, rfl, rfl⟩, _, _, _, rfl, rfl, rfl, rfl, rfl, rfl, by decide⟩

/-- BcdStoresThreeDigits, RegisterStoreResult: the first and the last place of each store. -/
theorem witness_stores :
    State.reset.params.fontEnd ≤ (State.reset.setI 80).base ∧ State.reset.params.fontEnd ≤ (State.reset.setI 4079).base ∧
    (State.reset.setI 4092).base + 3 ≤ State.reset.params.memCapacity ∧
    (State.reset.setI 4079).base + ((0xF#4).toNat + 1) ≤ State.reset.params.memCapacity ∧
    (State.reset.setV 0x1#4 255).getV 0x1#4 < 1000 := by decide

/-- StoresOutOfBoundsFault: the last font byte as first target, and a second and a last target outside memory. -/
theorem witness_stores_out_of_bounds :
    (State.reset.setI 79).base + 0 < State.reset.params.fontEnd ∧
    ((∀ j, j < 2 → State.reset.params.fontEnd ≤ (State.reset.setI 4093).base + j ∧
        (State.reset.setI 4093).base + j < State.reset.params.memCapacity) ∧
      State.reset.params.memCapacity ≤ (State.reset.setI 4093).base + 2) ∧
    ((∀ j, j < 15 → State.reset.params.fontEnd ≤ (State.reset.setI 4080).base + j ∧
        (State.reset.setI 4080).base + j < State.reset.params.memCapacity) ∧
      State.reset.params.memCapacity ≤ (State.reset.setI 4080).base + 15 ∧ 15 ≤ (0xF#4).toNat) := by decide

/-- RegisterLoadResult: a register read inside memory and one outside. -/
theorem witness_load : (0xE#4).toNat ≤ (0xF#4).toNat ∧ (State.reset.setI 4080).base + (0xE#4).toNat < 4095 ∧
    State.reset.params.memCapacity ≤ (State.reset.setI 4080).base + (0xF#4).toNat ∧ (0x0#4).toNat < (0x1#4).toNat := by decide

/-- RegisterStoreThenLoadRestores: a store of all registers that raises nothing, and a state with its memory and `I`. -/
theorem witness_store_then_load :
    ∃ t, exec (.storeRegs 0xF#4) (State.reset.setI 80) = .next t ∧ t.fault = none ∧
      (t.setV 0x3#4 0x55).Fits ∧ (t.setV 0x3#4 0x55).params = t.params ∧ (t.setV 0x3#4 0x55).mem = t.mem ∧
      (t.setV 0x3#4 0x55).i = (State.reset.setI 80).i :=
  ⟨_, rfl, rfl, fits_of (by decide), rfl, rfl, rfl⟩

/-- DrawXorsTheSprite: the sprite of X3 covers the corner cell and wraps to column 0, and leaves column 1. -/
theorem witness_sprite :
    8 ≤ spriteState.params.fbW ∧ (0x1#4).toNat ≤ spriteState.params.fbH ∧ 63 < spriteState.params.fbW ∧
    31 < spriteState.params.fbH ∧
    SpriteCovers spriteState 0x1#4 0x2#4 0x1#4 63 31 ∧ SpriteCovers spriteState 0x1#4 0x2#4 0x1#4 0 31 ∧
    ¬SpriteCovers spriteState 0x1#4 0x2#4 0x1#4 1 31 := by
  refine ⟨by decide, by decide, by decide, by decide, ⟨0, 0, by decide⟩, ⟨0, 1, by decide⟩, fun h => ?_⟩
  rw [spriteCovers_iff (by decide) (by decide)] at h
  revert h
  simp only [sameCell]
  decide

/-- DrawingTwiceRestoresTheFramebuffer: the state after a draw, with one register more changed. -/
theorem witness_draw_twice :
    spriteState.Inv ∧ ∃ t, exec (.drw 0x1#4 0x2#4 0x1#4) spriteState = .next t ∧
      (t.setV 0x7#4 0x11).Fits ∧ (t.setV 0x7#4 0x11).params = spriteState.params ∧ (t.setV 0x7#4 0x11).fb = t.fb ∧
      (t.setV 0x7#4 0x11).mem = spriteState.mem ∧ (t.setV 0x7#4 0x11).i = spriteState.i ∧
      (t.setV 0x7#4 0x11).getV 0x1#4 = spriteState.getV 0x1#4 ∧
      (t.setV 0x7#4 0x11).getV 0x2#4 = spriteState.getV 0x2#4 :=
  ⟨inv_of (fits_of (by decide)) (by decide), _, rfl, fits_of (by decide), rfl, rfl, rfl, rfl, rfl, rfl⟩

/-- KeySkipsTestTheKey: the greatest key, and the least number that is no key. -/
theorem witness_keys :
    (State.reset.setV 0x2#4 0x0F).getV 0x2#4 = 15 ∧ 15 < State.reset.params.numKeys ∧
    State.reset.params.numKeys ≤ (State.reset.setV 0x2#4 0x10).getV 0x2#4 := by decide

/-- KeyNotificationsUpdateKeysAndEndTheWait: in and out of a wait, the greatest key, and a number that is no key. -/
theorem witness_notifications :
    Asks (asking (.setDown 15) waiting) (.setDown 15) [] ∧ waiting.run = .awaitingKeypress ∧
    Asks (asking (.setDown 15) State.reset) (.setDown 15) [] ∧ State.reset.run ≠ .awaitingKeypress ∧
    Asks (asking (.setUp 15) State.reset) (.setUp 15) [] ∧
    Asks (asking (.setDown 16) State.reset) (.setDown 16) [] ∧ Asks (asking (.setUp 16) State.reset) (.setUp 16) [] ∧
    15 < State.reset.params.numKeys ∧ State.reset.params.numKeys ≤ 16 ∧ (asking (.setDown 15) waiting).Fits :=
  ⟨rfl, rfl, rfl, by decide, rfl, rfl, rfl, by decide, by decide, fits_of (by decide)⟩

/-- RunAndStopOperations: `run()` with a fault recorded and in each run state without one, and `stop()` in a key wait
and outside. -/
theorem witness_run_stop :
    (Asks (asking .run faulted) .run [] ∧ faulted.fault ≠ none) ∧
    (Asks (asking .run State.reset) .run [] ∧ State.reset.fault = none ∧ State.reset.run = .stopped) ∧
    ({ State.reset with run := .halted } : State).fault = none ∧
    ({ State.reset with run := .running } : State).fault = none ∧ waiting.fault = none ∧
    Asks (asking .stop waiting) .stop [] ∧ waiting.run = .awaitingKeypress ∧
    Asks (asking .stop faulted) .stop [] ∧ faulted.run ≠ .awaitingKeypress :=
  ⟨⟨rfl, by decide⟩, ⟨rfl, rfl, rfl⟩, rfl, rfl, rfl, rfl, rfl, rfl, by decide⟩

/-- LoadStoresOrFails: one byte too far, the last font byte, and the ends of what is stored. -/
theorem witness_load_operation :
    Asks (asking (.load 4095 [0#8]) State.reset) (.load 4095 [0#8]) [] ∧
    State.reset.params.memCapacity < 4095 + [0#8].length ∧
    (79 + [0#8].length ≤ State.reset.params.memCapacity ∧ [0#8] ≠ [] ∧ 79 < State.reset.params.fontEnd) ∧
    (State.reset.params.fontEnd ≤ 80 ∧ 80 + [0#8].length ≤ State.reset.params.memCapacity) ∧
    4094 + [0#8].length ≤ State.reset.params.memCapacity ∧
    4095 + ([] : List Byte).length ≤ State.reset.params.memCapacity :=
  ⟨rfl, by decide, by decide, by decide, by decide, by decide⟩

/-- SetRegisterWritesOneRegister: names of each register, the greatest value of each width and the next one, and a name
that stands for none. -/
theorem witness_set_register :
    Asks (asking (.setRegister ['v', 'f'] 255) State.reset) (.setRegister ['v', 'f'] 255) [] ∧
    ['v', 'f'].map Char.toUpper = ['V', 'F'] ∧ hexDigits[(0xF#4).toNat]? = some 'F' ∧
    hexDigits[(0x0#4).toNat]? = some '0' ∧ 'F' ∈ hexDigits ∧ 255 < 2 ^ State.reset.params.vWidth ∧
    2 ^ State.reset.params.timerWidth ≤ 256 ∧
    ['i'].map Char.toUpper = ['I'] ∧ ['p', 'C'].map Char.toUpper = ['P', 'C'] ∧
    ['d', 't'].map Char.toUpper = ['D', 'T'] ∧ ['S', 't'].map Char.toUpper = ['S', 'T'] ∧
    65535 < 2 ^ State.reset.params.pcWidth ∧ ['s', 'p'].map Char.toUpper = ['S', 'P'] ∧ 'G' ∉ hexDigits ∧
    hexDigit 'A' = some 0xA#4 ∧
    (asking (.setRegister ['v', 'f'] 255) State.reset).Fits :=
  ⟨rfl, by decide, by decide, by decide, by decide, by decide, by decide, by decide, by decide, by decide, by decide,
    by decide, by decide, by decide, by decide, fits_of (by decide)⟩

/-- HostReadsChangeNothing: each read asked for, and memory addresses on both sides of the end. -/
theorem witness_host_reads :
    Asks (asking .getRegisters State.reset) .getRegisters [] ∧
    Asks (asking (.readMemory 4094) State.reset) (.readMemory 4094) [] ∧
    Asks (asking (.readMemory 4095) State.reset) (.readMemory 4095) [] ∧
    Asks (asking .readFramebuffer State.reset) .readFramebuffer [] ∧
    Asks (asking .readSoundTimer State.reset) .readSoundTimer [] ∧
    Asks (asking .readStatus State.reset) .readStatus [] := ⟨rfl, rfl, rfl, rfl, rfl, rfl⟩

/-- LaunchGivesTheProgramItsState: a launch that succeeds, an image one byte too long, and, at parameters whose
`PROGRAM_START` lies below the end of the font, an image of one byte, whose launch fails, and the empty image, whose
launch does not. -/
theorem witness_launch :
    (∃ u, launch [0x60#8, 0x01#8] [0x202#16] State.reset = some u) ∧
    State.reset.params.memCapacity < State.reset.params.programStart + (List.replicate 3584 (0#8 : Byte)).length ∧
    ([0xAA#8] ≠ [] ∧ { smallParams with programStart := 4 }.programStart < { smallParams with programStart := 4 }.fontEnd ∧
      launch [0xAA#8] [] (State.initial { smallParams with programStart := 4 }) = none) ∧
    ∃ u, launch [] [] (State.initial { smallParams with programStart := 4 }) = some u :=
  ⟨⟨_, rfl⟩, by rw [List.length_replicate]; decide, ⟨by decide, by decide, by decide⟩, _, rfl⟩

end Sys2Proof.Tests
end

section
/-!
Proofs about the state (10_state): what every instruction writes and what none reads, the flag, the breakpoint set along
a step, and calls in a row on an empty stack.
-/

namespace Sys2Proof.Machine

variable {i : Instr} {s t : State}

/-! ### Writing a general register (10_state R15) -/

/-- A write of a register that the machine does not have changes nothing (log 27). -/
theorem State.setV_absent {r : Reg} (h : s.v.length ≤ r.toNat) (n : Nat) : s.setV r n = s := by
  rw [State.setV, List.set_eq_of_length_le h]

/-- Settles O60: each clause is the law of one named write. -/
theorem registersReadBackNarrowedToTheirWidth : Obligations.RegistersReadBackNarrowedToTheirWidth := fun s r n =>
  ⟨fun hw => ⟨hw.setV r n, s.getV_setV_self (hw.reg r) n, hw.getV_lt r⟩, fun _ hq => s.getV_setV_ne hq n,
    fun h => State.setV_absent h n, rfl, rfl, rfl, rfl⟩

/-! ### What an instruction writes (10_state R34) -/

/-- Every register but the destinations of an instruction, and `VF` where it writes the flag, is as before. -/
def KeepsRegisters (i : Instr) (s t : State) : Prop :=
  ∀ r, r ∉ destinations i → (writesFlag i = true → r ≠ VF) → t.getV r = s.getV r

/-- The next states an instruction can have, by the part of the state it writes: its own fault, `PC`, general registers,
or the part that it alone or few others write. Every field that a case does not name is as before. -/
inductive Writes (s : State) : Instr → State → Prop
  | raised (i : Instr) (k : FaultKind) : Writes s i (raiseAt k (encode i) s)
  | pc (i : Instr) (n : Nat) : Writes s i { s with pc := n }
  | v (i : Instr) (l : List Nat) (hv : KeepsRegisters i s { s with v := l }) : Writes s i { s with v := l }
  | rnd (x : Reg) (kk : Byte) (n : Nat) (d : List Byte) (c : Nat) :
    Writes s (.rnd x kk) (State.setV { s with draws := d, drawCount := c } x n)
  | i (i : Instr) (n : Nat) (hi : (∃ nnn, i = .ldI nnn) ∨ (∃ x, i = .addI x) ∨ ∃ x, i = .ldF x) :
    Writes s i { s with i := n }
  | dt (x : Reg) (n : Nat) : Writes s (.ldDt x) { s with dt := n }
  | st (x : Reg) (n : Nat) : Writes s (.ldSt x) { s with st := n }
  | cls (fb : Framebuffer) : Writes s .cls { s with fb := fb }
  | drw (x y : Reg) (n : Nibble) (fb : Framebuffer) (c : Bool) :
    Writes s (.drw x y n) (State.setFlag { s.setFlag false with fb := fb } c)
  | wait (x : Reg) (a : Nat) : Writes s (.ldVxK x) { s with waitReg := x, waitAddr := a, run := .awaitingKeypress }
  | mem (i : Instr) (bytes : List Byte) (hc : checkStores s.params s.base bytes.length = none)
    (hi : (∃ x, i = .ldB x ∧ bytes.length = 3) ∨ ∃ x, i = .storeRegs x ∧ bytes.length = x.toNat + 1) :
    Writes s i (s.storeBytes s.base bytes)
  | call (nnn : Addr12) (n k : Nat) (e : Word) :
    Writes s (.call nnn) { s with pc := n, sp := k, stack := s.stack.set s.sp e }
  | ret (n k : Nat) : Writes s .ret { s with pc := n, sp := k }

/-- A skip writes `PC` alone. -/
theorem writes_skipIf (i : Instr) (s : State) (c : Bool) : Writes s i (s.skipIf c) := by
  cases c
  · exact .pc i s.pc
  · exact .pc i _

/-- A write of the destination. -/
theorem writes_setV {x : Reg} (hx : destinations i = [x]) (s : State) (n : Nat) : Writes s i (s.setV x n) :=
  .v i _ fun _ hr _ => s.getV_setV_ne (List.ne_of_not_mem_cons (hx ▸ hr)) n

/-- A write of the destination and of the flag. -/
theorem writes_setResult {x : Reg} (hx : destinations i = [x]) (hf : writesFlag i = true) (s : State) (n : Nat)
    (c : Bool) : Writes s i (s.setResult x n c) :=
  .v i _ fun _ hr hv => s.getV_setResult_ne (List.ne_of_not_mem_cons (hx ▸ hr)) (hv hf) n c

/-- A checked key test raises its fault or skips. -/
theorem writes_of_withKey {x : Reg} {c : Nat → Bool}
    (h : withKey x (encode i) s (fun k => .next (s.skipIf (c k))) = .next t) : Writes s i t := by
  by_cases hk : s.params.numKeys ≤ s.getV x
  · rw [withKey_invalid hk] at h; cases h; exact .raised i _
  · rw [withKey_valid (Nat.not_le.1 hk)] at h; cases h; exact writes_skipIf i s _

/-- A checked store at `I` raises its fault or writes its bytes. -/
theorem writes_of_storeAt {bytes : List Byte} (h : storeAt s.base bytes (encode i) s = .next t)
    (hi : (∃ x, i = .ldB x ∧ bytes.length = 3) ∨ ∃ x, i = .storeRegs x ∧ bytes.length = x.toNat + 1) :
    Writes s i t := by
  cases hc : checkStores s.params s.base bytes.length with
  | some k => rw [storeAt_fault hc] at h; cases h; exact .raised i k
  | none => rw [storeAt_ok hc] at h; cases h; exact .mem i bytes hc hi

/-- Whatever an instruction's next state is, it is one of those the table of writes admits. -/
theorem exec_writes (h : exec i s = .next t) : Writes s i t := by
  cases i with
  | ret =>
    simp only [exec, execRet] at h
    rcases pop_next h with rfl | ⟨_, v, _, h⟩
    · exact .raised .ret _
    · cases h; exact .ret _ _
  | call nnn =>
    simp only [exec, execCall] at h
    rcases push_next h with rfl | ⟨_, _, h⟩
    · exact .raised (.call nnn) _
    · cases h; exact .call nnn _ _ _
  | jp nnn | jpV0 nnn => cases h; exact .pc _ _
  | seByte x kk | sneByte x kk | seReg x y | sneReg x y => cases h; exact writes_skipIf _ s _
  | skp x | sknp x => exact writes_of_withKey h
  | ldByte x kk | addByte x kk | ldReg x y | orReg x y | andReg x y | xorReg x y | ldVxDt x =>
    cases h; exact writes_setV rfl s _
  | addReg x y | subReg x y | shr x y | subnReg x y | shl x y => cases h; exact writes_setResult rfl rfl s _ _
  | loadRegs x =>
    cases h
    have hv : KeepsRegisters (.loadRegs x) s (loadList s.base (regsUpTo x) s) := fun _ hr _ => getV_loadList_ne _ s hr
    rw [loadList_eq] at hv ⊢
    exact .v _ _ hv
  | rnd x kk => cases h; rw [randomByte_eq]; exact .rnd x kk _ _ _
  | ldI nnn => cases h; exact .i _ _ (.inl ⟨nnn, rfl⟩)
  | addI x => cases h; exact .i _ _ (.inr (.inl ⟨x, rfl⟩))
  | ldF x => cases h; exact .i _ _ (.inr (.inr ⟨x, rfl⟩))
  | ldB x => exact writes_of_storeAt h (.inl ⟨x, rfl, rfl⟩)
  | storeRegs x => exact writes_of_storeAt h (.inr ⟨x, rfl, length_regBytes s x⟩)
  | ldDt x => cases h; exact .dt x _
  | ldSt x => cases h; exact .st x _
  | ldVxK x => cases h; exact .wait x _
  | cls => cases h; exact .cls _
  | drw x y n => cases h; exact .drw x y n _ _

/-! ### One part of the state each -/

theorem Writes.keepsRegisters (h : Writes s i t) : KeepsRegisters i s t := by
  cases h with
  | v _ _ hv => exact hv
  | rnd x kk n d c => exact fun r hr _ => State.getV_setV_ne _ (List.ne_of_not_mem_cons hr) n
  | drw x y n fb c =>
    exact fun r _ hf => (State.getV_setFlag_ne _ (hf rfl) c).trans (s.getV_setFlag_ne (hf rfl) false)
  | _ => exact fun _ _ _ => rfl

theorem Writes.i_changed (h : Writes s i t) (hne : t.i ≠ s.i) :
    (∃ nnn, i = .ldI nnn) ∨ (∃ x, i = .addI x) ∨ ∃ x, i = .ldF x := by
  cases h with
  | i _ _ hi => exact hi
  | _ => exact absurd rfl hne

theorem Writes.sp_changed (h : Writes s i t) (hne : t.sp ≠ s.sp) : i = .ret ∨ ∃ nnn, i = .call nnn := by
  cases h with
  | ret => exact .inl rfl
  | call nnn => exact .inr ⟨nnn, rfl⟩
  | _ => exact absurd rfl hne

theorem Writes.stack_length (h : Writes s i t) : t.stack.length = s.stack.length := by
  cases h with
  | call => exact List.length_set
  | _ => rfl

theorem Writes.stack_changed (h : Writes s i t) {k : Nat} (hne : t.stack[k]? ≠ s.stack[k]?) :
    k = s.sp ∧ ∃ nnn, i = .call nnn := by
  cases h with
  | call nnn => exact ⟨by_contra fun hk => hne (List.getElem?_set_ne (Ne.symm hk)), nnn, rfl⟩
  | _ => exact absurd rfl hne

theorem Writes.dt_changed (h : Writes s i t) (hne : t.dt ≠ s.dt) : ∃ x, i = .ldDt x := by
  cases h with
  | dt x => exact ⟨x, rfl⟩
  | _ => exact absurd rfl hne

theorem Writes.st_changed (h : Writes s i t) (hne : t.st ≠ s.st) : ∃ x, i = .ldSt x := by
  cases h with
  | st x => exact ⟨x, rfl⟩
  | _ => exact absurd rfl hne

theorem Writes.fb_changed (h : Writes s i t) (hne : t.fb ≠ s.fb) : i = .cls ∨ ∃ x y n, i = .drw x y n := by
  cases h with
  | cls => exact .inl rfl
  | drw x y n => exact .inr ⟨x, y, n, rfl⟩
  | _ => exact absurd rfl hne

theorem Writes.memRead_changed (h : Writes s i t) {a : Nat} (hne : t.memRead a ≠ s.memRead a) :
    s.base ≤ a ∧
      ((∃ x, i = .ldB x ∧ a < s.base + 3) ∨ ∃ x, i = .storeRegs x ∧ a < s.base + (x.toNat + 1)) := by
  cases h with
  | mem _ bytes hc hi =>
    obtain ⟨hlo, hhi⟩ : s.base ≤ a ∧ a < s.base + bytes.length := by
      by_contra hout
      exact hne (s.memRead_storeBytes_outside hc (by omega))
    refine ⟨hlo, hi.imp ?_ ?_⟩
    · rintro ⟨x, hx, hl⟩; exact ⟨x, hx, hl ▸ hhi⟩
    · rintro ⟨x, hx, hl⟩; exact ⟨x, hx, hl ▸ hhi⟩
  | _ => exact absurd rfl hne

theorem Writes.wait_changed (h : Writes s i t) (hne : t.waitReg ≠ s.waitReg ∨ t.waitAddr ≠ s.waitAddr) :
    ∃ x, i = .ldVxK x := by
  cases h with
  | wait x => exact ⟨x, rfl⟩
  | _ => exact hne.elim (absurd rfl) (absurd rfl)

theorem Writes.draws_changed (h : Writes s i t) (hne : t.draws ≠ s.draws ∨ t.drawCount ≠ s.drawCount) :
    ∃ x kk, i = .rnd x kk := by
  cases h with
  | rnd x kk => exact ⟨x, kk, rfl⟩
  | _ => exact hne.elim (absurd rfl) (absurd rfl)

theorem Writes.unwritten (h : Writes s i t) : t.keys = s.keys ∧ t.lastKey = s.lastKey ∧
    t.breakpoints = s.breakpoints ∧ t.agenda = s.agenda ∧ t.reply = s.reply ∧ t.params = s.params := by
  cases h <;> exact ⟨rfl, rfl, rfl, rfl, rfl, rfl⟩

/-- Settles O22: `exec_writes` says once what a next state is, and each clause reads one part of it. -/
theorem instructionsWriteOnlyWhatTheTableLists : Obligations.InstructionsWriteOnlyWhatTheTableLists := by
  intro i s t h
  have hw := exec_writes h
  exact ⟨hw.keepsRegisters, hw.i_changed, hw.sp_changed, hw.stack_length, fun _ => hw.stack_changed, hw.dt_changed,
    hw.st_changed, hw.fb_changed, fun _ => hw.memRead_changed, hw.wait_changed, hw.draws_changed, hw.unwritten⟩

/-! ### The flag (10_state R16) -/

theorem flagValue_eq_zero_or_one (c : Bool) : flagValue c = 0 ∨ flagValue c = 1 := by
  cases c
  · exact .inl rfl
  · exact .inr rfl

/-- A result and its flag leave 0 or 1 in `VF`, also where the result goes there (decision D15). -/
theorem State.Fits.getV_setResult_vf (hw : s.Fits) (x : Reg) (n : Nat) (c : Bool) :
    (s.setResult x n c).getV VF = flagValue c :=
  (State.getV_setResult_vf s (hw.reg VF) x n c).trans (hw.flag_mod c)

theorem writesFlag_iff : writesFlag i = true ↔ (∃ x y, i = .addReg x y) ∨ (∃ x y, i = .subReg x y) ∨
    (∃ x y, i = .shr x y) ∨ (∃ x y, i = .subnReg x y) ∨ (∃ x y, i = .shl x y) ∨ ∃ x y n, i = .drw x y n := by
  cases i <;> simp [writesFlag]

/-- The six instructions leave a flag value in `VF`. -/
theorem exec_flagValue (h : exec i s = .next t) (hw : s.Fits) (hf : writesFlag i = true) :
    ∃ c, t.getV VF = flagValue c := by
  cases i with
  | addReg x y | subReg x y | shr x y | subnReg x y | shl x y => cases h; exact ⟨_, hw.getV_setResult_vf x _ _⟩
  | drw x y n =>
    obtain ⟨u, hu, _, _, hflag, _⟩ := exec_drw x y n s
    rw [hu] at h
    cases h
    exact ⟨_, hflag hw⟩
  | _ => cases hf

/-- Settles O23: the flag of the six is a flag value, and any other instruction keeps every register that is not its
destination. -/
theorem onlySixInstructionsWriteTheFlag : Obligations.OnlySixInstructionsWriteTheFlag := by
  intro i s t h
  refine ⟨fun hw hf => ?_, fun hf hd => ?_, writesFlag_iff⟩
  · obtain ⟨c, hc⟩ := exec_flagValue h hw hf
    rw [hc]
    exact flagValue_eq_zero_or_one c
  · exact (exec_writes h).keepsRegisters VF hd fun hf' => absurd (hf.symm.trans hf') Bool.false_ne_true

/-! ### What no instruction reads (10_state R37) -/

/-- The state with other values in the fields that no instruction reads. -/
def State.withUnread (k : Option Nat) (b : Nat) (ag : List HostEvent) (rp : Option HostReply) (s : State) : State :=
  { s with lastKey := k, st := b, agenda := ag, reply := rp }

/-- The outcome of a step with its next state changed by `f`. -/
def mapNext (f : State → State) : Result → Result
  | .next t => .next (f t)
  | .fault r => .fault r
  | .refused r => .refused r

section
variable (k : Option Nat) (b : Nat) (ag : List HostEvent) (rp : Option HostReply)

theorem skipIf_withUnread (c : Bool) :
    (s.withUnread k b ag rp).skipIf c = (s.skipIf c).withUnread k b ag rp := by cases c <;> rfl

theorem loadList_withUnread (a : Nat) (rs : List Reg) (s : State) :
    loadList a rs (s.withUnread k b ag rp) = (loadList a rs s).withUnread k b ag rp := by
  induction rs generalizing s with
  | nil => rfl
  | cons r rs ih => exact ih (s.setV r (s.memRead (a + r.toNat)).toNat)

theorem randomByte_withUnread (s : State) : randomByte (s.withUnread k b ag rp) =
    ((randomByte s).1, (randomByte s).2.withUnread k b ag rp) := by
  rcases hd : s.draws with _ | ⟨r, rest⟩
  · simp only [randomByte, State.withUnread, hd]
  · simp only [randomByte, State.withUnread, hd]

theorem drawSprite_withUnread (x y : Reg) (n : Nibble) (s : State) :
    drawSprite x y n (s.withUnread k b ag rp) = drawSprite x y n s := by
  have hb : (s.withUnread k b ag rp).readBytes s.base n.toNat = s.readBytes s.base n.toNat :=
    State.readBytes_congr (s := s) (t := s.withUnread k b ag rp) rfl rfl _ _
  exact congrArg (fun l => drawCells s.params (spriteCells (s.getV x) (s.getV y) l) (s.fb, false)) hb

theorem push_withUnread (v op : Word) {rest : State → Result}
    (hr : ∀ u, rest (u.withUnread k b ag rp) = mapNext (State.withUnread k b ag rp) (rest u)) :
    push v op (s.withUnread k b ag rp) rest = mapNext (State.withUnread k b ag rp) (push v op s rest) := by
  by_cases hf : s.sp = s.params.stackDepth
  · rw [push_full hf, push_full (by exact hf)]; rfl
  · by_cases hlt : s.sp < s.stack.length
    · rw [push_room hf hlt, push_room (by exact hf) (by exact hlt), ← hr]; rfl
    · rw [push_missing hf (Nat.not_lt.1 hlt), push_missing (by exact hf) (by exact Nat.not_lt.1 hlt)]; rfl

theorem pop_withUnread (op : Word) {rest : Word → State → Result}
    (hr : ∀ v u, rest v (u.withUnread k b ag rp) = mapNext (State.withUnread k b ag rp) (rest v u)) :
    pop op (s.withUnread k b ag rp) rest = mapNext (State.withUnread k b ag rp) (pop op s rest) := by
  by_cases h0 : s.sp = 0
  · rw [pop_empty h0, pop_empty (by exact h0)]; rfl
  · cases hv : s.stack[s.sp - 1]? with
    | none => rw [pop_missing h0 hv, pop_missing (by exact h0) (by exact hv)]; rfl
    | some v => rw [pop_occupied h0 hv, pop_occupied (by exact h0) (by exact hv), ← hr]; rfl

theorem withKey_withUnread (x : Reg) (op : Word) (c : Nat → Bool) :
    withKey x op (s.withUnread k b ag rp) (fun n => .next ((s.withUnread k b ag rp).skipIf (c n))) =
      mapNext (State.withUnread k b ag rp) (withKey x op s fun n => .next (s.skipIf (c n))) := by
  by_cases hk : s.params.numKeys ≤ s.getV x
  · rw [withKey_invalid hk, withKey_invalid (by exact hk)]; rfl
  · rw [withKey_valid (Nat.not_le.1 hk), withKey_valid (by exact Nat.not_le.1 hk), skipIf_withUnread]; rfl

theorem storeAt_withUnread (a : Nat) (bytes : List Byte) (op : Word) :
    storeAt a bytes op (s.withUnread k b ag rp) = mapNext (State.withUnread k b ag rp) (storeAt a bytes op s) := by
  cases hc : checkStores s.params a bytes.length with
  | some f => rw [storeAt_fault hc, storeAt_fault (by exact hc)]; rfl
  | none => rw [storeAt_ok hc, storeAt_ok (by exact hc)]; rfl

/-- With other values in the unread fields every instruction but `Fx18`, which writes one of them, does the same. -/
theorem exec_withUnread (hi : ∀ x, i ≠ .ldSt x) :
    exec i (s.withUnread k b ag rp) = mapNext (State.withUnread k b ag rp) (exec i s) := by
  cases i with
  | ldSt x => exact absurd rfl (hi x)
  | ret => exact pop_withUnread k b ag rp _ (rest := fun v u => .next (u.setPC v.toNat)) fun _ _ => rfl
  | call nnn => exact push_withUnread k b ag rp _ _ (rest := fun u => .next (u.setPC nnn.toNat)) fun _ => rfl
  | seByte x kk | sneByte x kk | seReg x y | sneReg x y => exact congrArg _ (skipIf_withUnread k b ag rp _)
  | skp x => exact withKey_withUnread k b ag rp x _ s.keyIsDown
  | sknp x => exact withKey_withUnread k b ag rp x _ s.keyIsUp
  | ldB x | storeRegs x => exact storeAt_withUnread k b ag rp _ _ _
  | loadRegs x => exact congrArg _ (loadList_withUnread k b ag rp _ _ s)
  | rnd x kk => simp only [exec, execRnd, randomByte_withUnread]; rfl
  | drw x y n => simp only [exec, execDrw, drawSprite_withUnread]; rfl
  | cls | jp nnn | ldByte x kk | addByte x kk | ldReg x y | orReg x y | andReg x y | xorReg x y | addReg x y | subReg x y
  | shr x y | subnReg x y | shl x y | ldI nnn | jpV0 nnn | ldVxDt x | ldVxK x | ldDt x | addI x | ldF x => rfl

end

/-- Settles O24: `Fx18` writes `ST` from a register, and every other instruction commutes with changing the unread
fields. -/
theorem instructionsNeverReadLastKeyOrSoundTimer : Obligations.InstructionsNeverReadLastKeyOrSoundTimer := by
  intro i s k b ag rp
  cases i with
  | ldSt x => rfl
  | _ => exact exec_withUnread k b ag rp nofun

/-! ### The breakpoint set (10_state R32) -/

theorem writeRegister_breakpoints (q : RegName) (n : Nat) (s : State) :
    (writeRegister q n s).breakpoints = s.breakpoints := by cases q <;> rfl

/-- A host operation leaves the breakpoint set alone, but for `setBreakpoint`, which inserts its address. -/
theorem hostOperation_breakpoints (r : HostRequest) (s : State) :
    (hostOperation r s).1.breakpoints = s.breakpoints ∨
      ∃ a, r = .setBreakpoint a ∧ (hostOperation r s).1.breakpoints = insertBreakpoint s.breakpoints a.toNat := by
  cases r with
  | setBreakpoint a => exact .inr ⟨a, rfl, rfl⟩
  | load offset bytes => left; simp only [hostOperation, hostLoad]; split_ifs <;> rfl
  | run =>
    left
    simp only [hostOperation, hostRun]
    split
    · rfl
    · cases s.run <;> rfl
  | setRegister name value =>
    left
    simp only [hostOperation, hostSetRegister]
    cases parseRegister name with
    | none => rfl
    | some q =>
      simp only
      split_ifs
      · rfl
      · exact writeRegister_breakpoints q value s
      · rfl
  | setDown k => left; simp only [hostOperation, hostSetDown]; split_ifs <;> rfl
  | setUp k => left; simp only [hostOperation, hostSetUp]; split_ifs <;> rfl
  | stop | reset | getRegisters | hasBreakpoint a | readMemory a | readFramebuffer | readSoundTimer | readStatus =>
    exact .inl rfl

/-- Executing a word leaves the breakpoint set alone. -/
theorem executeWord_breakpoints {op : Word} (h : executeWord op s = .next t) : t.breakpoints = s.breakpoints := by
  cases hd : decodeWord op with
  | error e => rw [executeWord_error hd] at h; cases h; rfl
  | ok i => rw [executeWord_ok hd] at h; exact (exec_writes h).unwritten.2.2.1

theorem cycle_breakpoints (h : cycle s = .next t) : t.breakpoints = s.breakpoints := by
  cases hb : s.isBreakpoint s.pc with
  | true => rw [cycle_breakpoint hb] at h; cases h; rfl
  | false =>
    by_cases hp : s.params.memCapacity ≤ s.pc + 1
    · rw [cycle_outside hb hp] at h; cases h; rfl
    · rw [cycle_fetch hb (Nat.not_le.1 hp)] at h
      obtain ⟨u, hu, rfl⟩ := finishCycle_next h
      have := executeWord_breakpoints hu
      split <;> exact this

theorem coreMove_breakpoints (h : coreMove s = .next t) : t.breakpoints = s.breakpoints := by
  by_cases hr : s.run = .running
  · rw [coreMove_running hr] at h; exact cycle_breakpoints h
  · rw [coreMove_idle hr] at h; cases h; rfl

/-- A step leaves the breakpoint set alone, or inserts the address that the host's `setBreakpoint` names. -/
theorem step_breakpoints (h : step s = .next t) : t.breakpoints = s.breakpoints ∨
    ∃ a rest, Asks s (.setBreakpoint a) rest ∧ t.breakpoints = insertBreakpoint s.breakpoints a.toNat := by
  rcases step_next h with ⟨r, rest, ha, rfl⟩ | ⟨rest, _, hc⟩
  · refine (hostOperation_breakpoints r { s with agenda := rest }).imp id ?_
    rintro ⟨a, rfl, hb⟩
    exact ⟨a, rest, ha, hb⟩
  · exact .inl (coreMove_breakpoints (s := { s with agenda := rest }) hc)

/-- Settles O21: a step inserts the address of a `setBreakpoint` or leaves the set alone. -/
theorem breakpointSetOnlyGrows : Obligations.BreakpointSetOnlyGrows := by
  refine ⟨fun s a rest ha => ?_, fun s a rest ha => ?_, fun s t h => ?_⟩
  · exact ⟨_, step_request ha, rfl, fun b => mem_insertBreakpoint, fun hi hm => insertBreakpoint_of_mem hi.breakpoints hm⟩
  · rw [step_request ha, ← List.contains_eq_mem]; rfl
  · rcases step_breakpoints h with hb | ⟨a, rest, ha, hb⟩
    · rw [hb]
      exact ⟨fun _ => id, fun _ => .inl⟩
    · rw [hb]
      refine ⟨fun b hm => mem_insertBreakpoint.2 (.inr hm), fun b hm => ?_⟩
      exact (mem_insertBreakpoint.1 hm).symm.imp id fun e => ⟨a, rest, e.symm, ha⟩

/-! ### Calls in a row (10_state R20) -/

/-- What a call with room on the stack makes of a state (41_control_flow R83). -/
def State.called (nnn : Addr12) (s : State) : State :=
  { s with
    pc := nnn.toNat % 2 ^ s.params.pcWidth
    sp := (s.sp + 1) % 2 ^ s.params.spWidth
    stack := s.stack.set s.sp (BitVec.ofNat 16 s.pc) }

/-- Calls in a row keep the parameters, the fault record and the size of the stack. -/
theorem iterate_called_frame (nnn : Addr12) (s : State) (k : Nat) :
    ((State.called nnn)^[k] s).params = s.params ∧ ((State.called nnn)^[k] s).fault = s.fault ∧
      ((State.called nnn)^[k] s).stack.length = s.stack.length := by
  induction k with
  | zero => exact ⟨rfl, rfl, rfl⟩
  | succ k ih =>
    obtain ⟨hp, hf, hl⟩ := ih
    rw [Function.iterate_succ_apply']
    exact ⟨hp, hf, List.length_set.trans hl⟩

/-- From an empty stack, calls in a row are counted as long as `SP` can count them. -/
theorem iterate_called_sp (nnn : Addr12) (h0 : s.sp = 0) {k : Nat} (hk : k < 2 ^ s.params.spWidth) :
    ((State.called nnn)^[k] s).sp = k := by
  induction k with
  | zero => exact h0
  | succ k ih =>
    rw [Function.iterate_succ_apply']
    show (((State.called nnn)^[k] s).sp + 1) % 2 ^ ((State.called nnn)^[k] s).params.spWidth = k + 1
    rw [ih (by omega), (iterate_called_frame nnn s k).1, Nat.mod_eq_of_lt hk]

/-- Settles O38: the states are those of `State.called` iterated, where `SP` counts the calls up to `STACK_DEPTH`. -/
theorem sixteenCallsFitTheStack : Obligations.SixteenCallsFitTheStack := by
  refine ⟨rfl, fun nnn s hw h0 => ⟨fun k => (State.called nnn)^[k] s, rfl, fun k hk => ?_, ?_⟩⟩
  · have hd := hw.stackDepth_lt
    obtain ⟨hp, _, hl⟩ := iterate_called_frame nnn s k
    have hsp : ((State.called nnn)^[k] s).sp = k := iterate_called_sp nnn h0 (by omega)
    refine ⟨?_, iterate_called_sp nnn h0 (by omega), (iterate_called_frame nnn s (k + 1)).2.1⟩
    simp only [Function.iterate_succ_apply']
    exact exec_call_room nnn (by rw [hsp, hp]; omega) (by rw [hsp, hl, hw.stack]; exact hk)
  · have hsp := iterate_called_sp nnn h0 hw.stackDepth_lt
    refine ⟨_, _, exec_call_full nnn ?_, rfl, rfl, hsp⟩
    rw [hsp, (iterate_called_frame nnn s _).1]

end Sys2Proof.Machine
end

section
/-!
Proofs about memory (20_memory): what a byte and a word read as, the stores that an instruction or the host's `load`
may not make, and what every step keeps: the parameters, the invariant, and with them the font table.
-/

namespace Sys2Proof.Machine

variable {s t u : State}

/-! ### Reading (20_memory R42, R47, R53) -/

/-- Settles O11: the laws of `Memory.read` and of the canonical form. -/
theorem memoryReadsWhatWasWritten : Obligations.MemoryReadsWhatWasWritten := fun _ m a b v =>
  ⟨fun hlo hhi => ⟨m.read_write a b v ⟨hlo, hhi⟩, fun hm => Memory.write_wf hm (checkStore_eq_none.2 ⟨hlo, hhi⟩) v⟩,
    m.read_of_capacity_le⟩

/-- The first byte of a word is its upper half. -/
theorem toNat_wordOfBytes (hi lo : Byte) : (wordOfBytes hi lo).toNat = hi.toNat * 256 + lo.toNat := by
  rw [wordOfBytes, BitVec.toNat_append, ← Nat.shiftLeft_add_eq_or_of_lt lo.isLt, Nat.shiftLeft_eq]

/-- Settles O12: the word is put together from the two bytes that were stored. -/
theorem fetchIsBigEndian : Obligations.FetchIsBigEndian := by
  refine fun s a => ⟨toNat_wordOfBytes _ _, fun op hlo hhi => ?_⟩
  have hc : checkStores s.params a (bytesOfWord op).length = none := checkStores_eq_none_of_ends hlo hhi
  have hupper : (s.storeBytes a (bytesOfWord op)).memRead a = op.extractLsb' 8 8 :=
    s.memRead_storeBytes_at hc (k := 0) (by decide : 0 < 2)
  have hlower : (s.storeBytes a (bytesOfWord op)).memRead (a + 1) = op.extractLsb' 0 8 :=
    s.memRead_storeBytes_at hc (k := 1) (by decide : 1 < 2)
  rw [fetchWord, hupper, hlower, wordOfBytes_bytes]

/-! ### Refused stores (20_memory R43, 60_exceptions R119) -/

/-- The first target that fails its check gives a range its fault. -/
theorem checkStores_of_first {p : Config.Params} {a n k : Nat} {f : FaultKind} (hk : k < n)
    (hbefore : ∀ j, j < k → checkStore p (a + j) = none) (hat : checkStore p (a + k) = some f) :
    checkStores p a n = some f := by
  cases hc : checkStores p a n with
  | none => rw [checkStore_eq_none.2 (checkStores_eq_none.1 hc k hk)] at hat; cases hat
  | some g =>
    obtain ⟨m, -, hm, hg⟩ := checkStores_eq_some hc
    rcases Nat.lt_trichotomy k m with hlt | rfl | hlt
    · rw [hm k hlt] at hat; cases hat
    · exact hg.symm.trans hat
    · rw [hbefore m hlt] at hg; cases hg

/-- The bound of memory is checked before the font. -/
theorem checkStore_of_bad {p : Config.Params} {a : Nat} (h : p.memCapacity ≤ a ∨ a < p.fontEnd) :
    checkStore p a = some (if p.memCapacity ≤ a then .memWriteOutOfBounds a else .fontWrite a) := by
  unfold checkStore
  split
  · rfl
  · rw [if_pos (h.resolve_left ‹_›)]

/-- A store whose target number `k` is the first bad one raises that target's fault and does nothing else. -/
theorem storeAt_first_bad {bytes : List Byte} {k : Nat} (hk : k < bytes.length)
    (hbefore : ∀ j, j < k → s.params.fontEnd ≤ s.base + j ∧ s.base + j < s.params.memCapacity)
    (hat : s.params.memCapacity ≤ s.base + k ∨ s.base + k < s.params.fontEnd) (op : Word) :
    ∃ t, storeAt s.base bytes op s = .next t ∧
      OnlyFaults ⟨if s.params.memCapacity ≤ s.base + k then .memWriteOutOfBounds (s.base + k)
        else .fontWrite (s.base + k), s.instrAddr, some op⟩ s t :=
  have hc := checkStores_of_first hk (fun j hj => checkStore_eq_none.2 (hbefore j hj)) (checkStore_of_bad hat)
  ⟨_, storeAt_fault hc op, rfl, fun _ => rfl, fun _ => rfl⟩

/-- Settles O44: both instructions are stores of their bytes at `I`. -/
theorem storesOutOfBoundsFault : Obligations.StoresOutOfBoundsFault := fun x _ _ hbefore hat =>
  ⟨fun hk => storeAt_first_bad hk hbefore hat (encode (.ldB x)),
    fun hk => storeAt_first_bad (by rw [length_regBytes]; omega) hbefore hat (encode (.storeRegs x))⟩

/-! ### The host's load (20_memory R50, R51) -/

/-- A load past memory fails. -/
theorem hostLoad_capacity {offset : Nat} {bytes : List Byte} (h : s.params.memCapacity < offset + bytes.length) :
    hostLoad offset bytes s = (s, .failed .capacityExceeded) := if_pos h

/-- A load of bytes that starts below the end of the font fails (decision D6). -/
theorem hostLoad_font {offset : Nat} {bytes : List Byte} (h : offset + bytes.length ≤ s.params.memCapacity)
    (hb : bytes ≠ []) (hf : offset < s.params.fontEnd) : hostLoad offset bytes s = (s, .failed .fontOverlap) := by
  rw [hostLoad, if_neg (Nat.not_lt.2 h), if_pos ⟨List.length_pos_iff.2 hb, hf⟩]

/-- Every other load stores its bytes, each of which would pass `CheckStore`. -/
theorem hostLoad_ok {offset : Nat} {bytes : List Byte} (h : offset + bytes.length ≤ s.params.memCapacity)
    (hf : bytes = [] ∨ s.params.fontEnd ≤ offset) :
    hostLoad offset bytes s = (s.storeBytes offset bytes, .ok) ∧ checkStores s.params offset bytes.length = none := by
  rcases hf with rfl | hf
  · exact ⟨by rw [hostLoad, if_neg (Nat.not_lt.2 h), if_neg (fun hc => absurd hc.1 (by decide))], rfl⟩
  · exact ⟨by rw [hostLoad, if_neg (Nat.not_lt.2 h), if_neg (fun hc => absurd hc.2 (Nat.not_lt.2 hf))],
      checkStores_eq_none_of_ends hf h⟩

/-- A load fails and changes nothing, or stores bytes that pass `CheckStore`. -/
theorem hostLoad_cases (offset : Nat) (bytes : List Byte) (s : State) :
    (hostLoad offset bytes s).1 = s ∨
      (hostLoad offset bytes s).1 = s.storeBytes offset bytes ∧ checkStores s.params offset bytes.length = none := by
  by_cases hc : s.params.memCapacity < offset + bytes.length
  · exact .inl (by rw [hostLoad_capacity hc])
  · by_cases hf : bytes = [] ∨ s.params.fontEnd ≤ offset
    · obtain ⟨hl, hs⟩ := hostLoad_ok (Nat.not_lt.1 hc) hf
      exact .inr ⟨by rw [hl], hs⟩
    · rw [not_or, Nat.not_le] at hf
      exact .inl (by rw [hostLoad_font (Nat.not_lt.1 hc) hf.1 hf.2])

/-- A step that serves a request, by what the operation does and answers. -/
theorem step_serves {r : HostRequest} {rest : List HostEvent} {reply : HostReply} (ha : Asks s r rest)
    (h : hostOperation r { s with agenda := rest } = (u, reply)) : step s = .next { u with reply := some reply } := by
  rw [step_request ha, serve, h]

/-- Settles O56: the three cases of `hostLoad`, the last with the law of reading after stored bytes. -/
theorem loadStoresOrFails : Obligations.LoadStoresOrFails := by
  refine fun s offset bytes rest ha => ⟨fun h => ?_, fun h hb hf => ?_, fun h hf => ?_⟩
  · exact step_serves ha (hostLoad_capacity h)
  · exact step_serves ha (hostLoad_font h hb hf)
  · obtain ⟨hl, hc⟩ := hostLoad_ok (s := { s with agenda := rest }) h hf
    exact ⟨_, step_serves ha hl, rfl, fun j hj => s.memRead_storeBytes_at hc hj,
      fun b hb => s.memRead_storeBytes_outside hc hb⟩

/-! ### What every step keeps (20_memory R38, R40, 60_exceptions R117, R118) -/

/-- The parameters are the same, and the invariant still holds where it held. -/
structure Keeps (s t : State) : Prop where
  params : t.params = s.params
  inv : s.Inv → t.Inv

theorem Keeps.refl (s : State) : Keeps s s := ⟨rfl, id⟩

theorem Keeps.trans (h : Keeps s t) (h' : Keeps t u) : Keeps s u :=
  ⟨h'.params.trans h.params, fun hi => h'.inv (h.inv hi)⟩

/-- A change of what the invariant knows by the shape of the state alone. -/
theorem keeps_of_fits (hq : t.params = s.params) (hm : t.mem = s.mem) (hg : t.fb = s.fb) (hsp : t.sp = s.sp)
    (hb : t.breakpoints = s.breakpoints) (hf : t.fault = s.fault) (hr : t.run = s.run) (hw : s.Fits → t.Fits) :
    Keeps s t :=
  ⟨hq, fun hi => hi.transfer (hw hi.fits) hq hm hg hsp hb (by rw [hf, hr]; exact hi.fault)⟩

theorem keeps_agenda (s : State) (l : List HostEvent) : Keeps s { s with agenda := l } :=
  keeps_of_fits rfl rfl rfl rfl rfl rfl rfl fun hw => { hw with }

theorem keeps_reply (s : State) (r : Option HostReply) : Keeps s { s with reply := r } :=
  keeps_of_fits rfl rfl rfl rfl rfl rfl rfl fun hw => { hw with }

theorem keeps_setV (s : State) (r : Reg) (n : Nat) : Keeps s (s.setV r n) :=
  keeps_of_fits rfl rfl rfl rfl rfl rfl rfl fun hw => hw.setV r n

theorem keeps_advance (s : State) : Keeps s s.advance :=
  keeps_of_fits rfl rfl rfl rfl rfl rfl rfl State.Fits.advance

theorem keeps_timerTick (s : State) : Keeps s (timerTick s) :=
  keeps_of_fits rfl rfl rfl rfl rfl rfl rfl State.Fits.timerTick

/-- A halted core may have any fault recorded. -/
theorem keeps_halted (s : State) (f : Option FaultRecord) : Keeps s { s with fault := f, run := .halted } :=
  ⟨rfl, fun hi => hi.transfer { hi.fits with } rfl rfl rfl rfl rfl fun _ => .inl rfl⟩

/-- A core with no fault recorded may be in any run state. -/
theorem keeps_run (hf : s.Inv → s.fault = none) (r : RunState) : Keeps s { s with run := r } :=
  ⟨rfl, fun hi => hi.transfer { hi.fits with } rfl rfl rfl rfl rfl fun h => absurd (hf hi) h⟩

/-- Bytes stored where every address passes its check. -/
theorem keeps_storeBytes {a : Nat} {bytes : List Byte} (hc : checkStores s.params a bytes.length = none) :
    Keeps s (s.storeBytes a bytes) :=
  ⟨rfl, fun hi => ⟨hi.fits.storeBytes a bytes, Memory.writeBytes_wf hi.mem hc, hi.fb, hi.sp, hi.fault, hi.breakpoints⟩⟩

/-- While a cycle or a key wait goes on no fault is recorded (60_exceptions R118). -/
theorem State.Inv.fault_eq_none (hi : s.Inv) (hr : s.run = .running ∨ s.run = .awaitingKeypress) : s.fault = none := by
  by_contra hf
  rcases hi.fault hf with h | h <;> simp [h] at hr

/-! ### The cycle keeps it -/

/-- An instruction of a running core raises its fault, or completes with none recorded. -/
theorem keeps_exec {i : Instr} (hr : s.run = .running) (h : exec i s = .next t) : Keeps s t := by
  rcases exec_outcome h with ⟨k, rfl⟩ | hc
  · exact keeps_halted s _
  · refine ⟨hc.params, fun hi => ?_⟩
    have hw := hi.fits
    have hn : t.fault = none := hc.fault.trans (hi.fault_eq_none (.inl hr))
    have hmem := hc.mem hi.mem
    have hfb := hc.fb hw.fbW_pos hw.fbH_pos hi.fb
    have hsp := hc.sp hw.stack hi.sp hw.stackDepth_lt
    rw [← hc.params] at hmem hfb hsp
    exact ⟨hc.fits hw, hmem, hfb, hsp, fun hf => absurd hn hf, hc.breakpoints ▸ hi.breakpoints⟩

theorem keeps_executeWord {op : Word} (hr : s.run = .running) (h : executeWord op s = .next t) : Keeps s t := by
  cases hd : decodeWord op with
  | error e => rw [executeWord_error hd] at h; cases h; exact keeps_halted s _
  | ok i => rw [executeWord_ok hd] at h; exact keeps_exec hr h

theorem keeps_cycle (hr : s.run = .running) (h : cycle s = .next t) : Keeps s t := by
  cases hb : s.isBreakpoint s.pc with
  | true => rw [cycle_breakpoint hb] at h; cases h; exact keeps_halted s s.fault
  | false =>
    by_cases hp : s.params.memCapacity ≤ s.pc + 1
    · rw [cycle_outside hb hp] at h; cases h; exact keeps_halted s _
    · rw [cycle_fetch hb (Nat.not_le.1 hp)] at h
      obtain ⟨u, hu, rfl⟩ := finishCycle_next h
      have hk : Keeps s u := (keeps_advance s).trans (keeps_executeWord hr hu)
      split
      · exact hk.trans (keeps_timerTick u)
      · exact hk

theorem keeps_coreMove (h : coreMove s = .next t) : Keeps s t := by
  by_cases hr : s.run = .running
  · rw [coreMove_running hr] at h; exact keeps_cycle hr h
  · rw [coreMove_idle hr] at h; cases h; exact .refl s

/-! ### The host's operations keep it -/

theorem keeps_hostLoad (offset : Nat) (bytes : List Byte) (s : State) : Keeps s (hostLoad offset bytes s).1 := by
  rcases hostLoad_cases offset bytes s with h | ⟨h, hc⟩
  · rw [h]; exact .refl s
  · rw [h]; exact keeps_storeBytes hc

/-- `run()` fails while a fault is recorded (decision D10). -/
theorem keeps_hostRun (s : State) : Keeps s (hostRun s).1 := by
  by_cases hf : s.fault = none
  · rw [hostRun, if_neg (not_not.2 hf)]
    cases s.run with
    | stopped | halted => exact keeps_run (fun _ => hf) .running
    | running | awaitingKeypress => exact .refl s
  · rw [hostRun, if_pos hf]; exact .refl s

/-- `stop()` goes back to an address of an instruction (decision D24). -/
theorem keeps_hostStop (s : State) : Keeps s (hostStop s).1 := by
  refine ⟨rfl, fun hi => hi.transfer { hi.fits with pc := ?_ } rfl rfl rfl rfl rfl fun _ => .inr rfl⟩
  show (if s.run = .awaitingKeypress then s.waitAddr else s.pc) < 2 ^ s.params.pcWidth
  split
  · exact hi.fits.waitAddr
  · exact hi.fits.pc

/-- Either value of `RESET_MEMORY` leaves memory in canonical form (70_reset_and_hazards R143). -/
theorem resetMemory_wf {p : Config.Params} {m : Memory} (h : m.wf p) (r : Config.ResetMemory) :
    (resetMemory r m).wf p := by
  cases r with
  | keep => exact h
  | clear => exact ⟨.nil, nofun⟩

theorem keeps_hostReset (s : State) : Keeps s (hostReset s).1 :=
  ⟨rfl, fun hi => ⟨{ State.Fits.initial hi.fits.valid with keys := hi.fits.keys, lastKey := hi.fits.lastKey },
    resetMemory_wf hi.mem _, ⟨.nil, nofun⟩, Nat.zero_le _, nofun, hi.breakpoints⟩⟩

theorem keeps_writeRegister (q : RegName) (n : Nat) (s : State) : Keeps s (writeRegister q n s) := by
  cases q with
  | v x => exact keeps_setV s x n
  | i => exact keeps_of_fits rfl rfl rfl rfl rfl rfl rfl fun hw => hw.setI n
  | pc => exact keeps_of_fits rfl rfl rfl rfl rfl rfl rfl fun hw => hw.setPC n
  | dt => exact keeps_of_fits rfl rfl rfl rfl rfl rfl rfl fun hw => hw.setDT n
  | st => exact keeps_of_fits rfl rfl rfl rfl rfl rfl rfl fun hw => hw.setST n

theorem keeps_hostSetRegister (name : List Char) (n : Nat) (s : State) : Keeps s (hostSetRegister name n s).1 := by
  rw [hostSetRegister]
  cases parseRegister name with
  | none => exact .refl s
  | some q =>
    simp only
    split_ifs
    · exact .refl s
    · exact keeps_writeRegister q n s
    · exact .refl s

theorem keeps_hostSetBreakpoint (a : Word) (s : State) : Keeps s (hostSetBreakpoint a s).1 :=
  ⟨rfl, fun hi => ⟨{ hi.fits with }, hi.mem, hi.fb, hi.sp, hi.fault, insertBreakpoint_rising hi.breakpoints _⟩⟩

/-- A key wait ends with no fault recorded, as it went on (45_keys_timers R113). -/
theorem keeps_completeKeyWait (hr : s.run = .awaitingKeypress) (k : Nat) : Keeps s (completeKeyWait k s) :=
  ((keeps_setV s s.waitReg k).trans
    (keeps_run (s := s.setV s.waitReg k) (fun hi => hi.fault_eq_none (.inr hr)) .running)).trans (keeps_timerTick _)

/-- The key pressed is a key. -/
theorem keeps_pressed {k : Nat} (hk : k < s.params.numKeys) : Keeps s { s.setKey k true with lastKey := some k } :=
  keeps_of_fits rfl rfl rfl rfl rfl rfl rfl fun hw =>
    { hw.setKey k true with lastKey := fun _ hj => Option.some.inj hj ▸ hk }

theorem keeps_hostSetDown (k : Nat) (s : State) : Keeps s (hostSetDown k s).1 := by
  rw [hostSetDown]
  split_ifs with hk hr
  · exact .refl s
  · exact (keeps_pressed (Nat.not_le.1 hk)).trans
      (keeps_completeKeyWait (s := { s.setKey k true with lastKey := some k }) hr k)
  · exact keeps_pressed (Nat.not_le.1 hk)

theorem keeps_hostSetUp (k : Nat) (s : State) : Keeps s (hostSetUp k s).1 := by
  rw [hostSetUp]
  split_ifs
  · exact .refl s
  · exact keeps_of_fits rfl rfl rfl rfl rfl rfl rfl fun hw => hw.setKey k false

theorem keeps_hostOperation (r : HostRequest) (s : State) : Keeps s (hostOperation r s).1 := by
  cases r with
  | load offset bytes => exact keeps_hostLoad offset bytes s
  | run => exact keeps_hostRun s
  | stop => exact keeps_hostStop s
  | reset => exact keeps_hostReset s
  | setRegister name n => exact keeps_hostSetRegister name n s
  | setBreakpoint a => exact keeps_hostSetBreakpoint a s
  | setDown k => exact keeps_hostSetDown k s
  | setUp k => exact keeps_hostSetUp k s
  | getRegisters | hasBreakpoint a | readMemory a | readFramebuffer | readSoundTimer | readStatus => exact .refl s

/-! ### The step -/

/-- A step takes an action off the agenda, if there is one, and serves it or makes the core's move. -/
theorem keeps_step (h : step s = .next t) : Keeps s t := by
  rcases step_next h with ⟨r, rest, -, rfl⟩ | ⟨rest, -, hc⟩
  · exact ((keeps_agenda s rest).trans (keeps_hostOperation r _)).trans (keeps_reply _ _)
  · exact (keeps_agenda s rest).trans (keeps_coreMove hc)

/-- Settles O8: what a step does, one operation after the other, keeps the parameters and the invariant. -/
theorem stepKeepsTheInvariant : Obligations.StepKeepsTheInvariant := fun _ _ h =>
  ⟨(keeps_step h).params, (keeps_step h).inv⟩

/-- Settles O10: the font table is built into the parameters, which no step changes. -/
theorem fontTableNeverChanges : Obligations.FontTableNeverChanges := by
  intro s t h a hf ha
  have hread : ∀ m : Memory, m.read s.params a = fontByte s.params a := fun m => m.read_font ha hf
  have ht : t.memRead a = fontByte s.params a := by rw [State.memRead, (keeps_step h).params, hread]
  exact ⟨ht.trans (hread s.mem).symm, fun b hb => ht.trans (by rw [fontByte, hb, Option.getD_some])⟩

end Sys2Proof.Machine
end

section
/-!
Proofs about the encoding (30_encoding): decoding and encoding are each other's inverse, a word that meets a row's mask
and match is read as an instruction of that row, and the words that no row admits.
-/

namespace Sys2Proof

open Laws.RowFits (mask_nnn mask_xkk mask_x mask_xy mask_xyn row_mem)

variable {op : Word} {i : Instr}

/-! ### Decoding is the inverse of encoding (30_encoding R58 to R61) -/

/-- Each family reads the fields back from the places its format puts them in. -/
theorem decodeWord_encode (i : Instr) : decodeWord (encode i) = .ok i := by
  cases i
  case cls | ret => rfl
  case jp | call | seByte | sneByte | seReg | ldByte | addByte | sneReg | ldI | jpV0 | rnd | drw =>
    simp [encode, decodeWord]
  case ldReg | orReg | andReg | xorReg | addReg | subReg | shr | subnReg | shl => simp [encode, decodeWord, decodeAlu]
  case skp | sknp => simp [encode, decodeWord, decodeKey]
  case ldVxDt | ldVxK | ldDt | ldSt | addI | ldF | ldB | storeRegs | loadRegs => simp [encode, decodeWord, decodeMisc]

/-- Settles O1: the word reads back, and two bytes are decoded as the word they make. -/
theorem decodeOfEncodeIsIdentity : Obligations.DecodeOfEncodeIsIdentity := fun i rest =>
  ⟨decodeWord_encode i, by rw [decodeBytes_bytesOfWord, decodeWord_encode]; rfl⟩

/-! ### Encoding is the inverse of decoding -/

theorem encode_of_decodeAlu (ht : fieldTop op = 0x8#4) (h : decodeAlu op = .ok i) : encode i = op := by
  unfold decodeAlu at h
  split at h <;> cases h <;> exact xy_of_top ht ‹fieldN op = _›

theorem encode_of_decodeKey (ht : fieldTop op = 0xE#4) (h : decodeKey op = .ok i) : encode i = op := by
  unfold decodeKey at h
  split at h <;> cases h <;> exact x_of_top ht ‹fieldKK op = _›

theorem encode_of_decodeMisc (ht : fieldTop op = 0xF#4) (h : decodeMisc op = .ok i) : encode i = op := by
  unfold decodeMisc at h
  split at h <;> cases h <;> exact x_of_top ht ‹fieldKK op = _›

/-- A word that is read as an instruction is that instruction's encoding. The decoder's branches `h_1` to `h_16` are the
families 0x0 to 0xF, each taken apart in its format. -/
theorem encode_of_decodeWord (h : decodeWord op = .ok i) : encode i = op := by
  unfold decodeWord at h
  split at h
  case h_1 => split_ifs at h <;> cases h <;> exact Eq.symm ‹op = _›
  case h_2 | h_3 | h_11 | h_12 => cases h; exact nnn_of_top ‹_›
  case h_4 | h_5 | h_7 | h_8 | h_13 => cases h; exact xkk_of_top ‹_›
  case h_6 | h_10 => split_ifs at h with hn; cases h; exact xy_of_top ‹_› hn
  case h_14 => cases h; exact xyn_of_top ‹_›
  case h_9 => exact encode_of_decodeAlu ‹_› h
  case h_15 => exact encode_of_decodeKey ‹_› h
  case h_16 => exact encode_of_decodeMisc (top_eq_F _ ‹_› ‹_› ‹_› ‹_› ‹_› ‹_› ‹_› ‹_› ‹_› ‹_› ‹_› ‹_› ‹_› ‹_› ‹_›) h

/-- The words that are read as an instruction are those it is written as. -/
theorem decodeWord_eq_ok_iff : decodeWord op = .ok i ↔ encode i = op :=
  ⟨encode_of_decodeWord, fun h => h ▸ decodeWord_encode i⟩

/-- Settles O4: every word but the last is the encoding of its instruction; the last has no 0 as low digit (D17). -/
theorem writtenWordsDecode : Obligations.WrittenWordsDecode := by
  simp only [Obligations.WrittenWordsDecode, decodeWord_eq_ok_iff]
  decide

/-! ### The rows of the table (30_encoding R60, R61) -/

/-- The encoding of an instruction meets its row's mask and match: a format's mask clears the operands. -/
theorem encode_and_mask (i : Instr) : encode i &&& i.row.mask = i.row.bits := by
  cases i
  case cls | ret => rfl
  case jp | call | ldI | jpV0 => exact mask_nnn _ _
  case seByte | sneByte | ldByte | addByte | rnd => exact mask_xkk _ _ _
  case drw => exact mask_xyn _ _ _ _
  case seReg | sneReg | ldReg | orReg | andReg | xorReg | addReg | subReg | shr | subnReg | shl => exact mask_xy _ _ _ _
  case skp | sknp | ldVxDt | ldVxK | ldDt | ldSt | addI | ldF | ldB | storeRegs | loadRegs => exact mask_x _ _ _

/-- Every row of the table is the row of an instruction. -/
theorem exists_instr_of_mem_opcodeTable {r : OpcodeRow} (hr : r ∈ opcodeTable) : ∃ i : Instr, i.row = r := by
  simp only [opcodeTable, List.mem_append, List.mem_map] at hr
  obtain ((⟨i, -, hi⟩ | ⟨i, -, hi⟩) | ⟨i, -, hi⟩) | ⟨i, -, hi⟩ := hr <;> exact ⟨i, hi⟩

/-! ### The digits that a row fixes -/

/-- A field that the mask keeps whole is the match's field. -/
theorem extractLsb'_eq_of_and_eq {m b : Word} {lo n : Nat} (h : op &&& m = b)
    (hm : m.extractLsb' lo n = BitVec.allOnes n) : op.extractLsb' lo n = b.extractLsb' lo n := by
  rw [← h, BitVec.extractLsb'_and, hm, BitVec.and_allOnes]

/-- Every mask of the table keeps the top digit. -/
theorem fieldTop_mask : ∀ r ∈ opcodeTable, fieldTop r.mask = BitVec.allOnes 4 := by decide

/-- A word that meets the mask and match of an instruction's row is read as an instruction of that row: it has the
row's top digit, and in the formats XY and X the row's low digit or low byte. -/
theorem map_row_decodeWord (j : Instr) (h : op &&& j.row.mask = j.row.bits) :
    (decodeWord op).map Instr.row = .ok j.row := by
  have ht : fieldTop op = fieldTop j.row.bits :=
    extractLsb'_eq_of_and_eq h (fieldTop_mask _ (row_mem j))
  cases j <;> dsimp only [Instr.row] at h ht
  case cls | ret =>
    obtain rfl := BitVec.and_allOnes.symm.trans h
    rfl
  case jp | call | ldI | jpV0 | seByte | sneByte | ldByte | addByte | rnd | drw =>
    rw [decodeWord, ht]; rfl
  case seReg | sneReg | ldReg | orReg | andReg | xorReg | addReg | subReg | shr | subnReg | shl =>
    have hn : fieldN op = fieldN _ := extractLsb'_eq_of_and_eq h rfl
    rw [decodeWord, ht, decodeAlu, hn]; rfl
  case skp | sknp | ldVxDt | ldVxK | ldDt | ldSt | addI | ldF | ldB | storeRegs | loadRegs =>
    have hk : fieldKK op = fieldKK _ := extractLsb'_eq_of_and_eq h rfl
    rw [decodeWord, ht, decodeKey, decodeMisc, hk]; rfl

/-- Settles O2: a word that is read is its instruction's encoding, which meets the row's mask and match. -/
theorem decodeFollowsTheOpcodeTable : Obligations.DecodeFollowsTheOpcodeTable := by
  refine fun op => ⟨?_, fun i h => ?_, fun r hr h => ?_⟩
  · cases h : decodeWord op with
    | ok i => exact .inl ⟨i, rfl⟩
    | error e => exact .inr (congrArg _ (decodeWord_error h))
  · obtain rfl := encode_of_decodeWord h
    exact ⟨row_mem i, encode_and_mask i, rfl⟩
  · obtain ⟨j, rfl⟩ := exists_instr_of_mem_opcodeTable hr
    have hrow := map_row_decodeWord j h
    cases hi : decodeWord op with
    | ok i => exact ⟨i, rfl, Except.ok.inj (hi ▸ hrow)⟩
    | error e => rw [hi] at hrow; cases hrow

/-! ### The unsupported words (30_encoding R62) -/

theorem decodeAlu_eq_error_iff : decodeAlu op = .error (.unsupportedOpcode op) ↔
    fieldN op ∉ [0x0#4, 0x1#4, 0x2#4, 0x3#4, 0x4#4, 0x5#4, 0x6#4, 0x7#4, 0xE#4] := by
  unfold decodeAlu
  split <;> simp_all

theorem decodeKey_eq_error_iff : decodeKey op = .error (.unsupportedOpcode op) ↔
    fieldKK op ∉ [0x9E#8, 0xA1#8] := by
  unfold decodeKey
  split <;> simp_all

theorem decodeMisc_eq_error_iff : decodeMisc op = .error (.unsupportedOpcode op) ↔
    fieldKK op ∉ [0x07#8, 0x0A#8, 0x15#8, 0x18#8, 0x1E#8, 0x29#8, 0x33#8, 0x55#8, 0x65#8] := by
  unfold decodeMisc
  split <;> simp_all

/-- The low digits of family 8 that the table leaves out are the others. -/
theorem alu_digit_notMem_iff : ∀ n : Nibble, n ∉ [0x0#4, 0x1#4, 0x2#4, 0x3#4, 0x4#4, 0x5#4, 0x6#4, 0x7#4, 0xE#4] ↔
    n ∈ [0x8#4, 0x9#4, 0xA#4, 0xB#4, 0xC#4, 0xD#4, 0xF#4] := by decide

/-- Settles O3: by the family, branches `h_1` to `h_16` for the top digits 0x0 to 0xF; the ten families not named here
admit every word, and family 0 has no `0nnn` (D17). -/
theorem unsupportedWordsAreTheListedOnes : Obligations.UnsupportedWordsAreTheListedOnes := by
  intro op
  unfold decodeWord
  split
  case h_1 ht => split_ifs <;> simp_all
  case h_6 ht | h_10 ht => split_ifs <;> simp [*]
  case h_9 ht => rw [decodeAlu_eq_error_iff, alu_digit_notMem_iff]; simp [ht]
  case h_15 ht => rw [decodeKey_eq_error_iff]; simp [ht]
  case h_16 =>
    have ht := top_eq_F _ ‹_› ‹_› ‹_› ‹_› ‹_› ‹_› ‹_› ‹_› ‹_› ‹_› ‹_› ‹_› ‹_› ‹_› ‹_›
    rw [decodeMisc_eq_error_iff]; simp [ht]
  all_goals simp [*]

end Sys2Proof
end

section
/-!
Proofs about the cycle (40_cycle): what one cycle can do, what the host's operations do to the run state, and from these
the order of fetch, execution and countdown, the run states of R69, and that the machine goes on from every state of the
invariant.
-/

namespace Sys2Proof.Machine

variable {s t : State}

/-! ### The step of a running core that the host does not interrupt (40_cycle R70 to R73) -/

/-- With the core `Running` and nothing asked, the step is a cycle. -/
theorem step_cycle (ha : AsksNothing s) (hr : s.run = .running) :
    step s = cycle { s with agenda := s.agenda.tail } :=
  (step_asksNothing ha).trans (coreMove_running (by exact hr))

/-- With the core in any other run state and nothing asked, the step changes nothing (log 9). -/
theorem step_idle (ha : AsksNothing s) (hr : s.run ≠ .running) : step s = .next { s with agenda := s.agenda.tail } :=
  (step_asksNothing ha).trans (coreMove_idle hr)

/-- A step that fetches the word of an instruction executes it with `PC` advanced and finishes the cycle. -/
theorem step_decoded {op : Word} {i : Instr} (hf : Fetches s op) (hd : decodeWord op = .ok i) :
    step s = finishCycle
      (exec i { s with pc := (s.pc + 2) % 2 ^ s.params.pcWidth, agenda := s.agenda.tail }) := by
  rw [step_fetches hf, executeWord_ok hd]

/-- An instruction that leaves the core `Running` is followed by the countdown (R75). -/
theorem finishCycle_running (h : t.run = .running) : finishCycle (.next t) = .next (timerTick t) := by
  rw [finishCycle, if_pos h]

/-- A word that meets no row of the table is not read. -/
theorem decodeWord_of_unsupported {op : Word} (h : supportedWord op = false) :
    decodeWord op = .error (.unsupportedOpcode op) := by
  obtain ⟨htotal, hrow, -⟩ := decodeFollowsTheOpcodeTable op
  refine htotal.resolve_left ?_
  rintro ⟨i, hi⟩
  obtain ⟨hmem, hmask, -⟩ := hrow i hi
  exact List.any_eq_false.1 h _ hmem (beq_iff_eq.2 hmask)

/-- A fault raised after the fetch names the address the word was fetched from, and `PC` keeps the advance (R72,
60_exceptions R117). -/
theorem raiseAt_advance (hpc : s.pc < 2 ^ s.params.pcWidth) (k : FaultKind) (op : Word) : raiseAt k op s.advance =
    { s with
      pc := (s.pc + 2) % 2 ^ s.params.pcWidth
      fault := some ⟨k, s.pc, some op⟩
      run := .halted } := by
  rw [raiseAt, State.instrAddr_advance, Nat.mod_eq_of_lt hpc]; rfl

/-- Settles O13: the operands of a decoded instruction come in the types of their fields, and the end of the cycle is
`finishCycle`. -/
theorem stepRunsTheDecodedInstruction : Obligations.StepRunsTheDecodedInstruction := fun _ _ i hf hd =>
  ⟨Laws.RowFits.wellFormed i, (step_decoded hf hd).trans rfl⟩

/-- Settles O14: the breakpoint is tested before anything else of the cycle. -/
theorem breakpointHaltsBeforeTheFetch : Obligations.BreakpointHaltsBeforeTheFetch := fun s ha =>
  ⟨fun hr hb => (step_cycle ha hr).trans
      (cycle_breakpoint (s := { s with agenda := s.agenda.tail }) (isBreakpoint_iff.2 hb)),
    step_idle ha⟩

/-- Settles O15: a fetch outside memory raises before `PC` moves, and an unsupported word after it, with the address
that the advanced `PC` gives back. -/
theorem fetchAndDecodeFaults : Obligations.FetchAndDecodeFaults := by
  refine ⟨fun s hr ha hb hp => ?_, fun s op hpc hf hu => ?_⟩
  · have hb' : State.isBreakpoint { s with agenda := s.agenda.tail } s.pc = false := by
      rw [← Bool.not_eq_true, isBreakpoint_iff]; exact hb
    exact (step_cycle ha hr).trans (cycle_outside hb' hp)
  · rw [step_fetches hf, executeWord_error (decodeWord_of_unsupported hu)]
    exact congrArg (fun u => finishCycle (.next u)) (raiseAt_advance (s := { s with agenda := s.agenda.tail }) hpc _ op)

/-- Settles O16: `Fx15` and `Fx18` complete and leave the core `Running`, so the countdown sees what they wrote. -/
theorem timersCountDownAfterTheInstruction : Obligations.TimersCountDownAfterTheInstruction := by
  refine ⟨fun s => ⟨timerTick_dt_eq s, timerTick_st_eq s, rfl⟩, fun s x hf => ?_, fun s x hf => ?_⟩
  · exact ⟨_, (step_decoded hf (decodeWord_encode _)).trans (finishCycle_running hf.1), timerTick_dt_eq _,
      timerTick_st_eq _⟩
  · exact ⟨_, (step_decoded hf (decodeWord_encode _)).trans (finishCycle_running hf.1), timerTick_st_eq _,
      timerTick_dt_eq _⟩

/-! ### What one cycle can do (R70 to R76) -/

/-- The next states a cycle can have. A breakpoint or a fetch outside memory ends it before the fetch; the fetched word
raises a fault, by itself or as an instruction; or an instruction completes, and the countdown runs if it has left the
core `Running`. -/
inductive CycleEnds (s : State) : State → Prop
  | breakpoint (hb : s.pc ∈ s.breakpoints) : CycleEnds s { s with run := .halted }
  | outside (hp : s.params.memCapacity ≤ s.pc + 1) : CycleEnds s (raise (.pcOutOfBounds s.pc) s.pc none s)
  | faulted (k : FaultKind) (hp : s.pc + 1 < s.params.memCapacity) :
    CycleEnds s (raiseAt k (fetchWord s s.pc) s.advance)
  | completed (i : Instr) (u : State) (hd : decodeWord (fetchWord s s.pc) = .ok i)
    (hx : exec i s.advance = .next u) (hc : Completed i s.advance u) :
    CycleEnds s (if u.run = .running then timerTick u else u)

theorem cycle_ends (h : cycle s = .next t) : CycleEnds s t := by
  cases hb : s.isBreakpoint s.pc with
  | true => rw [cycle_breakpoint hb] at h; cases h; exact .breakpoint (isBreakpoint_iff.1 hb)
  | false =>
    by_cases hp : s.params.memCapacity ≤ s.pc + 1
    · rw [cycle_outside hb hp] at h; cases h; exact .outside hp
    · rw [cycle_fetch hb (Nat.not_le.1 hp)] at h
      cases hd : decodeWord (fetchWord s s.pc) with
      | error e => rw [executeWord_error hd] at h; cases h; exact .faulted _ (Nat.not_le.1 hp)
      | ok i =>
        rw [executeWord_ok hd] at h
        obtain ⟨u, hu, rfl⟩ := finishCycle_next h
        rcases exec_outcome hu with ⟨k, rfl⟩ | hc
        · rw [encode_of_decodeWord hd]; exact .faulted k (Nat.not_le.1 hp)
        · exact .completed i u hd hu hc

/-- An instruction that completes and takes the core out of `Running` is `Fx0A`, which starts its wait. -/
theorem Completed.starts_wait {i : Instr} (hc : Completed i s t) (hr : s.run = .running) (ht : t.run ≠ .running) :
    (∃ x, i = .ldVxK x) ∧ t.run = .awaitingKeypress := by
  have hrun := hc.run
  cases i with
  | ldVxK x => exact ⟨⟨x, rfl⟩, hrun⟩
  | _ => exact absurd (hrun.trans hr) ht

/-- `Fx0A` leaves the timers alone. -/
theorem timers_of_exec_ldVxK {x : Reg} (h : exec (.ldVxK x) s = .next t) : t.dt = s.dt ∧ t.st = s.st := by
  cases h; exact ⟨rfl, rfl⟩

/-- A cycle that leaves the core `Running` has executed an instruction and counted both timers once. -/
theorem CycleEnds.counted (h : CycleEnds s t) (ht : t.run = .running) :
    ∃ i u, decodeWord (fetchWord s s.pc) = .ok i ∧ exec i s.advance = .next u ∧ t = timerTick u := by
  cases h with
  | completed i u hd hx hc =>
    split at ht
    · exact ⟨i, u, hd, hx, if_pos ‹_›⟩
    · exact absurd ht ‹_›
  | _ => cases ht

/-- A cycle that leaves the core in any other run state has left the timers alone. -/
theorem CycleEnds.not_counted (h : CycleEnds s t) (hr : s.run = .running) (ht : t.run ≠ .running) :
    t.dt = s.dt ∧ t.st = s.st := by
  cases h with
  | completed i u hd hx hc =>
    split at ht
    · exact absurd ‹u.run = .running› ht
    · obtain ⟨⟨x, rfl⟩, -⟩ := hc.starts_wait hr ht
      rw [if_neg ht]
      exact timers_of_exec_ldVxK (s := s.advance) hx
  | _ => exact ⟨rfl, rfl⟩

/-- Settles O17: the two kinds of cycle, and `stop()`, which writes no timer. -/
theorem countdownRunsExactlyOnCompletion : Obligations.CountdownRunsExactlyOnCompletion := by
  refine ⟨fun s t hr ha h => ?_, fun s t rest ha h => ?_⟩
  · rw [step_cycle ha hr] at h
    refine ⟨fun ht => ?_, (cycle_ends h).not_counted hr⟩
    obtain ⟨i, u, hd, hx, rfl⟩ := (cycle_ends h).counted ht
    exact ⟨i, u, hd, hx, timerTick_dt_eq u, timerTick_st_eq u⟩
  · rw [step_request ha] at h; cases h; exact ⟨rfl, rfl⟩

/-- The run states a cycle of a running core can lead to: it goes on, halts at a breakpoint or a fault, or waits for a
key. -/
theorem CycleEnds.run_state (h : CycleEnds s t) (hr : s.run = .running) :
    t.run = .running ∨ (t.run = .halted ∧ (s.pc ∈ s.breakpoints ∨ t.fault ≠ none)) ∨
      (t.run = .awaitingKeypress ∧ ∃ x, decodeWord (fetchWord s s.pc) = .ok (.ldVxK x)) := by
  cases h with
  | breakpoint hb => exact .inr (.inl ⟨rfl, .inl hb⟩)
  | outside | faulted => exact .inr (.inl ⟨rfl, .inr nofun⟩)
  | completed i u hd hx hc =>
    split
    · exact .inl ‹u.run = .running›
    · obtain ⟨⟨x, rfl⟩, hw⟩ := hc.starts_wait hr ‹_›
      exact .inr (.inr ⟨hw, x, hd⟩)

/-! ### Run control by the host (R67, R68, 45_keys_timers R113) -/

/-- `run()` while a fault is recorded fails (decision D10). -/
theorem hostRun_faulted (hf : s.fault ≠ none) : hostRun s = (s, .failed .faultRecorded) := if_pos hf

/-- `run()` starts a stopped or halted core (decision D11). -/
theorem hostRun_starts (hf : s.fault = none) (hr : s.run = .stopped ∨ s.run = .halted) :
    hostRun s = ({ s with run := .running }, .ok) := by
  rcases hr with hr | hr <;> rw [hostRun, if_neg (not_not.2 hf), hr]

/-- `run()` does nothing to a core that runs or waits for a key. -/
theorem hostRun_goes_on (hf : s.fault = none) (hr : s.run = .running ∨ s.run = .awaitingKeypress) :
    hostRun s = (s, .ok) := by
  rcases hr with hr | hr <;> rw [hostRun, if_neg (not_not.2 hf), hr]

/-- `stop()` in a key wait goes back to the waiting instruction (decision D24). -/
theorem hostStop_waiting (hw : s.run = .awaitingKeypress) :
    hostStop s = ({ s with run := .stopped, pc := s.waitAddr }, .ok) := by
  rw [hostStop, if_pos hw]

/-- `stop()` in any other run state stops the core where it is. -/
theorem hostStop_not_waiting (hw : s.run ≠ .awaitingKeypress) : hostStop s = ({ s with run := .stopped }, .ok) := by
  rw [hostStop, if_neg hw]

/-- Settles O55: the cases of `hostRun` and `hostStop`. -/
theorem runAndStopOperations : Obligations.RunAndStopOperations := by
  refine fun s rest => ⟨fun ha => ⟨fun hf => ?_, fun hf hr => ?_, fun hf hr => ?_⟩,
    fun ha => ⟨fun hw => ?_, fun hw => ?_⟩⟩
  · exact step_serves ha (hostRun_faulted hf)
  · exact step_serves ha (hostRun_starts hf hr)
  · exact step_serves ha (hostRun_goes_on hf hr)
  · exact step_serves ha (hostStop_waiting hw)
  · exact step_serves ha (hostStop_not_waiting hw)

theorem writeRegister_run (q : RegName) (n : Nat) (s : State) : (writeRegister q n s).run = s.run := by
  cases q <;> rfl

theorem hostLoad_run (offset : Nat) (bytes : List Byte) (s : State) : (hostLoad offset bytes s).1.run = s.run := by
  rcases hostLoad_cases offset bytes s with h | ⟨h, -⟩
  · rw [h]
  · rw [h]; rfl

theorem hostSetRegister_run (name : List Char) (n : Nat) (s : State) :
    (hostSetRegister name n s).1.run = s.run := by
  rw [hostSetRegister]
  cases parseRegister name with
  | none => rfl
  | some q =>
    simp only
    split_ifs
    · rfl
    · exact writeRegister_run q n s
    · rfl

theorem hostSetUp_run (k : Nat) (s : State) : (hostSetUp k s).1.run = s.run := by
  rw [hostSetUp]; split <;> rfl

/-- `run()` changes the run state only of a stopped or halted core with no fault recorded. -/
theorem hostRun_run (s : State) : (hostRun s).1.run = s.run ∨
    s.fault = none ∧ (s.run = .stopped ∨ s.run = .halted) ∧ (hostRun s).1.run = .running := by
  by_cases hf : s.fault = none
  · by_cases hr : s.run = .stopped ∨ s.run = .halted
    · exact .inr ⟨hf, hr, by rw [hostRun_starts hf hr]⟩
    · have hr' : s.run = .running ∨ s.run = .awaitingKeypress := by cases h : s.run <;> simp_all
      exact .inl (by rw [hostRun_goes_on hf hr'])
  · exact .inl (by rw [hostRun_faulted hf])

/-- A key-down changes the run state only by ending a key wait. -/
theorem hostSetDown_run (k : Nat) (s : State) : (hostSetDown k s).1.run = s.run ∨
    k < s.params.numKeys ∧ s.run = .awaitingKeypress ∧ (hostSetDown k s).1.run = .running := by
  rw [hostSetDown]
  split_ifs with hk hr
  · exact .inl rfl
  · exact .inr ⟨Nat.not_le.1 hk, hr, rfl⟩
  · exact .inl rfl

/-- What a host operation makes of the run state: only `run()`, `stop()`, `reset()` and a key-down can change it. -/
theorem hostOperation_run (r : HostRequest) (s : State) : (hostOperation r s).1.run = s.run ∨
    (r = .run ∧ s.fault = none ∧ (s.run = .stopped ∨ s.run = .halted) ∧ (hostOperation r s).1.run = .running) ∨
    ((r = .stop ∨ r = .reset) ∧ (hostOperation r s).1.run = .stopped) ∨
    ∃ k, r = .setDown k ∧ k < s.params.numKeys ∧ s.run = .awaitingKeypress ∧
      (hostOperation r s).1.run = .running := by
  cases r with
  | run => exact (hostRun_run s).imp_right fun h => .inl ⟨rfl, h⟩
  | stop => exact .inr (.inr (.inl ⟨.inl rfl, rfl⟩))
  | reset => exact .inr (.inr (.inl ⟨.inr rfl, rfl⟩))
  | setDown k => exact (hostSetDown_run k s).imp_right fun h => .inr (.inr ⟨k, rfl, h⟩)
  | load offset bytes => exact .inl (hostLoad_run offset bytes s)
  | setRegister name n => exact .inl (hostSetRegister_run name n s)
  | setUp k => exact .inl (hostSetUp_run k s)
  | getRegisters | setBreakpoint a | hasBreakpoint a | readMemory a | readFramebuffer | readSoundTimer | readStatus =>
    exact .inl rfl

/-- Settles O18: a request of the host does what its operation does, a running core makes a cycle, and any other core
waits. -/
theorem runStateChangesOnlyAsTabled : Obligations.RunStateChangesOnlyAsTabled := by
  refine fun s t h => ⟨?_, fun ha hr => ?_⟩
  · rcases asks_or_asksNothing s with ⟨r, rest, ha⟩ | ha
    · rw [step_request ha] at h
      cases h
      rcases hostOperation_run r { s with agenda := rest } with
        hs | ⟨rfl, hf, hr, ht⟩ | ⟨hr, ht⟩ | ⟨k, rfl, hk, hr, ht⟩
      · exact .inl hs
      · exact .inr (.inl ⟨rest, ha, hf, hr, ht⟩)
      · refine .inr (.inr (.inl ⟨rest, ?_, ht⟩))
        rcases hr with rfl | rfl
        · exact .inl ha
        · exact .inr ha
      · exact .inr (.inr (.inr (.inr (.inr ⟨k, rest, ha, hk, hr, ht⟩))))
    · by_cases hr : s.run = .running
      · rw [step_cycle ha hr] at h
        rcases (cycle_ends h).run_state hr with ht | ⟨ht, hcause⟩ | ⟨ht, hx⟩
        · exact .inl (ht.trans hr.symm)
        · exact .inr (.inr (.inr (.inl ⟨ha, hr, ht, hcause⟩)))
        · exact .inr (.inr (.inr (.inr (.inl ⟨ha, hr, ht, hx⟩))))
      · rw [step_idle ha hr] at h; cases h; exact .inl rfl
  · rw [step_idle ha hr] at h; cases h; rfl

/-! ### The machine goes on (R80, 60_exceptions R117, R121) -/

/-- Where the stack has its entries and `SP` counts them, every instruction has a next state (10_state R19, R22). -/
theorem exists_exec_next (hl : s.stack.length = s.params.stackDepth) (hsp : s.sp ≤ s.params.stackDepth) (i : Instr) :
    ∃ t, exec i s = .next t := by
  cases h : exec i s with
  | next t => exact ⟨t, rfl⟩
  | fault r =>
    rcases exec_fault h with hl' | hsp'
    · exact absurd hl hl'
    · exact absurd hsp (Nat.not_le.2 hsp')
  | refused r => exact absurd h (exec_not_refused i s r)

/-- There every cycle has a next state: the faults of the core are next states. -/
theorem exists_cycle_next (hl : s.stack.length = s.params.stackDepth) (hsp : s.sp ≤ s.params.stackDepth) :
    ∃ t, cycle s = .next t := by
  cases hb : s.isBreakpoint s.pc with
  | true => exact ⟨_, cycle_breakpoint hb⟩
  | false =>
    by_cases hp : s.params.memCapacity ≤ s.pc + 1
    · exact ⟨_, cycle_outside hb hp⟩
    · rw [cycle_fetch hb (Nat.not_le.1 hp)]
      cases hd : decodeWord (fetchWord s s.pc) with
      | error e => exact ⟨_, congrArg finishCycle (executeWord_error hd _)⟩
      | ok i =>
        obtain ⟨u, hu⟩ := exists_exec_next (s := s.advance) hl hsp i
        exact ⟨_, congrArg finishCycle ((executeWord_ok hd _).trans hu)⟩

/-- Settles O9: the host's operations and an idle core always have a next state, and a cycle has one because the stack
has the shape the invariant gives it. -/
theorem invariantStatesHaveANextState : Obligations.InvariantStatesHaveANextState := by
  intro s hi
  rcases asks_or_asksNothing s with ⟨r, rest, ha⟩ | ha
  · exact ⟨_, step_request ha⟩
  · by_cases hr : s.run = .running
    · rw [step_cycle ha hr]
      exact exists_cycle_next (s := { s with agenda := s.agenda.tail }) hi.fits.stack hi.sp
    · exact ⟨_, step_idle ha hr⟩

end Sys2Proof.Machine
end

section
/-!
Proofs about control transfer (41_control_flow): jumps, skips, and calls and returns. A result that holds exactly, and
not only mod `2 ^ pcWidth`, rests on what a state's shape says of the widths (log 25).
-/

namespace Sys2Proof.Machine

variable {s : State}

/-! ### Words, and what is left unchanged -/

/-- An instruction and the word it is written as. -/
theorem decodes_encode (i : Instr) : Decodes (encode i) i := ⟨decodeWord_encode i, rfl⟩

theorem onlyPC_setPC (s : State) (n : Nat) : OnlyPC s (s.setPC n) :=
  ⟨rfl, fun _ => rfl, fun _ => rfl⟩

theorem onlyPC_skipIf (s : State) (c : Bool) : OnlyPC s (s.skipIf c) := by
  cases c
  · exact ⟨rfl, fun _ => rfl, fun _ => rfl⟩
  · exact onlyPC_setPC s _

theorem onlyFaults_raiseAt (k : FaultKind) (op : Word) (s : State) :
    OnlyFaults ⟨k, s.instrAddr, some op⟩ s (raiseAt k op s) :=
  ⟨rfl, fun _ => rfl, fun _ => rfl⟩

/-! ### Jumps (41_control_flow R82, R88) -/

/-- An immediate address in a `PC` that can hold it is all of it. -/
theorem addr_mod {m : Nat} (h : 2 ^ 12 ≤ m) (nnn : Addr12) : nnn.toNat % m = nnn.toNat :=
  Nat.mod_eq_of_lt (nnn.isLt.trans_le h)

/-- A running core with no host action before its cycle records a fault of a fetch outside memory (R71; the record is
decision D7). -/
theorem step_outside (hr : s.run = .running) (ha : s.agenda = []) (hb : s.pc ∉ s.breakpoints)
    (hp : s.params.memCapacity ≤ s.pc + 1) : step s = .next (raise (.pcOutOfBounds s.pc) s.pc none s) := by
  rw [step_free ha, coreMove_running hr, cycle_outside _ hp]
  rw [← Bool.not_eq_true, isBreakpoint_iff]
  exact hb

/-- Settles O33: the jump is one write of `PC`; a jump to its own address writes what `PC` was before the advance. -/
theorem jumpTakesTheAddress : Obligations.JumpTakesTheAddress := by
  refine fun nnn s => ⟨decodes_encode (.jp nnn), s.setPC nnn.toNat, rfl, onlyPC_setPC s _, rfl,
    fun h => addr_mod (Nat.pow_le_pow_right (by decide) h) nnn,
    fun hp hr ha hb => ⟨_, step_outside hr ha hb hp, rfl⟩, fun hf hpc => ?_⟩
  have hstep : step s = .next (timerTick { s with pc := nnn.toNat % 2 ^ s.params.pcWidth, agenda := s.agenda.tail }) :=
    (step_decoded hf (decodeWord_encode (.jp nnn))).trans (finishCycle_running hf.1)
  rw [hstep, ← hpc]

/-- The sum of an immediate address and a general register needs one bit more than the wider of them. -/
theorem State.Fits.addr_add_getV_lt (hw : s.Fits) (hp : 12 < s.params.pcWidth) (hv : s.params.vWidth < s.params.pcWidth)
    (nnn : Addr12) (r : Reg) : nnn.toNat + s.getV r < 2 ^ s.params.pcWidth := by
  have hn : nnn.toNat < 2 ^ (s.params.pcWidth - 1) :=
    nnn.isLt.trans_le (Nat.pow_le_pow_right (by decide) (by omega))
  have hr : s.getV r < 2 ^ (s.params.pcWidth - 1) :=
    (hw.getV_lt r).trans_le (Nat.pow_le_pow_right (by decide) (by omega))
  have h2 := Nat.two_pow_pred_add_two_pow_pred (w := s.params.pcWidth) (by omega)
  omega

/-- Settles O34: the jump is one write of `PC`, narrowed to `PC` alone (D18). -/
theorem jumpIndexedAddsV0 : Obligations.JumpIndexedAddsV0 := fun nnn s =>
  ⟨decodes_encode (.jpV0 nnn), s.setPC (nnn.toNat + s.getV V0), rfl, rfl, onlyPC_setPC s _,
    fun hw hp hv => Nat.mod_eq_of_lt (hw.addr_add_getV_lt hp hv nnn V0)⟩

/-! ### Skips (R84 to R87) -/

/-- An instruction that skips on a condition passes one word when it holds, and nothing else changes (D41). -/
theorem exec_skip {i : Instr} {c : Prop} [Decidable c] (h : exec i s = .next (s.skipIf (decide c))) :
    ∃ t, exec i s = .next t ∧ t.pc = (if c then (s.pc + 2) % 2 ^ s.params.pcWidth else s.pc) ∧ OnlyPC s t :=
  ⟨_, h, by simp only [State.skipIf_pc, decide_eq_true_eq], onlyPC_skipIf s _⟩

/-- Settles O39: each skip is `State.skipIf` of its condition; the two of unequal operands have it negated. -/
theorem skipsPassOneWord : Obligations.SkipsPassOneWord := fun x y kk s =>
  ⟨decodes_encode (.seByte x kk), decodes_encode (.sneByte x kk), decodes_encode (.seReg x y),
    decodes_encode (.sneReg x y), exec_skip rfl,
    by simpa only [ne_eq, ite_not] using exec_skip (i := .sneByte x kk) rfl, exec_skip rfl,
    by simpa only [ne_eq, ite_not] using exec_skip (i := .sneReg x y) rfl⟩

/-! ### Calls and returns (R81, R83, 10_state R20, R21) -/

/-- A stack entry holds `PC` whole. -/
theorem State.Fits.toNat_entry (hw : s.Fits) : (BitVec.ofNat 16 s.pc).toNat = s.pc := by
  rw [BitVec.toNat_ofNat, Nat.mod_eq_of_lt (hw.pc.trans_le hw.pcWidth_le)]

/-- A call with room on the stack, in a state whose `PC` holds the target and whose `SP` counts the entry pushed. -/
theorem State.Fits.exec_call (hw : s.Fits) (hsp : s.sp < s.params.stackDepth) (nnn : Addr12) :
    exec (.call nnn) s = .next
      { s with pc := nnn.toNat, sp := s.sp + 1, stack := s.stack.set s.sp (BitVec.ofNat 16 s.pc) } := by
  have hd := hw.stackDepth_lt
  rw [exec_call_room nnn (Nat.ne_of_lt hsp) (by rwa [hw.stack]), addr_mod hw.le_pcWidth,
    Nat.mod_eq_of_lt (by omega : s.sp + 1 < 2 ^ s.params.spWidth)]

/-- The entries after a push: the value at the entry `SP` numbered, the old ones elsewhere. -/
theorem getElem?_pushed (h : s.sp < s.stack.length) (v : Word) (k : Nat) :
    (s.stack.set s.sp v)[k]? = if k = s.sp then some v else s.stack[k]? := by
  rcases eq_or_ne k s.sp with rfl | hk
  · rw [if_pos rfl, List.getElem?_set_self h]
  · rw [if_neg hk, List.getElem?_set_ne hk.symm]

/-- Settles O35: the push below `STACK_DEPTH` entries and its fault at `STACK_DEPTH`. -/
theorem callPushesOrOverflows : Obligations.CallPushesOrOverflows := by
  refine fun nnn s => ⟨decodes_encode (.call nnn), fun hw hsp => ?_, fun hsp => ?_⟩
  · exact ⟨_, hw.exec_call hsp nnn, rfl, rfl, List.length_set,
      ⟨_, hw.toNat_entry, getElem?_pushed (by rwa [hw.stack]) _⟩, rfl, fun _ => rfl,
      fun _ => rfl⟩
  · exact ⟨_, exec_call_full nnn hsp, onlyFaults_raiseAt _ _ s⟩

/-- A return with `n + 1` occupied entries takes `PC` from entry `n`. -/
theorem exec_ret_succ {n : Nat} {v : Word} (hsp : s.sp = n + 1) (hv : s.stack[n]? = some v) :
    exec .ret s = .next { s with pc := v.toNat % 2 ^ s.params.pcWidth, sp := n } := by
  rw [exec_ret_occupied (v := v) (by omega) (by rw [hsp]; exact hv), hsp, Nat.add_sub_cancel]

/-- Settles O36: the pop of the last entry, and its fault with none. -/
theorem returnPopsOrUnderflows : Obligations.ReturnPopsOrUnderflows := by
  refine ⟨decodes_encode .ret, fun s => ⟨fun n v hsp hv => ?_, fun hsp => ?_⟩⟩
  · exact ⟨_, exec_ret_succ hsp hv, rfl, Nat.mod_eq_of_lt, rfl, rfl, fun _ => rfl, fun _ => rfl⟩
  · exact ⟨_, exec_ret_empty hsp, onlyFaults_raiseAt _ _ s⟩

/-- Settles O37: the entry the call pushed is its advanced `PC`, which `PC` takes back whole. -/
theorem returnAfterCallResumes : Obligations.ReturnAfterCallResumes := by
  intro nnn s t u hw hsp hcall hparams husp hentry
  rw [hw.exec_call hsp nnn] at hcall
  cases hcall
  have hv : u.stack[s.sp]? = some (BitVec.ofNat 16 s.pc) := by
    rw [hentry, getElem?_pushed (by rwa [hw.stack]), if_pos rfl]
  refine ⟨_, exec_ret_succ husp hv, ?_, rfl⟩
  show (BitVec.ofNat 16 s.pc).toNat % 2 ^ u.params.pcWidth = s.pc
  rw [hw.toNat_entry, hparams, Nat.mod_eq_of_lt hw.pc]

end Sys2Proof.Machine
end

section
/-!
Proofs about the ALU (42_alu): an instruction that writes one register, or a register and the flag, does that and nothing
else. What is left of each result is arithmetic on naturals of `V_WIDTH` bits (log 25).
-/

namespace Sys2Proof.Machine

variable {i : Instr} {s : State} {x : Reg}

/-! ### One register, or a register and the flag (R89) -/

theorem onlyV_setV (x : Reg) (n : Nat) (s : State) : OnlyV [x] s (s.setV x n) :=
  ⟨rfl, fun _ hr => s.getV_setV_ne (List.ne_of_not_mem_cons hr) n, fun _ => rfl⟩

theorem onlyV_setResult (x : Reg) (n : Nat) (c : Bool) (s : State) : OnlyV [x, VF] s (s.setResult x n c) := by
  refine ⟨rfl, fun r hr => ?_, fun _ => rfl⟩
  obtain ⟨hx, hf⟩ := not_or.1 (List.mem_cons.not.1 hr)
  exact s.getV_setResult_ne hx (List.ne_of_not_mem_cons hf) n c

/-- An instruction that writes `n` to `Vx` leaves there what `n` is narrowed to the register. -/
theorem exec_writesV {n m : Nat} (h : exec i s = .next (s.setV x n)) (hm : s.Fits → n % 2 ^ s.params.vWidth = m) :
    ∃ t, exec i s = .next t ∧ (s.Fits → t.getV x = m) ∧ OnlyV [x] s t :=
  ⟨_, h, fun hw => (s.getV_setV_self (hw.reg x) n).trans (hm hw), onlyV_setV x n s⟩

/-- An instruction that writes `n` to `Vx` and then a flag leaves in `Vx` what `n` is narrowed to the register, and the
flag in `VF`, also where that is `Vx` (decision D15). -/
theorem exec_writesResult {n m f : Nat} {c : Bool} (h : exec i s = .next (s.setResult x n c))
    (hm : s.Fits → n % 2 ^ s.params.vWidth = m) (hf : s.Fits → flagValue c = f) :
    ∃ t, exec i s = .next t ∧ (s.Fits → (x ≠ VF → t.getV x = m) ∧ t.getV VF = f) ∧ OnlyV [x, VF] s t :=
  ⟨_, h, fun hw => ⟨fun hx => (s.getV_setResult_self (hw.reg x) hx n c).trans (hm hw),
    (hw.getV_setResult_vf x n c).trans (hf hw)⟩, onlyV_setResult x n c s⟩

/-! ### Results that need no narrowing -/

/-- The value of a register is all of it. -/
theorem State.Fits.getV_mod (hw : s.Fits) (r : Reg) : s.getV r % 2 ^ s.params.vWidth = s.getV r :=
  Nat.mod_eq_of_lt (hw.getV_lt r)

/-- Settles O25: the byte and the register copied fit `Vx`, the sum is narrowed by the write. -/
theorem loadsAndByteAddResults : Obligations.LoadsAndByteAddResults := fun x y kk _ =>
  ⟨decodes_encode (.ldByte x kk), decodes_encode (.addByte x kk), decodes_encode (.ldReg x y),
    exec_writesV rfl fun hw => hw.byte_mod kk, exec_writesV rfl fun _ => rfl, exec_writesV rfl fun hw => hw.getV_mod y⟩

/-- Settles O26: a bitwise operation gives no bit above those of its operands; none writes `VF` as a flag (D16). -/
theorem logicResults : Obligations.LogicResults := fun x y _ =>
  ⟨decodes_encode (.orReg x y), decodes_encode (.andReg x y), decodes_encode (.xorReg x y),
    exec_writesV rfl fun hw => Nat.mod_eq_of_lt (Nat.or_lt_two_pow (hw.getV_lt x) (hw.getV_lt y)),
    exec_writesV rfl fun hw => Nat.mod_eq_of_lt (Nat.and_lt_two_pow _ (hw.getV_lt y)),
    exec_writesV rfl fun hw => Nat.mod_eq_of_lt (Nat.xor_lt_two_pow (hw.getV_lt x) (hw.getV_lt y))⟩

/-! ### The flags as numbers (R96 to R100) -/

theorem flagValue_carryFlag (w a b : Nat) : flagValue (carryFlag w a b) = if a + b > 2 ^ w - 1 then 1 else 0 := by
  have hpos := Nat.two_pow_pos w
  have hcarry : 2 ^ w ≤ a + b ↔ a + b > 2 ^ w - 1 := by omega
  simp only [flagValue, carryFlag, decide_eq_true_eq, hcarry]

theorem flagValue_greaterFlag (a b : Nat) : flagValue (greaterFlag a b) = if a > b then 1 else 0 := by
  simp only [flagValue, greaterFlag, decide_eq_true_eq, gt_iff_lt]

/-- A bit as a flag is that binary digit. -/
theorem flagValue_testBit (a k : Nat) : flagValue (a.testBit k) = a / 2 ^ k % 2 := by
  rw [← Nat.toNat_testBit]
  cases a.testBit k <;> rfl

theorem flagValue_lsbFlag (a : Nat) : flagValue (lsbFlag a) = a % 2 := by
  rw [lsbFlag, flagValue_testBit, Nat.pow_zero, Nat.div_one]

/-- No digit stands above the top bit, so it is the whole quotient. -/
theorem flagValue_msbFlag {w a : Nat} (hw : 0 < w) (ha : a < 2 ^ w) : flagValue (msbFlag w a) = a / 2 ^ (w - 1) := by
  rw [msbFlag, flagValue_testBit, Nat.mod_eq_of_lt]
  rwa [Nat.div_lt_iff_lt_mul (Nat.two_pow_pos _), Nat.mul_comm, Nat.two_pow_pred_mul_two hw]

theorem State.Fits.vWidth_pos (hw : s.Fits) : 0 < s.params.vWidth :=
  Nat.lt_of_lt_of_le (by decide) hw.valid.1.2.1

/-! ### Results with a flag -/

/-- Settles O27: the flag is the carry out of the sum that the write narrows. -/
theorem addWithCarryResult : Obligations.AddWithCarryResult := fun x y _ =>
  ⟨decodes_encode (.addReg x y), exec_writesResult rfl (fun _ => rfl) fun _ => flagValue_carryFlag _ _ _⟩

/-- Settles O28: the flag is the strict comparison of the operands. -/
theorem subtractResult : Obligations.SubtractResult := fun x y _ =>
  ⟨decodes_encode (.subReg x y), exec_writesResult rfl (fun _ => rfl) fun _ => flagValue_greaterFlag _ _⟩

/-- Settles O29: a half fits where the whole did, and the flag is the digit lost (D12). -/
theorem shiftRightResult : Obligations.ShiftRightResult := fun x y s =>
  ⟨decodes_encode (.shr x y), exec_writesResult rfl
    (fun hw => Nat.mod_eq_of_lt ((Nat.div_le_self (s.getV x) 2).trans_lt (hw.getV_lt x)))
    fun _ => flagValue_lsbFlag _⟩

/-- Settles O30: as `8xy5` with the operands exchanged (D13). -/
theorem subtractReversedResult : Obligations.SubtractReversedResult := fun x y _ =>
  ⟨decodes_encode (.subnReg x y), exec_writesResult rfl (fun _ => rfl) fun _ => flagValue_greaterFlag _ _⟩

/-- Settles O31: the write narrows the double, and the flag is the digit lost (D12, D14). -/
theorem shiftLeftResult : Obligations.ShiftLeftResult := fun x y s =>
  ⟨decodes_encode (.shl x y), exec_writesResult rfl (fun _ => congrArg (· % _) (Nat.shiftLeft_eq (s.getV x) 1))
    fun hw => flagValue_msbFlag hw.vWidth_pos (hw.getV_lt x)⟩

/-! ### The random byte (R101) -/

theorem randomByte_supplied {r : Byte} {rest : List Byte} (h : s.draws = r :: rest) :
    randomByte s = (r, { s with draws := rest }) := by
  simp only [randomByte, h]

theorem randomByte_free (h : s.draws = []) :
    randomByte s = (Config.freeDraw s.drawCount, { s with drawCount := s.drawCount + 1 }) := by
  simp only [randomByte, h]

/-- Settles O32: the byte is the one `randomByte` gives, which changes nothing but the model's own fields for it, and
the write that follows keeps those (D26). -/
theorem randomByteIsMasked : Obligations.RandomByteIsMasked := by
  refine fun x kk s => ⟨decodes_encode (.rnd x kk), (randomByte s).2.setV x ((randomByte s).1 &&& kk).toNat,
    (randomByte s).1, rfl, fun hw => ?_, fun r rest hd => ?_, fun hd => ?_, ?_, fun q hq => ?_, fun a => ?_⟩
  · have hx := ((randomByte s).2.getV_setV_self (hw.randomByte.reg x) _).trans
      (hw.randomByte.byte_mod ((randomByte s).1 &&& kk))
    exact ⟨hx, fun hk => hx.trans (by rw [hk, BitVec.and_zero]; rfl)⟩
  · rw [randomByte_supplied hd]; exact ⟨rfl, rfl, rfl⟩
  · rw [randomByte_free hd]; exact ⟨rfl, hd, rfl⟩
  · rw [randomByte_eq]; rfl
  · rw [State.getV_setV_ne _ hq, getV_randomByte]
  · rw [randomByte_eq]; rfl

end Sys2Proof.Machine
end

section
/-!
Proofs about the index register and memory (43_memory_index): the writes of `I`, the stores of digits and of registers,
and the load of registers. A store that passes its checks leaves its bytes at `I` and nothing else changed; what is left
of each result is which number a stored byte is (log 25).
-/

namespace Sys2Proof.Machine

variable {s t : State} {x r : Reg}

/-! ### The index register (43_memory_index R102 to R104) -/

theorem onlyI_setI (s : State) (n : Nat) : OnlyI s (s.setI n) :=
  ⟨rfl, fun _ => rfl, fun _ => rfl⟩

/-- Settles O40: the instruction is one write of `I`, which checks no address. -/
theorem loadIndexResult : Obligations.LoadIndexResult := fun nnn s =>
  ⟨decodes_encode (.ldI nnn), s.setI nnn.toNat, rfl, rfl,
    fun h => addr_mod (Nat.pow_le_pow_right (by decide) h) nnn, onlyI_setI s _⟩

/-- Five times a general register needs three bits more than it. -/
theorem State.Fits.five_mul_getV_lt (hw : s.Fits) (hi : s.params.vWidth + 3 ≤ s.params.iWidth) (r : Reg) :
    5 * s.getV r < 2 ^ s.params.iWidth :=
  calc 5 * s.getV r
    _ < 2 ^ s.params.vWidth * 2 ^ 3 := by have := hw.getV_lt r; omega
    _ = 2 ^ (s.params.vWidth + 3) := (Nat.pow_add 2 _ 3).symm
    _ ≤ 2 ^ s.params.iWidth := Nat.pow_le_pow_right (by decide) hi

/-- Settles O41: each is one write of `I`, narrowed to `I` alone (D19, D20). -/
theorem indexArithmeticResults : Obligations.IndexArithmeticResults := fun x s =>
  ⟨decodes_encode (.addI x), decodes_encode (.ldF x), ⟨_, rfl, rfl, onlyI_setI s _⟩,
    _, rfl, rfl, onlyI_setI s _, fun hw hi => Nat.mod_eq_of_lt (hw.five_mul_getV_lt hi x)⟩

/-! ### Stores (R105, R106) -/

/-- A store whose addresses pass their checks changes only the bytes it stores to. -/
theorem onlyMem_storeBytes {a : Nat} {bytes : List Byte} (hc : checkStores s.params a bytes.length = none) :
    OnlyMem a bytes.length s (s.storeBytes a bytes) :=
  ⟨rfl, fun _ => rfl, fun _ hb => s.memRead_storeBytes_outside hc hb⟩

/-- A store that raised nothing passed its checks and wrote its bytes. -/
theorem storeAt_fault_none {a : Nat} {bytes : List Byte} {op : Word} (h : storeAt a bytes op s = .next t)
    (hf : t.fault = none) : checkStores s.params a bytes.length = none ∧ t = s.storeBytes a bytes := by
  cases hc : checkStores s.params a bytes.length with
  | some k => rw [storeAt_fault hc] at h; cases h; cases hf
  | none => rw [storeAt_ok hc] at h; cases h; exact ⟨rfl, rfl⟩

/-- The stored byte of a register is its low eight bits (log 25). -/
theorem toNat_regByte (s : State) (r : Reg) : (s.regByte r).toNat = s.getV r % 256 :=
  BitVec.toNat_ofNat (s.getV r) 8

/-- After a store of `V0..Vx` the byte at each one's address is that register's. -/
theorem memRead_storeBytes_regBytes {a : Nat} (hc : checkStores s.params a (s.regBytes x).length = none)
    (hr : r.toNat ≤ x.toNat) : (s.storeBytes a (s.regBytes x)).memRead (a + r.toNat) = s.regByte r := by
  have hk : r.toNat < (s.regBytes x).length := by rw [length_regBytes]; omega
  rw [s.memRead_storeBytes_at hc hk, getElem_regBytes, BitVec.ofNat_toNat, BitVec.setWidth_eq]

/-- A decimal digit is a byte. -/
theorem toNat_ofNat_digit (n : Nat) : (BitVec.ofNat 8 (n % 10)).toNat = n % 10 := by
  rw [BitVec.toNat_ofNat, Nat.mod_eq_of_lt (by omega)]

/-- Settles O42: the digits are the three bytes stored; the tens and units are below 10, and so are the hundreds of a
number below 1000. -/
theorem bcdStoresThreeDigits : Obligations.BcdStoresThreeDigits := by
  refine fun x s => ⟨decodes_encode (.ldB x), fun hlo hhi => ?_⟩
  have hc : checkStores s.params s.base (bcdDigits (s.getV x)).length = none := checkStores_eq_none_of_ends hlo hhi
  have hdigit {k : Nat} (hk : k < (bcdDigits (s.getV x)).length) :=
    congrArg BitVec.toNat (s.memRead_storeBytes_at hc hk)
  have hhundreds : ((s.storeBytes s.base (bcdDigits (s.getV x))).memRead s.base).toNat = s.getV x / 100 % 256 :=
    (hdigit (k := 0) (by decide : 0 < 3)).trans (BitVec.toNat_ofNat _ 8)
  have htens : ((s.storeBytes s.base (bcdDigits (s.getV x))).memRead (s.base + 1)).toNat = s.getV x / 10 % 10 :=
    (hdigit (k := 1) (by decide : 1 < 3)).trans (toNat_ofNat_digit _)
  have hunits : ((s.storeBytes s.base (bcdDigits (s.getV x))).memRead (s.base + 2)).toNat = s.getV x % 10 :=
    (hdigit (k := 2) (by decide : 2 < 3)).trans (toNat_ofNat_digit _)
  exact ⟨_, storeAt_ok hc _, fun h => hhundreds.trans (Nat.mod_eq_of_lt (by omega)), hhundreds, htens, hunits,
    onlyMem_storeBytes hc⟩

/-- Settles O43: the store of `V0..Vx` at `I`, which it leaves alone (D21). -/
theorem registerStoreResult : Obligations.RegisterStoreResult := by
  refine fun x s => ⟨decodes_encode (.storeRegs x), fun hlo hhi => ?_⟩
  have hc : checkStores s.params s.base (s.regBytes x).length = none :=
    checkStores_eq_none_of_ends hlo (by rwa [length_regBytes])
  refine ⟨_, storeAt_ok hc _, fun r hr => ?_, ?_⟩
  · rw [memRead_storeBytes_regBytes hc hr, toNat_regByte]
  · simpa only [length_regBytes] using onlyMem_storeBytes hc

/-! ### Loads (R107) -/

/-- `Fx65` leaves in each of `V0..Vx` the byte at its address, all of it. -/
theorem getV_loadList_regsUpTo (hw : s.Fits) (b : Nat) (hr : r.toNat ≤ x.toNat) :
    (loadList b (regsUpTo x) s).getV r = (s.memRead (b + r.toNat)).toNat :=
  (getV_loadList_mem b s (mem_regsUpTo.2 hr) (hw.reg r)).trans (hw.byte_mod _)

/-- Outside memory a byte reads as 0 (20_memory R42). -/
theorem State.memRead_of_capacity_le (s : State) {a : Nat} (h : s.params.memCapacity ≤ a) : s.memRead a = 0#8 :=
  s.mem.read_of_capacity_le h

/-- Settles O45: the load changes the register file alone, and there the registers it names. -/
theorem registerLoadResult : Obligations.RegisterLoadResult := by
  refine fun x s => ⟨decodes_encode (.loadRegs x), _, rfl, fun hw r hr => ?_, loadList_eq _ _ s, fun r hr => ?_,
    fun a => ?_⟩
  · have hread := getV_loadList_regsUpTo hw s.base hr
    exact ⟨hread, fun hcap => hread.trans (congrArg BitVec.toNat (s.memRead_of_capacity_le hcap))⟩
  · exact getV_loadList_ne _ s (mem_regsUpTo.not.2 (Nat.not_le.2 hr))
  · rw [loadList_eq]; rfl

/-- Settles O46: the load reads the bytes that the store wrote, at the addresses it wrote them to. -/
theorem registerStoreThenLoadRestores : Obligations.RegisterStoreThenLoadRestores := by
  intro x s t u hstore hf hu hp hm hi
  obtain ⟨hc, rfl⟩ := storeAt_fault_none hstore hf
  refine ⟨_, rfl, fun r hr => ?_⟩
  have hbase : u.base = s.base := hi
  rw [getV_loadList_regsUpTo hu u.base hr, hbase, State.memRead_congr hm hp, memRead_storeBytes_regBytes hc hr,
    toNat_regByte]

end Sys2Proof.Machine
end

section
/-!
Proofs about the display (44_display). `exec_drw` says what one `Dxyn` does; what is left is to read a cell after it,
which is flipped as often as the sprite names it, and to turn the sprite's cells into the grid's (`SpriteCovers`).
-/

namespace Sys2Proof.Machine

variable {x y : Reg} {n : Nibble} {s t u : State} {cx cy : Nat}

/-- Settles O47: the cleared framebuffer is the only field written. -/
theorem clearScreenTurnsEveryCellOff : Obligations.ClearScreenTurnsEveryCellOff :=
  ⟨decodes_encode .cls, fun _ => ⟨_, rfl, fun _ _ => fbGet_fbClear _ _, rfl, fun _ => rfl, fun _ => rfl⟩⟩

/-! ### After a `Dxyn` (R109) -/

/-- `exec_drw` of a given next state. -/
theorem drw_next (h : exec (.drw x y n) s = .next t) : t = { s with v := t.v, fb := t.fb } ∧
    t.fb = (drawCells s.params (drawnCells s x y n) (s.fb, false)).1 ∧
    (s.Fits → t.getV VF = flagValue (drawCells s.params (drawnCells s x y n) (s.fb, false)).2) ∧
    ∀ r, r ≠ VF → t.getV r = s.getV r := by
  obtain ⟨t', ht', hrest⟩ := exec_drw x y n s
  rw [h] at ht'
  cases ht'
  exact hrest

theorem drw_params (h : exec (.drw x y n) s = .next t) : t.params = s.params := by
  rw [(drw_next h).1]

/-- A cell is flipped as often as the sprite names it, at coordinates of any size. -/
theorem pixel_drw (h : exec (.drw x y n) s = .next t) (cx cy : Nat) :
    t.pixel cx cy = (s.pixel cx cy ^^ flips s.params (drawnCells s x y n) cx cy) := by
  obtain ⟨_, hfb, _⟩ := drw_next h
  rw [State.pixel, drw_params h, hfb, fbGet_drawCells, State.pixel]

theorem pixel_drw_uncovered (h : exec (.drw x y n) s = .next t) (hx : cx < s.params.fbW) (hy : cy < s.params.fbH)
    (hc : ¬SpriteCovers s x y n cx cy) : t.pixel cx cy = s.pixel cx cy := by
  rw [spriteCovers_iff hx hy] at hc
  rw [pixel_drw h, flips_eq_false fun c hmem hsame => hc ⟨c, hmem, hsame⟩, Bool.xor_false]

/-- On a grid that the sprite fits in a covered cell is flipped once. -/
theorem pixel_drw_covered (h : exec (.drw x y n) s = .next t) (hW : 8 ≤ s.params.fbW) (hH : n.toNat ≤ s.params.fbH)
    (hx : cx < s.params.fbW) (hy : cy < s.params.fbH) (hc : SpriteCovers s x y n cx cy) :
    t.pixel cx cy = !s.pixel cx cy := by
  have hflip := (flips_eq_true (drawnCells_distinct hW hH x y)).2 ((spriteCovers_iff hx hy).1 hc)
  rw [pixel_drw h, hflip, Bool.xor_true]

/-! ### The collision -/

theorem flagValue_eq_one_iff {c : Bool} : flagValue c = 1 ↔ c = true := by
  cases c <;> decide

/-- A sprite covers cells of the grid only, as its coordinates wrap. -/
theorem SpriteCovers.lt (h : SpriteCovers s x y n cx cy) (hW : 0 < s.params.fbW) (hH : 0 < s.params.fbH) :
    cx < s.params.fbW ∧ cy < s.params.fbH := by
  obtain ⟨_, _, _, _, _, rfl, rfl⟩ := h
  exact ⟨Nat.mod_lt _ hW, Nat.mod_lt _ hH⟩

/-- Some cell of the sprite is on exactly when some covered cell is: a cell is read at its wrapped coordinates. -/
theorem exists_drawnCells_on_iff (hf : s.Fits) : (∃ c ∈ drawnCells s x y n, s.pixel c.1 c.2 = true) ↔
    ∃ cx cy, SpriteCovers s x y n cx cy ∧ s.pixel cx cy = true := by
  constructor
  · rintro ⟨c, hc, hon⟩
    have hsame : sameCell s.params c (c.1 % s.params.fbW, c.2 % s.params.fbH) := by
      simp only [sameCell, wrapCell, Nat.mod_mod]
    exact ⟨_, _, (spriteCovers_iff (Nat.mod_lt _ hf.fbW_pos) (Nat.mod_lt _ hf.fbH_pos)).2 ⟨c, hc, hsame⟩,
      (fbGet_mod s.fb c.1 c.2).trans hon⟩
  · rintro ⟨cx, cy, hcov, hon⟩
    obtain ⟨hx, hy⟩ := hcov.lt hf.fbW_pos hf.fbH_pos
    obtain ⟨c, hc, hsame⟩ := (spriteCovers_iff hx hy).1 hcov
    exact ⟨c, hc, (fbGet_same s.fb hsame).trans hon⟩

/-- On a grid that the sprite fits in `VF` is 1 exactly when a covered cell was on. -/
theorem vf_drw_eq_one_iff (h : exec (.drw x y n) s = .next t) (hW : 8 ≤ s.params.fbW) (hH : n.toNat ≤ s.params.fbH)
    (hf : s.Fits) : t.getV VF = 1 ↔ ∃ cx cy, SpriteCovers s x y n cx cy ∧ s.pixel cx cy = true := by
  obtain ⟨_, _, hflag, _⟩ := drw_next h
  rw [hflag hf, flagValue_eq_one_iff, drawCells_collision (drawnCells_distinct hW hH x y),
    ← exists_drawnCells_on_iff hf]
  exact or_iff_right Bool.false_ne_true

/-- Settles O48: a cell is flipped as often as the sprite names it, which is once for a covered cell of a grid that the
sprite fits in (D27, D28). -/
theorem drawXorsTheSprite : Obligations.DrawXorsTheSprite := by
  refine ⟨by decide, by decide, fun x y n s => ⟨decodes_encode (.drw x y n), ?_⟩⟩
  obtain ⟨t, h, hframe, _, hflag, hregs⟩ := exec_drw x y n s
  refine ⟨t, h, fun _ _ => pixel_drw_uncovered h, fun hf => ?_, hframe, hregs, fun a => ?_, fun hW hH =>
    ⟨fun _ _ => pixel_drw_covered h hW hH, vf_drw_eq_one_iff h hW hH⟩⟩
  · rw [hflag hf]
    exact (flagValue_eq_zero_or_one _).symm
  · rw [hframe]
    rfl

/-! ### Drawing twice -/

/-- The sprite is read from memory, `I`, `Vx` and `Vy`. -/
theorem drawnCells_congr (hp : u.params = s.params) (hm : u.mem = s.mem) (hi : u.i = s.i) (hx : u.getV x = s.getV x)
    (hy : u.getV y = s.getV y) (n : Nibble) : drawnCells u x y n = drawnCells s x y n := by
  rw [drawnCells, hx, hy, State.readBytes_congr hm hp, State.base, hi, drawnCells, State.base]

theorem spriteCovers_congr (hp : u.params = s.params) (hm : u.mem = s.mem) (hi : u.i = s.i)
    (hx : u.getV x = s.getV x) (hy : u.getV y = s.getV y) :
    SpriteCovers u x y n cx cy ↔ SpriteCovers s x y n cx cy := by
  simp only [SpriteCovers, hp, hi, hx, hy, State.memRead_congr hm hp]

theorem drw_fb_wf (h : exec (.drw x y n) s = .next t) (hW : 0 < s.params.fbW) (hH : 0 < s.params.fbH)
    (hwf : Framebuffer.wf s.params s.fb) : Framebuffer.wf s.params t.fb := by
  obtain ⟨_, hfb, _⟩ := drw_next h
  rw [hfb]
  exact drawCells_wf hW hH hwf false

/-- Settles O49: both draws flip a cell equally often, so the second undoes the first; and a covered cell is on before
the second draw exactly when it was off before the first (log 19). -/
theorem drawingTwiceRestoresTheFramebuffer : Obligations.DrawingTwiceRestoresTheFramebuffer := by
  intro x y n s t u ht hp hfb hm hi hx hy
  obtain ⟨w, hw, _⟩ := exec_drw x y n u
  have hut (cx cy : Nat) : u.pixel cx cy = t.pixel cx cy := by
    rw [State.pixel, hp, hfb, State.pixel, drw_params ht]
  have hpixel (cx cy : Nat) : w.pixel cx cy = s.pixel cx cy := by
    rw [pixel_drw hw, hut, pixel_drw ht, hp, drawnCells_congr hp hm hi hx hy, Bool.xor_assoc, Bool.xor_self,
      Bool.xor_false]
  refine ⟨w, hw, hpixel, fun hinv => ?_, fun hW hH hf => ?_⟩
  · have hwpos := hinv.fits.fbW_pos
    have hhpos := hinv.fits.fbH_pos
    have hwf := drw_fb_wf ht hwpos hhpos hinv.fb
    have hwf' := drw_fb_wf hw (hp ▸ hwpos) (hp ▸ hhpos) (by rwa [hp, hfb])
    rw [hp] at hwf'
    refine framebuffer_ext hwf' hinv.fb fun cx cy _ _ => ?_
    simpa only [State.pixel, drw_params hw, hp] using hpixel cx cy
  · have hcell (cx cy : Nat) : SpriteCovers u x y n cx cy ∧ u.pixel cx cy = true ↔
        SpriteCovers s x y n cx cy ∧ s.pixel cx cy = false := by
      rw [spriteCovers_congr hp hm hi hx hy]
      refine and_congr_right fun hcov => ?_
      obtain ⟨hcx, hcy⟩ := hcov.lt (by omega) (hp ▸ hf.fbH_pos)
      rw [hut, pixel_drw_covered ht hW hH hcx hcy hcov, Bool.not_eq_true']
    rw [vf_drw_eq_one_iff hw (hp ▸ hW) (hp ▸ hH) hf]
    exact exists₂_congr hcell

end Sys2Proof.Machine
end

section
/-!
Proofs about the keys and the timers (45_keys_timers): the key tests, the reads and writes of the timers, and the start
of a key wait. Each is one named update of the state, and what its cycle leaves is that update with the countdown, or
without it where a wait begins (40_cycle R75).
-/

namespace Sys2Proof.Machine

variable {s : State}

/-! ### Key tests (R110, R111, 10_state R28) -/

/-- A key is down when the keyboard lists it as down; a number it does not list is up. -/
theorem State.keyIsDown_eq_decide (s : State) (k : Nat) : s.keyIsDown k = decide (s.keys[k]? = some true) := by
  rw [State.keyIsDown]
  cases s.keys[k]? with
  | none => rfl
  | some down => cases down <;> rfl

theorem State.keyIsUp_eq_decide (s : State) (k : Nat) : s.keyIsUp k = decide (¬s.keys[k]? = some true) := by
  rw [State.keyIsUp, State.keyIsDown_eq_decide, decide_not]

/-- The condition of `Ex9E` as a proposition about the keyboard. -/
theorem exec_skp (x : Reg) (s : State) : exec (.skp x) s =
    withKey x (encode (.skp x)) s fun k => .next (s.skipIf (decide (s.keys[k]? = some true))) := by
  simp only [← State.keyIsDown_eq_decide]; rfl

/-- The condition of `ExA1` is that of `Ex9E` negated. -/
theorem exec_sknp (x : Reg) (s : State) : exec (.sknp x) s =
    withKey x (encode (.sknp x)) s fun k => .next (s.skipIf (decide (¬s.keys[k]? = some true))) := by
  simp only [← State.keyIsUp_eq_decide]; rfl

/-- A test of the key in `Vx` skips on its condition where `Vx` is a key number. -/
theorem exec_keyTest_valid {i : Instr} {x : Reg} {c : Nat → Prop} [DecidablePred c]
    (h : exec i s = withKey x (encode i) s fun k => .next (s.skipIf (decide (c k))))
    (hk : s.getV x < s.params.numKeys) :
    ∃ t, exec i s = .next t ∧ t.pc = (if c (s.getV x) then (s.pc + 2) % 2 ^ s.params.pcWidth else s.pc) ∧
      OnlyPC s t :=
  exec_skip (h.trans (withKey_valid hk _ _))

/-- A test of the key in `Vx` only faults where `Vx` is no key number (decision D22). -/
theorem exec_keyTest_invalid {i : Instr} {x : Reg} {rest : Nat → Result} (h : exec i s = withKey x (encode i) s rest)
    (hk : s.params.numKeys ≤ s.getV x) :
    ∃ t, exec i s = .next t ∧ OnlyFaults ⟨.invalidKey (s.getV x), s.instrAddr, some (encode i)⟩ s t :=
  ⟨_, h.trans (withKey_invalid hk _ _), onlyFaults_raiseAt _ _ s⟩

/-- Settles O50: with a key number each test is a skip, on the key down or on its negation; with any other number it is
`InvalidKey`. -/
theorem keySkipsTestTheKey : Obligations.KeySkipsTestTheKey := by
  refine fun x s => ⟨decodes_encode (.skp x), decodes_encode (.sknp x), ?_, fun hk => ?_⟩
  · rintro _ hk rfl
    exact ⟨exec_keyTest_valid (exec_skp x s) hk,
      by simpa only [ite_not] using exec_keyTest_valid (exec_sknp x s) hk⟩
  · exact ⟨exec_keyTest_invalid (exec_skp x s) hk, exec_keyTest_invalid (exec_sknp x s) hk⟩

/-! ### Timer access (R112, R114, R115) -/

/-- A value of one width is all kept by a register that is no narrower. -/
theorem mod_two_pow_of_le {n w m : Nat} (hn : n < 2 ^ w) (h : w ≤ m) : n % 2 ^ m = n :=
  Nat.mod_eq_of_lt (hn.trans_le (Nat.pow_le_pow_right (by decide) h))

/-- Settles O52: each is one write of a timer; its cycle is that of `TimersCountDownAfterTheInstruction`. -/
theorem timersAreSetFromRegisters : Obligations.TimersAreSetFromRegisters := by
  obtain ⟨-, hcycleDT, hcycleST⟩ := timersCountDownAfterTheInstruction
  refine fun x s => ⟨decodes_encode (.ldDt x), decodes_encode (.ldSt x), ?_, ?_, fun hf => ?_, fun hf => ?_⟩
  · exact ⟨s.setDT (s.getV x), rfl, rfl, fun hw h => mod_two_pow_of_le (hw.getV_lt x) h, rfl, fun _ => rfl,
      fun _ => rfl⟩
  · exact ⟨s.setST (s.getV x), rfl, rfl, fun hw h => mod_two_pow_of_le (hw.getV_lt x) h, rfl, fun _ => rfl,
      fun _ => rfl⟩
  · obtain ⟨t, ht, hdt, -⟩ := hcycleDT s x hf
    exact ⟨t, ht, hdt⟩
  · obtain ⟨t, ht, hst, -⟩ := hcycleST s x hf
    exact ⟨t, ht, hst⟩

/-- Settles O51: `Fx07` is one write of `Vx` with the `DT` that the countdown after it has not reached. -/
theorem delayTimerIsReadBeforeTheCountdown : Obligations.DelayTimerIsReadBeforeTheCountdown := by
  refine fun x s => ⟨decodes_encode (.ldVxDt x), ⟨s.setV x s.dt, rfl, onlyV_setV x s.dt s, fun hw => ?_⟩, fun hf => ?_⟩
  · have hx := s.getV_setV_self (hw.reg x) s.dt
    exact ⟨hx, fun h => hx.trans (mod_two_pow_of_le hw.dt h)⟩
  · exact ⟨_, (step_decoded hf (decodeWord_encode (.ldVxDt x))).trans (finishCycle_running hf.1), timerTick_dt_eq _,
      fun hw => State.getV_setV_self _ (hw.reg x) _⟩

/-! ### The key wait (R113) -/

/-- The address of an instruction is two below its advanced `PC` (log 12). -/
theorem State.Fits.instrAddr_add_two (hw : s.Fits) : (s.instrAddr + 2) % 2 ^ s.params.pcWidth = s.pc := by
  have h2 := hw.le_pcWidth
  rw [State.instrAddr, Nat.mod_add_mod, Nat.add_assoc, Nat.sub_add_cancel (by omega), Nat.add_mod_right,
    Nat.mod_eq_of_lt hw.pc]

/-- A cycle whose instruction leaves the core in another state than `Running` ends without the countdown (R75). -/
theorem finishCycle_not_running {t : State} (h : t.run ≠ .running) : finishCycle (.next t) = .next t := by
  rw [finishCycle, if_neg h]

/-- Settles O53: the wait is noted with the address that the advanced `PC` gives back, and with the core out of
`Running` no countdown follows. -/
theorem keyWaitSuspendsTheCore : Obligations.KeyWaitSuspendsTheCore := fun x _ =>
  ⟨decodes_encode (.ldVxK x),
    ⟨_, rfl, rfl, rfl, State.Fits.instrAddr_add_two, rfl, fun _ => rfl, fun _ => rfl⟩,
    fun hf => ⟨_, (step_decoded hf (decodeWord_encode (.ldVxK x))).trans (finishCycle_not_running RunState.noConfusion),
      rfl, rfl, fun hw => hw.advance_addr, rfl, rfl, rfl⟩⟩

end Sys2Proof.Machine
end

section
/-!
Proofs about faults and the host's operations (60_exceptions): what a faulting cycle leaves, how long a record is kept,
and what the key notifications, `setRegister` and the reads do.
-/

namespace Sys2Proof.Machine

variable {s t : State}

/-! ### Faulting cycles (R116, R117) -/

/-- A cycle that records a fault did so in its fetch, which left `PC` alone, or after it, with the fetched word. -/
theorem CycleEnds.recorded (h : CycleEnds s t) (hn : s.fault = none) (ht : t.fault ≠ none) :
    (s.params.memCapacity ≤ s.pc + 1 ∧ t = raise (.pcOutOfBounds s.pc) s.pc none s) ∨
      s.pc + 1 < s.params.memCapacity ∧ ∃ k, t = raiseAt k (fetchWord s s.pc) s.advance := by
  cases h with
  | breakpoint => exact absurd hn ht
  | outside hp => exact .inl ⟨hp, rfl⟩
  | faulted k hp => exact .inr ⟨hp, k, rfl⟩
  | completed i u hd hx hc =>
    have hu : u.fault = none := hc.fault.trans hn
    split at ht
    · exact absurd hu ht
    · exact absurd hu ht

/-- Settles O19: a fetch outside memory raises before `PC` moves, and any other fault is raised with `PC` advanced. -/
theorem faultsArePrecise : Obligations.FaultsArePrecise := by
  intro s t hpc hr ha hn h ht
  rw [step_cycle ha hr] at h
  rcases (cycle_ends h).recorded hn ht with ⟨hp, rfl⟩ | ⟨hp, k, rfl⟩
  · exact ⟨⟨.pcOutOfBounds s.pc, s.pc, none⟩, rfl, rfl, .inl ⟨rfl, rfl, rfl, hp⟩⟩
  · rw [raiseAt_advance (s := { s with agenda := s.agenda.tail }) hpc]
    exact ⟨⟨k, s.pc, some (fetchWord s s.pc)⟩, rfl, rfl, .inr ⟨rfl, rfl, hp⟩⟩

/-! ### The fault record is kept (R118, decision D10) -/

theorem hostLoad_fault (offset : Nat) (bytes : List Byte) (s : State) :
    (hostLoad offset bytes s).1.fault = s.fault := by
  rcases hostLoad_cases offset bytes s with h | ⟨h, -⟩
  · rw [h]
  · rw [h]; rfl

theorem hostRun_fault (s : State) : (hostRun s).1.fault = s.fault := by
  rw [hostRun]
  split
  · rfl
  · split <;> rfl

theorem writeRegister_fault (q : RegName) (n : Nat) (s : State) : (writeRegister q n s).fault = s.fault := by
  cases q <;> rfl

/-- `setRegister` fails and changes nothing, or writes a register. -/
theorem hostSetRegister_cases (name : List Char) (n : Nat) (s : State) :
    (hostSetRegister name n s).1 = s ∨ ∃ q, (hostSetRegister name n s).1 = writeRegister q n s := by
  rw [hostSetRegister]
  cases parseRegister name with
  | none => exact .inl rfl
  | some q =>
    simp only
    split_ifs
    · exact .inl rfl
    · exact .inr ⟨q, rfl⟩
    · exact .inl rfl

theorem hostSetRegister_fault (name : List Char) (n : Nat) (s : State) :
    (hostSetRegister name n s).1.fault = s.fault := by
  rcases hostSetRegister_cases name n s with h | ⟨q, h⟩
  · rw [h]
  · rw [h, writeRegister_fault]

theorem hostSetDown_fault (k : Nat) (s : State) : (hostSetDown k s).1.fault = s.fault := by
  rw [hostSetDown]; split_ifs <;> rfl

theorem hostSetUp_fault (k : Nat) (s : State) : (hostSetUp k s).1.fault = s.fault := by
  rw [hostSetUp]; split <;> rfl

/-- Only `reset()` writes the fault record. -/
theorem hostOperation_fault {r : HostRequest} (hr : r ≠ .reset) (s : State) :
    (hostOperation r s).1.fault = s.fault := by
  cases r with
  | reset => exact absurd rfl hr
  | load offset bytes => exact hostLoad_fault offset bytes s
  | run => exact hostRun_fault s
  | setRegister name n => exact hostSetRegister_fault name n s
  | setDown k => exact hostSetDown_fault k s
  | setUp k => exact hostSetUp_fault k s
  | stop | getRegisters | setBreakpoint a | hasBreakpoint a | readMemory a | readFramebuffer | readSoundTimer
  | readStatus => rfl

/-- With the core not `Running`, a step that serves no `reset()` leaves the fault record alone. -/
theorem step_fault (hr : s.run ≠ .running) (h : step s = .next t) (hreset : ∀ rest, ¬Asks s .reset rest) :
    t.fault = s.fault := by
  rcases asks_or_asksNothing s with ⟨r, rest, ha⟩ | ha
  · rw [step_request ha] at h
    cases h
    exact hostOperation_fault (fun hc => hreset rest (hc ▸ ha)) { s with agenda := rest }
  · rw [step_idle ha hr] at h; cases h; rfl

/-- In the invariant a core with a fault recorded neither runs nor waits for a key. -/
theorem State.Inv.run_of_fault (hi : s.Inv) (hf : s.fault ≠ none) : s.run ≠ .running ∧ s.run ≠ .awaitingKeypress :=
  ⟨fun hr => hf (hi.fault_eq_none (.inl hr)), fun hr => hf (hi.fault_eq_none (.inr hr))⟩

/-- Settles O20: the core makes no cycle while the record is there, and the invariant, which the step keeps, says the
same of the state after it. -/
theorem recordedFaultIsKeptUntilReset : Obligations.RecordedFaultIsKeptUntilReset := by
  intro s t f hi hf h hreset
  have hs : s.fault ≠ none := hf ▸ Option.some_ne_none f
  have ht : t.fault = s.fault := step_fault (hi.run_of_fault hs).1 h hreset
  exact ⟨ht.trans hf, ((keeps_step h).inv hi).run_of_fault (ht ▸ hs)⟩

/-! ### Key notifications (R133) -/

/-- A notification of a number that is no key fails. -/
theorem hostSetDown_invalid {k : Nat} (hk : s.params.numKeys ≤ k) : hostSetDown k s = (s, .failed .invalidKey) :=
  if_pos hk

theorem hostSetUp_invalid {k : Nat} (hk : s.params.numKeys ≤ k) : hostSetUp k s = (s, .failed .invalidKey) :=
  if_pos hk

/-- A key-down in a key wait ends the wait (decision D23). -/
theorem hostSetDown_waiting {k : Nat} (hk : k < s.params.numKeys) (hr : s.run = .awaitingKeypress) :
    hostSetDown k s = (completeKeyWait k { s.setKey k true with lastKey := some k }, .ok) := by
  simp only [hostSetDown, if_neg (Nat.not_le.2 hk), if_pos hr]

/-- A key-down in any other run state notes the key. -/
theorem hostSetDown_not_waiting {k : Nat} (hk : k < s.params.numKeys) (hr : s.run ≠ .awaitingKeypress) :
    hostSetDown k s = ({ s.setKey k true with lastKey := some k }, .ok) := by
  simp only [hostSetDown, if_neg (Nat.not_le.2 hk), if_neg hr]

/-- A key-up clears the key in every run state. -/
theorem hostSetUp_valid {k : Nat} (hk : k < s.params.numKeys) : hostSetUp k s = (s.setKey k false, .ok) :=
  if_neg (Nat.not_le.2 hk)

/-- The keyboard after a notification: the key notified as it is now, every other as before. -/
theorem State.Fits.getElem?_setKey (hw : s.Fits) {k : Nat} (hk : k < s.params.numKeys) (down : Bool) (j : Nat) :
    (s.setKey k down).keys[j]? = if j = k then some down else s.keys[j]? := by
  rcases eq_or_ne j k with rfl | hj
  · rw [if_pos rfl, State.setKey_keys, List.getElem?_set_self (by rwa [hw.keys])]
  · rw [if_neg hj, State.setKey_keys, List.getElem?_set_ne hj.symm]

/-- Settles O54: the two key-downs, in a key wait and outside, the key-up, and the number that is no key. -/
theorem keyNotificationsUpdateKeysAndEndTheWait : Obligations.KeyNotificationsUpdateKeysAndEndTheWait := by
  refine fun s k rest => ⟨fun ha hk => ?_, fun ha hk => ?_, ?_⟩
  · by_cases hr : s.run = .awaitingKeypress
    · refine ⟨_, step_serves ha (hostSetDown_waiting hk hr), fun hw => hw.getElem?_setKey hk true, rfl,
        fun hn => absurd hr hn, fun _ => ⟨rfl, fun hw => ?_, fun r hq => s.getV_setV_ne hq k, timerTick_dt_eq _,
          timerTick_st_eq _, rfl⟩⟩
      have hreg := s.getV_setV_self (hw.reg s.waitReg) k
      exact ⟨hreg, fun hwide => hreg.trans (Nat.mod_eq_of_lt (hk.trans_le hwide))⟩
    · exact ⟨_, step_serves ha (hostSetDown_not_waiting hk hr), fun hw => hw.getElem?_setKey hk true, rfl,
        fun _ => rfl, fun hn => absurd hn hr⟩
  · exact ⟨_, step_serves ha (hostSetUp_valid hk), fun hw => hw.getElem?_setKey hk false, rfl⟩
  · rintro hk (ha | ha)
    · exact step_serves ha (hostSetDown_invalid hk)
    · exact step_serves ha (hostSetUp_invalid hk)

/-! ### The names of the general registers (R127) -/

/-- The characters from `0` up stand at the first ten places of the sixteen, those from `A` up at the other six. -/
theorem getElem?_hexDigits_decimal :
    ∀ m < 10, hexDigits[(BitVec.ofNat 4 m).toNat]? = some (Char.ofNat ('0'.toNat + m)) := by decide

theorem getElem?_hexDigits_letter :
    ∀ m < 6, hexDigits[(BitVec.ofNat 4 (10 + m)).toNat]? = some (Char.ofNat ('A'.toNat + m)) := by decide

/-- A character is found again by its distance from one that does not come after it. -/
theorem ofNat_add_sub {a c : Char} (h : a.toNat ≤ c.toNat) : Char.ofNat (a.toNat + (c.toNat - a.toNat)) = c := by
  rw [Nat.add_sub_cancel' h, Char.ofNat_toNat]

/-- A character with a value stands at its place among the sixteen digits. -/
theorem getElem?_of_hexDigit {c : Char} {d : Reg} (h : hexDigit c = some d) : hexDigits[d.toNat]? = some c := by
  rw [hexDigit] at h
  split_ifs at h with hdec hlet
  · cases h
    rw [getElem?_hexDigits_decimal _ (Nat.sub_lt_left_of_lt_add hdec.1 (Nat.lt_succ_of_le hdec.2)),
      ofNat_add_sub hdec.1]
  · cases h
    rw [getElem?_hexDigits_letter _ (Nat.sub_lt_left_of_lt_add hlet.1 (Nat.lt_succ_of_le hlet.2)),
      ofNat_add_sub hlet.1]

/-- Each of the sixteen places holds a digit with that value. -/
theorem hexDigit_at : ∀ d : Reg, hexDigits[d.toNat]?.bind hexDigit = some d := by decide

/-- The value of a digit is its place among the sixteen, and no other character has one. -/
theorem hexDigit_eq_some_iff {c : Char} {d : Reg} : hexDigit c = some d ↔ hexDigits[d.toNat]? = some c :=
  ⟨getElem?_of_hexDigit, fun h => by simpa [h] using hexDigit_at d⟩

/-- The digits are the characters with a value. -/
theorem mem_hexDigits_iff {c : Char} : c ∈ hexDigits ↔ ∃ d, hexDigit c = some d := by
  constructor
  · intro h
    obtain ⟨k, hk, hc⟩ := List.mem_iff_getElem.1 h
    refine ⟨BitVec.ofNat 4 k, hexDigit_eq_some_iff.2 ?_⟩
    rw [BitVec.toNat_ofNat, Nat.mod_eq_of_lt (by exact hk), List.getElem?_eq_getElem hk, hc]
  · rintro ⟨d, hd⟩
    exact List.mem_of_getElem? (hexDigit_eq_some_iff.1 hd)

/-- `V` and a digit name the register of the digit's value. -/
theorem parseRegister_v {name : List Char} {c : Char} {d : Reg} (hname : name.map Char.toUpper = ['V', c])
    (hd : hexDigit c = some d) : parseRegister name = some (.v d) := by
  rw [parseRegister, hname, registerNamed_v, hd]; rfl

/-! ### `setRegister` (R127, decision D32) -/

variable {u : State} {name : List Char} {q : RegName} {value : Nat} {rest : List HostEvent}

/-- A name that stands for no register is refused. -/
theorem hostSetRegister_unknown (hq : parseRegister name = none) (value : Nat) :
    hostSetRegister name value s = (s, .failed .unknownRegister) := by
  rw [hostSetRegister, hq]

/-- A value of the register's width is written. -/
theorem hostSetRegister_writes (hq : parseRegister name = some q) (hp : q.present s.params = true)
    (hv : value < 2 ^ q.width s.params) : hostSetRegister name value s = (writeRegister q value s, .ok) := by
  simp only [hostSetRegister, hq, hp, Bool.true_eq_false, if_false, if_pos hv]

/-- A wider value is refused. -/
theorem hostSetRegister_wide (hq : parseRegister name = some q) (hp : q.present s.params = true)
    (hv : 2 ^ q.width s.params ≤ value) : hostSetRegister name value s = (s, .failed .valueTooWide) := by
  simp only [hostSetRegister, hq, hp, Bool.true_eq_false, if_false, if_neg (Nat.not_lt.2 hv)]

/-- Where the parameters fit together every general register is there. -/
theorem State.Fits.present_v (hw : s.Fits) (d : Reg) : (RegName.v d).present s.params = true :=
  decide_eq_true (hw.vCount ▸ hw.reg d)

/-- A register that holds the value written to it takes it whole. -/
theorem State.setI_of_lt (h : value < 2 ^ s.params.iWidth) : s.setI value = { s with i := value } := by
  rw [State.setI, Nat.mod_eq_of_lt h]

theorem State.setPC_of_lt (h : value < 2 ^ s.params.pcWidth) : s.setPC value = { s with pc := value } := by
  rw [State.setPC, Nat.mod_eq_of_lt h]

theorem State.setDT_of_lt (h : value < 2 ^ s.params.timerWidth) : s.setDT value = { s with dt := value } := by
  rw [State.setDT, Nat.mod_eq_of_lt h]

theorem State.setST_of_lt (h : value < 2 ^ s.params.timerWidth) : s.setST value = { s with st := value } := by
  rw [State.setST, Nat.mod_eq_of_lt h]

/-- The step that serves a `setRegister` of a value of the register's width. -/
theorem step_setRegister_writes (ha : Asks s (.setRegister name value) rest) (hq : parseRegister name = some q)
    (hp : q.present s.params = true) (hv : value < 2 ^ q.width s.params)
    (hu : writeRegister q value { s with agenda := rest } = u) : step s = .next { u with reply := some .ok } :=
  hu ▸ step_serves ha (hostSetRegister_writes hq hp hv)

/-- The step that serves a `setRegister` of a wider value. -/
theorem step_setRegister_wide (ha : Asks s (.setRegister name value) rest) (hq : parseRegister name = some q)
    (hp : q.present s.params = true) (hv : 2 ^ q.width s.params ≤ value) :
    step s = .next (answered s rest (.failed .valueTooWide)) :=
  step_serves ha (hostSetRegister_wide hq hp hv)

/-- Settles O57: each clause is a name, by `registerNamed`, with a value the register holds or a wider one. -/
theorem setRegisterWritesOneRegister : Obligations.SetRegisterWritesOneRegister := by
  refine ⟨fun c d => hexDigit_eq_some_iff, fun s name value rest ha => ⟨fun c d hname hc hw hv => ?_,
    fun hname hv => ?_, fun hname hv => ?_, fun hname hv => ?_, fun hname hv => ?_, fun hV hname => ?_,
    fun c hname hc hw hv => ?_, fun hname hv => ?_, fun hname hv => ?_, fun hname hv => ?_⟩⟩
  · have hq := parseRegister_v hname (hexDigit_eq_some_iff.2 hc)
    exact ⟨_, step_setRegister_writes ha hq (hw.present_v d) hv rfl,
      (s.getV_setV_self (hw.reg d) value).trans (Nat.mod_eq_of_lt hv), fun _ hr => s.getV_setV_ne hr value, rfl⟩
  · exact step_setRegister_writes (q := .i) ha (congrArg registerNamed hname) rfl hv (State.setI_of_lt hv)
  · exact step_setRegister_writes (q := .pc) ha (congrArg registerNamed hname) rfl hv (State.setPC_of_lt hv)
  · exact step_setRegister_writes (q := .dt) ha (congrArg registerNamed hname) rfl hv (State.setDT_of_lt hv)
  · exact step_setRegister_writes (q := .st) ha (congrArg registerNamed hname) rfl hv (State.setST_of_lt hv)
  · have hnone : parseRegister name = none :=
      registerNamed_none (fun c d hc hd => hV c hc (mem_hexDigits_iff.2 ⟨d, hd⟩)) hname
    exact step_serves ha (hostSetRegister_unknown hnone value)
  · obtain ⟨d, hd⟩ := mem_hexDigits_iff.1 hc
    exact step_setRegister_wide ha (parseRegister_v hname hd) (hw.present_v d) hv
  · rcases List.mem_pair.1 hname with hname | hname
    · exact step_setRegister_wide (q := .dt) ha (congrArg registerNamed hname) rfl hv
    · exact step_setRegister_wide (q := .st) ha (congrArg registerNamed hname) rfl hv
  · exact step_setRegister_wide (q := .i) ha (congrArg registerNamed hname) rfl hv
  · exact step_setRegister_wide (q := .pc) ha (congrArg registerNamed hname) rfl hv

/-! ### The host's reads (R128, R130 to R132, R136) -/

/-- A general register that is there is read from its place in the register file. -/
theorem State.Fits.getElem?_v (hw : s.Fits) (x : Reg) : s.v[x.toNat]? = some (s.getV x) := by
  rw [State.getV, List.getElem?_eq_getElem (hw.reg x), Option.getD_some]

/-- A read outside memory gives 0, as it reads there. -/
theorem State.memRead_eq_ite (s : State) (a : Nat) :
    s.memRead a = if a < s.params.memCapacity then s.memRead a else 0#8 := by
  split
  · rfl
  · exact s.memRead_of_capacity_le (Nat.not_lt.1 ‹_›)

/-- Settles O58: each read is answered from the state it leaves. -/
theorem hostReadsChangeNothing : Obligations.HostReadsChangeNothing := by
  refine fun s rest => ⟨fun ha => ?_, fun a ha => ?_, fun ha => ?_, fun ha => ?_, fun ha => ?_⟩
  · exact ⟨snapshot s, step_serves ha rfl, rfl, fun hw => hw.getElem?_v, rfl, rfl, rfl, rfl, rfl⟩
  · rw [← s.memRead_eq_ite]
    exact step_serves ha rfl
  · exact step_serves ha rfl
  · exact step_serves ha rfl
  · exact step_serves ha rfl

end Sys2Proof.Machine
end

section
/-!
Proofs about construction, `reset()` and the launch (70_reset_and_hazards): what a constructed state holds, how memory
reads after a reset under either value of `RESET_MEMORY`, and when a launch succeeds and with which state.
-/

namespace Sys2Proof.Machine

variable {p : Config.Params} {s u : State} {a : Nat}

/-! ### Bytes that nothing has written (20_memory R38 to R42) -/

/-- An unlisted byte past the font reads as the base of memory says (log 15). -/
theorem Memory.read_unlisted {m : Memory} (hl : cellLookup m.cells a = none) (hlo : p.fontEnd ≤ a)
    (hhi : a < p.memCapacity) : m.read p a = (m.unlisted p a).getD (Config.memInit a) := by
  have hf : ¬p.inFont a := fun h => absurd h.2 (Nat.not_lt.2 hlo)
  simp only [Memory.read, if_pos hhi, if_neg hf, hl]

/-- A font address reads the same in every memory. -/
theorem Memory.read_font_eq (m m' : Memory) (hf : p.inFont a) : m.read p a = m'.read p a := by
  by_cases hc : a < p.memCapacity
  · rw [m.read_font hc hf, m'.read_font hc hf]
  · rw [m.read_of_capacity_le (Nat.not_lt.1 hc), m'.read_of_capacity_le (Nat.not_lt.1 hc)]

/-- A cleared memory reads 0 past the font, in memory and outside it (70_reset_and_hazards R143). -/
theorem Memory.read_cleared (hlo : p.fontEnd ≤ a) : Memory.read p ⟨.cleared, []⟩ a = 0#8 := by
  by_cases hc : a < p.memCapacity
  · rw [Memory.read_unlisted rfl hlo hc, Memory.unlisted, if_pos hlo, Option.getD_some]
  · exact Memory.read_of_capacity_le _ (Nat.not_lt.1 hc)

/-! ### The state at construction (10_state R35, 70_reset_and_hazards R140) -/

/-- The load offset fits into `PC` where the parameters fit together. -/
theorem State.initial_pc (h : p.Valid) : (State.initial p).pc = p.programStart := by
  obtain ⟨⟨-, -, -, -, -, -, hpc⟩, -⟩ := h
  exact Nat.mod_eq_of_lt hpc

/-- Every register that the machine has is 0. -/
theorem State.getV_initial {r : Reg} (h : r.toNat < p.numV) : (State.initial p).getV r = 0 := by
  simp only [State.getV, State.initial, List.getElem?_replicate, if_pos h, Option.getD_some]

/-- Every key is up, and so is a number that is no key. -/
theorem State.keyIsUp_initial (k : Nat) : (State.initial p).keyIsUp k = true := by
  simp only [State.keyIsUp, State.keyIsDown, State.initial, List.getElem?_replicate]
  split <;> rfl

/-- The font table holds FONT (20_memory R41). -/
theorem State.memRead_initial_font {b : Byte} (hf : p.inFont a) (hc : a < p.memCapacity)
    (hb : p.font[a - p.fontBase]? = some b) : (State.initial p).memRead a = b :=
  (Memory.read_font _ hc hf).trans (by rw [fontByte, hb, Option.getD_some])

/-- Memory past the font holds MEM_INIT (decision D2). -/
theorem State.memRead_initial (hlo : p.fontEnd ≤ a) (hc : a < p.memCapacity) :
    (State.initial p).memRead a = Config.memInit a :=
  (Memory.read_unlisted rfl hlo hc).trans (by rw [Memory.unlisted, if_pos hlo]; rfl)

/-- Settles O5: the fields of `State.initial` with the laws of reading them, and the defaults by evaluation. -/
theorem constructionState : Obligations.ConstructionState := by
  refine ⟨?_, rfl, by decide⟩
  rintro p s rfl
  exact ⟨rfl, rfl, State.initial_pc, rfl, rfl, List.length_replicate, fun _ => State.getV_initial, rfl, rfl,
    List.length_replicate, fun _ => List.eq_of_mem_replicate, fun _ _ => rfl, rfl, rfl, rfl, rfl,
    List.length_replicate, State.keyIsUp_initial, rfl, fun _ _ => State.memRead_initial_font,
    fun _ => State.memRead_initial⟩

/-- The document's parameters fit together. -/
theorem documentParams_valid : documentParams.Valid := by decide

/-- The state at construction meets the invariant where its parameters fit together. -/
theorem State.Inv.initial (h : p.Valid) : (State.initial p).Inv where
  fits := State.Fits.initial h
  mem := ⟨.nil, nofun⟩
  fb := ⟨.nil, nofun⟩
  sp := Nat.zero_le _
  fault := fun hf => absurd rfl hf
  breakpoints := .nil

/-- Settles O7: the document's parameters are some that fit together. -/
theorem resetMeetsTheInvariant : Obligations.ResetMeetsTheInvariant :=
  ⟨State.Inv.initial documentParams_valid, fun _ => State.Inv.initial⟩

/-! ### `reset()` (R141 to R143) -/

/-- Under `RESET_MEMORY = keep` memory reads as before. -/
theorem sameBytes_hostReset (h : Config.resetMemory = .keep) : SameBytes s (hostReset s).1 :=
  State.memRead_congr (congrArg (resetMemory · s.mem) h) rfl

/-- Under `RESET_MEMORY = clear` every byte past the font reads 0. -/
theorem memRead_hostReset_clear (h : Config.resetMemory = .clear) (hlo : s.params.fontEnd ≤ a) :
    (hostReset s).1.memRead a = 0#8 := by
  have hm : (hostReset s).1.mem = ⟨.cleared, []⟩ := congrArg (resetMemory · s.mem) h
  rw [State.memRead, hm]
  exact Memory.read_cleared hlo

/-- The step that serves a `reset()`: but for the host's own fields it leaves what `hostReset` makes of the state. -/
theorem step_reset {rest : List HostEvent} (ha : Asks s .reset rest) :
    step s = .next { (hostReset s).1 with agenda := rest, reply := some .ok } := step_serves ha rfl

/-- Settles O6: what `reset()` writes is as at construction, and memory follows `RESET_MEMORY`. -/
theorem hostResetLeavesTheResetState : Obligations.HostResetLeavesTheResetState := by
  refine fun s rest ha => ⟨_, step_reset ha, rfl, rfl, State.initial_pc, rfl, rfl, List.length_replicate,
    fun _ => State.getV_initial, rfl, rfl, List.length_replicate, fun _ => List.eq_of_mem_replicate, fun _ _ => rfl,
    rfl, rfl, rfl, rfl, rfl, rfl, fun hk a => ?_, fun hc a => ⟨fun hf => ?_, fun hlo => ?_⟩⟩
  · exact sameBytes_hostReset (s := s) hk a
  · exact Memory.read_font_eq _ _ hf
  · exact memRead_hostReset_clear hc hlo

/-! ### The launch (R144 to R146, R152) -/

variable {image : List Byte} {bps : List Word}

/-- Breakpoints set one after the other go into the breakpoint set, and nothing else changes. -/
theorem foldl_hostSetBreakpoint (bps : List Word) (s : State) :
    bps.foldl (fun u a => (hostSetBreakpoint a u).1) s =
      { s with breakpoints := bps.foldl (fun l a => insertBreakpoint l a.toNat) s.breakpoints } := by
  induction bps generalizing s with
  | nil => rfl
  | cons a bps ih => exact ih _

/-- Addresses inserted one after the other are in the set, with those from before. -/
theorem mem_foldl_insertBreakpoint {l : List Nat} {b : Nat} :
    b ∈ bps.foldl (fun l a => insertBreakpoint l a.toNat) l ↔ (∃ a ∈ bps, a.toNat = b) ∨ b ∈ l := by
  induction bps generalizing l with
  | nil => simp
  | cons a bps ih =>
    rw [List.foldl_cons, ih, mem_insertBreakpoint, List.exists_mem_cons_iff, or_left_comm, or_assoc, eq_comm (a := b)]

/-- The state that a launch gives whose `load` succeeds: the one `reset()` leaves, with the image in memory, the
breakpoints set, and the core `Running` (R152). -/
def State.launched (image : List Byte) (bps : List Word) (s : State) : State :=
  { (hostReset s).1.storeBytes s.params.programStart image with
    breakpoints := bps.foldl (fun l a => insertBreakpoint l a.toNat) s.breakpoints
    run := .running }

/-- A launch whose `load` fails gives no state. -/
theorem launch_of_failed {e : HostError}
    (h : hostLoad s.params.programStart image (hostReset s).1 = (u, .failed e)) : launch image bps s = none := by
  rw [launch, h]

/-- A launch whose `load` stores the image runs: `reset()` has taken a fault record away (decision D10). -/
theorem launch_of_loaded (h : hostLoad s.params.programStart image (hostReset s).1 =
    ((hostReset s).1.storeBytes s.params.programStart image, .ok)) :
    launch image bps s = some (s.launched image bps) := by
  rw [launch, h]
  simp only [foldl_hostSetBreakpoint]
  rw [hostRun_starts rfl (.inl rfl)]
  rfl

/-- A launch of an image that a `load` at `PROGRAM_START` takes (20_memory R50). -/
theorem launch_ok (hc : s.params.programStart + image.length ≤ s.params.memCapacity)
    (hf : image = [] ∨ s.params.fontEnd ≤ s.params.programStart) :
    launch image bps s = some (s.launched image bps) :=
  launch_of_loaded (hostLoad_ok (s := (hostReset s).1) hc hf).1

/-- An image that neither condition of R50 refuses fits in memory and, if it has bytes, starts past the font. -/
theorem not_load_refused_iff : ¬(s.params.memCapacity < s.params.programStart + image.length ∨
      (image ≠ [] ∧ s.params.programStart < s.params.fontEnd)) ↔
    s.params.programStart + image.length ≤ s.params.memCapacity ∧
      (image = [] ∨ s.params.fontEnd ≤ s.params.programStart) := by
  rw [not_or, Nat.not_lt, not_and_or, not_not, Nat.not_lt]

/-- A launch fails exactly when its `load` does (20_memory R50, decision D6). -/
theorem launch_eq_none_iff : launch image bps s = none ↔
    s.params.memCapacity < s.params.programStart + image.length ∨
      (image ≠ [] ∧ s.params.programStart < s.params.fontEnd) := by
  constructor
  · intro hn
    by_contra hr
    obtain ⟨hc, hf⟩ := not_load_refused_iff.1 hr
    rw [launch_ok hc hf] at hn
    cases hn
  · intro h
    by_cases hc : s.params.memCapacity < s.params.programStart + image.length
    · exact launch_of_failed (hostLoad_capacity (s := (hostReset s).1) hc)
    · obtain ⟨hb, hf⟩ := h.resolve_left hc
      exact launch_of_failed (hostLoad_font (s := (hostReset s).1) (Nat.not_lt.1 hc) hb hf)

/-- A launch that succeeds has stored an image whose every address passes `CheckStore`. -/
theorem launch_eq_some (h : launch image bps s = some u) :
    u = s.launched image bps ∧ checkStores s.params s.params.programStart image.length = none := by
  have hn : launch image bps s ≠ none := Option.ne_none_iff_exists'.2 ⟨u, h⟩
  obtain ⟨hc, hf⟩ := not_load_refused_iff.1 (launch_eq_none_iff.not.1 hn)
  exact ⟨Option.some.inj (h.symm.trans (launch_ok hc hf)), (hostLoad_ok (s := (hostReset s).1) hc hf).2⟩

/-- Settles O59: a launch fails as its `load` does, and else gives `State.launched`, which has the fields of a reset. -/
theorem launchGivesTheProgramItsState : Obligations.LaunchGivesTheProgramItsState := by
  refine fun s image bps => ⟨launch_eq_none_iff, fun u hu => ?_⟩
  obtain ⟨rfl, hc⟩ := launch_eq_some hu
  exact ⟨rfl, rfl, rfl, State.initial_pc, rfl, rfl, rfl, rfl, fun _ => State.getV_initial, fun _ _ => rfl,
    fun _ => mem_foldl_insertBreakpoint, fun _ => State.memRead_storeBytes_at (hostReset s).1 hc⟩

end Sys2Proof.Machine
end
